-- ==== Sys2Proof/Word.lean ====
section
/-! DEFINITION. The two widths of the block: bytes and 16-bit values (spec rule R9, R53). -/

namespace Sys2Proof

/-- 8 bits, unsigned (R9). -/
abbrev Byte := BitVec 8

/-- 16 bits: positions and command values, the widest field there is (R53). -/
abbrev Word := BitVec 16

end Sys2Proof
end

