-- ==== Sys2Proof/Config.lean ====
section
/-! DEFINITION. The implementation parameters of rule R8 and the free values (`unspecified`, rule R10). -/

namespace Sys2Proof

/-- Parity of the serial framing; part of the OPEN parameter SERIAL_FORMAT (R8, D26). -/
inductive Parity where
  | none | odd | even
deriving DecidableEq, Repr, Inhabited

/-- SERIAL_FORMAT (R8): the start, data, parity and stop bits of the framing, and the order of the bits of a byte
(R53, N14). OPEN, and no rule reads it (D26). -/
structure SerialFormat where
  startBits : Nat
  dataBits : Nat
  parity   : Parity
  stopBits : Nat
  lsbFirst : Bool
deriving DecidableEq, Repr, Inhabited

/-- The parameters that R8 leaves OPEN: "the model takes it as an argument". Plain data, so that a statement
quantifies over every choice and a test can name one. -/
structure Config where
  /-- TYPE_BYTE, byte 3 of every broadcast (R71). -/
  typeByte         : Byte
  /-- RSV_BYTE, byte 1 of every entry (R72). -/
  rsvByte          : Byte
  /-- ORDER_UNSUPPORTED, the sentinel a device answers to reject an order (R86, R138). -/
  orderUnsupported : Byte
  /-- ORDER_MODE, the order of SET_CHANNEL_ID's first exchange (R170). -/
  orderMode        : Byte
  /-- ORDER_ID, the order of SET_CHANNEL_ID's second exchange (R170). -/
  orderId          : Byte
  /-- MODE_IDSET, the data value of SET_CHANNEL_ID's first exchange (R170). -/
  modeIdset        : Byte
  /-- CRC_TABLE, a constant of 256 bytes (R37, R162, R165). -/
  crcTable         : Vector Byte 256
  /-- SERIAL_FORMAT; no rule reads it. -/
  serialFormat     : SerialFormat
deriving DecidableEq, Repr, Inhabited

/-- (T1) of R162: `CRC_TABLE[0x00] = 0x00`. -/
def Config.TableZero (c : Config) : Prop := c.crcTable.get (0 : Byte).toFin = 0

/-- (T2) of R162: `CRC_TABLE[x] != 0x00` for every `x != 0x00`. -/
def Config.TableNonzero (c : Config) : Prop := ∀ x : Byte, x ≠ 0 → c.crcTable.get x.toFin ≠ 0

/-- The table is a permutation of the bytes: the extra property R164 names for full single-byte detection. -/
def Config.TableInjective (c : Config) : Prop :=
  ∀ x y : Byte, c.crcTable.get x.toFin = c.crcTable.get y.toFin → x = y

/-- Which use of an `unspecified` byte a free value belongs to: R144, "a fresh draw at each use". Within one step two
uses never share a value, whatever the offset. -/
inductive Use where
  | latch         -- INIT: the command latches, R39
  | lookup        -- `find`, R101
  | shift         -- REMOVE's move of entries, R103
  | checksum      -- a checksum over the template, R104, R105
  | snapshotLen   -- EMIT: `tpl[1]`, R120
  | snapshot      -- EMIT: the copied bytes, R120
  | frameLen      -- EMIT: `mir[1]`, R120
  | frame         -- the bytes handed to TX, R120, R132
  | headerLen     -- header stage: `rxs[1]`, R135
  | bodyLen       -- body stage: `rxs[1]`, R136
  | validateLen   -- validate step: `rl`, R138
  | validateCrc   -- validate step: the checked span, R138
  | validateOrder -- validate step: `rxs[4]`, R138
  | replyData     -- decode: `rxs[5]`, `rxs[6]`, R139
deriving DecidableEq, Repr

/-- Free value: an `unspecified` byte, by number of the step, use within it, and offset (R10, R144; log 7). -/
opaque Config.freeByte : Nat → Use → Nat → Byte

/-- Free value: `res_value` where no value was decoded, by number of the step (R30, R133; log 7). -/
opaque Config.freeWord : Nat → Word

/-- The parameters of the block at hand: unknown (R8 `OPEN`; log 6). -/
opaque Config.unknown : Config

/-! Values the source fixes (R8). -/

def maxCeiling : Nat := 50
def maxFloor : Nat := 1
def idMask : Byte := 0x3F
def cmdSet : Byte := 0x20
def cmdGet : Byte := 0x21
def cmdStatus : Byte := 0x22
def cmdModeA : Byte := 0xA4
def keyByte : Byte := 0x00
/-- BAUD: 250,000 bps. -/
def baud : Nat := 250000
/-- T_RX: 300 ms. -/
def receiveTimeoutMs : Nat := 300
/-- NEUTRAL; "used by no rule" (R8). -/
def neutral : Word := 0x7FFF
/-- T_EMIT in ms, about; "used by no rule" (R8). -/
def emitPeriodMs : Nat := 14

end Sys2Proof
end

