-- ==== Sys2Proof/Machine/Crc.lean ====
section
/-! DEFINITION. CRC-8 (rules R160, R161). -/

namespace Sys2Proof.Machine

/-- `crc_step(byte, crc) = CRC_TABLE[(byte ^ crc) & 0xFF]` (R160). -/
def crcStep (c : Config) (byte crc : Byte) : Byte := c.crcTable.get ((byte ^^^ crc) &&& 0xFF).toFin

/-- `crc8(buf, n)` over the bytes `buf[0..n)`, from 0x00, in increasing offset order (R161). -/
def crc8 (c : Config) (bytes : List Byte) : Byte := bytes.foldl (fun crc b => crcStep c b crc) 0x00

end Sys2Proof.Machine
end

