-- ==== Sys2Proof/Machine/Installed.lean ====
section
/-! DEFINITION. The parameters the block has after reset. -/

namespace Sys2Proof.Machine

/-- The OPEN parameters of R8 as the block was built: unknown (log 6). -/
def installedConfig : Config := Config.unknown

end Sys2Proof.Machine
end

