-- ==== Sys2Proof/Machine/Memory.lean ====
section
/-! DEFINITION. A byte buffer (rules R50 to R55): cells in one canonical form, single-byte access, wider access built
from it in one place. -/

namespace Sys2Proof.Machine

/-- A buffer: the specified bytes, as (offset, byte) cells. An offset with no cell is `unspecified` (R10, R63, R144). -/
abbrev Memory := List Host.Cell

/-- Canonical form: offsets strictly rising. (No cell can repeat what an unlisted offset reads as: that is a free value,
which no byte equals by definition.) -/
abbrev Memory.wf (m : Memory) : Prop := m.Pairwise (fun x y => x.1 < y.1)

/-- The byte at an offset, if it is specified. -/
def Memory.cell? : Memory → Nat → Option Byte
  | [], _ => none
  | (b, v) :: m, a => if a = b then some v else Memory.cell? m a

/-- `buf[off] <- v` (R10). -/
def Memory.put : Memory → Nat → Byte → Memory
  | [], a, v => [(a, v)]
  | (b, w) :: m, a, v =>
    if a < b then (a, v) :: (b, w) :: m
    else if a = b then (a, v) :: m
    else (b, w) :: Memory.put m a v

/-- `MemWrite(buf, off, n, v)`: bytes at increasing offsets (R10, R53). -/
def Memory.putBytes : Memory → Nat → List Byte → Memory
  | m, _, [] => m
  | m, a, v :: vs => Memory.putBytes (m.put a v) (a + 1) vs

/-- Bytes from offset `n` on become `unspecified`. -/
def Memory.keepBelow (m : Memory) (n : Nat) : Memory := m.filter (fun c => decide (c.1 < n))

/-- `buf[off]` (R10): the specified byte, else the free value of this step, use and offset (R144). -/
def Memory.read (m : Memory) (draw : Nat) (u : Use) (a : Nat) : Byte :=
  (m.cell? a).getD (Config.freeByte draw u a)

/-- `MemRead(buf, off, n)`: the bytes `buf[off..off+n)` (R9, R10). -/
def Memory.readBytes (m : Memory) (draw : Nat) (u : Use) : Nat → Nat → List Byte
  | _, 0 => []
  | a, n + 1 => m.read draw u a :: Memory.readBytes m draw u (a + 1) n

/-- The buffer whose bytes are exactly `vs`, from offset `a`. -/
def Memory.ofBytes : Nat → List Byte → Memory
  | _, [] => []
  | a, v :: vs => (a, v) :: Memory.ofBytes (a + 1) vs

end Sys2Proof.Machine
end

