-- ==== Sys2Proof/Machine/State.lean ====
section
/-! DEFINITION. The state of one block instance (rule R20), the agents' inputs, the reasons a step can stop, reset (R39). -/

namespace Sys2Proof.Machine

/-- The engine's state register `eng` (R27). -/
inductive Eng where
  | idle | sending | awaitingEcho | awaitingResponseHeader | awaitingResponseBody | validating
deriving DecidableEq, Repr

/-- `l_size`, 1 or 2 (R28). -/
inductive ValueSize where
  | one | two
deriving DecidableEq, Repr

/-- `cid_phase` (R33). -/
inductive CidPhase where
  | none | first | second
deriving DecidableEq, Repr

/-- `pend`: an accepted mutation with its masked id, value and entry index (R32). -/
inductive Pending where
  | add (id : Byte) (value : Word) (index : Nat)
  | remove (id : Byte) (index : Nat)
  | set (id : Byte) (value : Word) (index : Nat)
deriving DecidableEq, Repr

/-- `res_code`: the result kinds of R190. -/
inductive ResCode where
  | ok | capacityExceeded | duplicateChannel | emptyRegistry | channelNotFound | unsupported | restrictedTopology
  /-- "reserved and never produced" (R190). -/
  | outOfMemory
  | timeout | crcError
deriving DecidableEq, Repr

/-- The wire log's events (R11). -/
inductive Event where
  /-- `TX(bytes)`. -/
  | tx (bytes : List Byte)
  /-- `TXDRAIN`. -/
  | txDrain
  /-- `RXFLUSH`. -/
  | rxFlush
  /-- `READ(n) -> got`. -/
  | read (n : Nat) (got : List Byte)
  /-- `DIR(1)` (true: high, receive) and `DIR(0)` (false: low, transmit). -/
  | dir (high : Bool)
  /-- `DIR_OUT`. -/
  | dirOut
  /-- `DIR_RELEASE`. -/
  | dirRelease
  /-- `OPEN(BAUD, T_RX)`. -/
  | opened (bps timeoutMs : Nat)
  /-- `CLOSE`. -/
  | closed
deriving DecidableEq, Repr

/-- Who moves at a step (R7), or the reset input (R220). -/
inductive Turn where
  | host | tick | engine | reset
deriving DecidableEq, Repr

structure State where
  /-- The OPEN parameters (R8); no step writes them (log 6). -/
  cfg       : Config
  /-- The schedule: who moves next, in order (R58; log 2). -/
  turns     : List Turn
  /-- The operation words HOST has still to issue, oldest first (R7; log 2). -/
  hostOps   : List (List Byte)
  /-- BUS's answers to the READs to come, oldest first (R11, R34; log 5). -/
  bus       : List (List Byte)
  /-- The number of the step, which numbers the free values (R10; log 7). -/
  draws     : Nat
  /-- `MAX_SERVO` (R21). -/
  maxServo  : Nat
  /-- `HAS_DIR_PIN` (R21). -/
  hasDirPin : Bool
  /-- `inited` (R21). -/
  inited    : Bool
  /-- `count` (R22). -/
  count     : Nat
  /-- The Broadcast Template `tpl` (R23, R51). -/
  tpl       : Memory
  /-- `dirty` (R24). -/
  dirty     : Bool
  /-- `busy` (R25). -/
  busy      : Bool
  /-- `pend` (R32). -/
  pend      : Option Pending
  /-- The Transmit Mirror Buffer `mir` (R26, R52). -/
  mir       : Memory
  /-- `eng` (R27). -/
  eng       : Eng
  /-- `l_cmd`, `l_id`, `l_order`, `l_value`, `l_size`, `sent_len` (R28). -/
  lCmd      : Byte
  lId       : Byte
  lOrder    : Byte
  lValue    : Word
  lSize     : ValueSize
  sentLen   : Nat
  /-- The receive scratch `rxs` (R29). -/
  rxs       : Memory
  /-- `res_code`, `res_value`, `res_valid` (R30). -/
  resCode   : ResCode
  resValue  : Word
  resValid  : Bool
  /-- `cid_phase`, `l_newid` (R33). -/
  cidPhase  : CidPhase
  lNewid    : Byte
  /-- `dir_level`: true = high = receive mode; `dir_oe`: true = output (R31). -/
  dirLevel  : Bool
  dirOe     : Bool
  /-- The wire log, oldest event first (R35). -/
  wire      : List Event
deriving DecidableEq, Repr

/-- Why the machine stops with a fault (R196): the source forbids the situation or does not define it. All safe. -/
inductive Fault where
  /-- EMIT while `eng != Idle` (R196, R222). Raised by EMIT and BCAST. Safe. -/
  | emitDuringCommand
  /-- A host operation while another is in progress (R196, R223). Raised by every operation HOST issues. Safe. -/
  | hostOpWhileEngineBusy
  /-- Header stage: the announced response exceeds the buffer (R135, R143). Raised by the header stage, with the state
  it leaves (the pin restored, the engine idle). Safe. -/
  | rxOverrun (left : State)
  /-- The model's own (log 17): an offset outside `tpl` or `mir`, which no rule produces while the invariants hold
  (R54). Raised by the commit steps, EMIT, BCAST, the request build and the transmit step. Safe. -/
  | offsetOutsideBuffer
deriving DecidableEq, Repr

/-- Why a step has no meaning (R197). All safe. -/
inductive Refusal where
  /-- An instruction with no meaning yet. Raised by `exec` alone; here by no arm. Safe. -/
  | notModelled (mnemonic : String)
  /-- Any operation other than INIT while `inited = 0` (R197). Raised by every operation but INIT. Safe. -/
  | notInitialised
  /-- INIT while `inited = 1` (R197). Raised by INIT. Safe. -/
  | alreadyInitialised
  /-- SEND_COMMAND with a command outside 0x20, 0x21, 0x22, 0xA4 (R197). Safe. -/
  | badCommand
  /-- SEND_COMMAND with a value size outside 1 and 2 (R197). Safe. -/
  | badValueSize
  /-- Host selector 9 to 15 (R197). Raised by `step`. Safe. -/
  | badOperation
  /-- The model's own (log 4): a queued word that is no operation word of the model's layout. Raised by `step`. Safe. -/
  | malformedWord
  /-- The model's own (log 19): a request frame outside the transmit step, or a response frame outside the validate
  step. Raised by the REQ rows and RESP. Safe. -/
  | frameOutOfTurn
deriving DecidableEq, Repr

/-- The outcome of a step of this machine. -/
abbrev Out := Host.Outcome State Fault Refusal

/-- The machine right after reset (R39, R220); the values R39 leaves `unspecified` are those of log 8. -/
def State.reset : State where
  cfg := installedConfig
  turns := []
  hostOps := []
  bus := []
  draws := 0
  maxServo := maxFloor
  hasDirPin := false
  inited := false
  count := 0
  tpl := []
  dirty := false
  busy := false
  pend := none
  mir := []
  eng := .idle
  lCmd := 0
  lId := 0
  lOrder := 0
  lValue := 0
  lSize := .one
  sentLen := 7
  rxs := []
  resCode := .ok
  resValue := 0
  resValid := false
  cidPhase := .none
  lNewid := 0
  dirLevel := false
  dirOe := false
  wire := []

end Sys2Proof.Machine
end

