-- ==== Sys2Proof/Machine/Flags.lean ====
section
/-! DEFINITION. The two flags, `dirty` and `busy` (rules R24, R25): who writes them and how. The block has no condition
codes (R38). -/

namespace Sys2Proof.Machine

/-- A mutator's begin step: `busy <- 1 ; pend <- p` (R106). -/
def State.beginMutation (p : Pending) (s : State) : State := { s with busy := true, pend := some p }

/-- The end of a commit step: `dirty <- 1 ; busy <- 0 ; pend <- none` (R102 to R104, R106). -/
def State.finishMutation (s : State) : State := { s with dirty := true, busy := false, pend := none }

/-- SEND_COMMAND's start step: `dirty <- 1` (R131, R62). -/
def State.markDirty (s : State) : State := { s with dirty := true }

/-- EMIT after its copy: `dirty <- 0` (R120). -/
def State.clearDirty (s : State) : State := { s with dirty := false }

end Sys2Proof.Machine
end

