-- ==== Sys2Proof/Syntax.lean ====
section
/-! DEFINITION. The instructions: one constructor per row of spec/opcode_table.json (rules R84, R73, R71, R74). -/

namespace Sys2Proof

/-- A channel entry as it stands in the template and on the wire (R72): 6-bit id, reserved byte, position. -/
structure Entry where
  id  : BitVec 6
  rsv : Byte
  pos : Word
deriving DecidableEq, Repr

/-- Nine host operations (R84), eight request frames (R73), the broadcast frame (R71) and the response frame (R74). -/
inductive Instr where
  /-- INIT, R180. -/
  | init (requestedMax : Byte) (hasDirPin : Bool)
  /-- ADD, R102. -/
  | add (channelId : Byte) (initialValue : Word)
  /-- REMOVE, R103. -/
  | remove (channelId : Byte)
  /-- SET, R104. -/
  | set (channelId : Byte) (value : Word)
  /-- EMIT, R120. -/
  | emit
  /-- SEND_COMMAND, R130. `command` and `valueSize` are raw: values outside the sets are refused by its meaning (R83). -/
  | sendCommand (command channelId order : Byte) (value : Word) (valueSize : Byte)
  /-- SET_CHANNEL_ID, R170. -/
  | setChannelId (oldId newId : Byte)
  /-- SET_CHANNEL_ID_SINGLE, R171. -/
  | setChannelIdSingle (newId : Byte)
  /-- SHUTDOWN, R181. -/
  | shutdown
  /-- REQ_SET_1, R73: command 0x20, one data byte. -/
  | reqSet1 (channelId order data crc : Byte)
  /-- REQ_SET_2, R73: command 0x20, two data bytes. -/
  | reqSet2 (channelId order : Byte) (data : Word) (crc : Byte)
  /-- REQ_GET_1, R73: command 0x21. -/
  | reqGet1 (channelId order data crc : Byte)
  /-- REQ_GET_2, R73. -/
  | reqGet2 (channelId order : Byte) (data : Word) (crc : Byte)
  /-- REQ_STATUS_1, R73: command 0x22. -/
  | reqStatus1 (channelId order data crc : Byte)
  /-- REQ_STATUS_2, R73. -/
  | reqStatus2 (channelId order : Byte) (data : Word) (crc : Byte)
  /-- REQ_MODEA_1, R73: command 0xA4. -/
  | reqModeA1 (channelId order data crc : Byte)
  /-- REQ_MODEA_2, R73. -/
  | reqModeA2 (channelId order : Byte) (data : Word) (crc : Byte)
  /-- BCAST, R71: length byte, type byte, entries, checksum. -/
  | bcast (len typ : Byte) (entries : List Entry) (crc : Byte)
  /-- RESP, R74: command byte, length byte, the `len` payload bytes, checksum. -/
  | resp (cmd len : Byte) (payload : List Byte) (crc : Byte)
deriving DecidableEq, Repr

end Sys2Proof
end

