-- ==== Sys2Proof/WellFormed.lean ====
section
/-! DEFINITION. The checks an instruction meets beyond its fields' types. -/

namespace Sys2Proof

/-- BCAST: the length byte is `2 + 4*n` (R71). -/
def bcastLenOk (len : Byte) (entries : List Entry) : Bool := len.toNat == 2 + 4 * entries.length

/-- BCAST: between 1 and 50 entries (R71: "`n = 1` ... `n = 50`"). -/
def bcastCountOk (entries : List Entry) : Bool := 1 ≤ entries.length && entries.length ≤ 50

/-- RESP: the payload has as many bytes as the length byte says (R70). -/
def respLenOk (len : Byte) (payload : List Byte) : Bool := payload.length == len.toNat

/-- Well-formed instructions. Every operand value of a host operation and of a request frame is one the encoding
admits; operands the block refuses (a command outside the four, a value size outside 1 and 2) are the operation's own
refusals (R83, R197), not a matter of form. -/
def Instr.wellFormed : Instr → Bool
  | .init _ _ => true
  | .add _ _ => true
  | .remove _ => true
  | .set _ _ => true
  | .emit => true
  | .sendCommand _ _ _ _ _ => true
  | .setChannelId _ _ => true
  | .setChannelIdSingle _ => true
  | .shutdown => true
  | .reqSet1 _ _ _ _ => true
  | .reqSet2 _ _ _ _ => true
  | .reqGet1 _ _ _ _ => true
  | .reqGet2 _ _ _ _ => true
  | .reqStatus1 _ _ _ _ => true
  | .reqStatus2 _ _ _ _ => true
  | .reqModeA1 _ _ _ _ => true
  | .reqModeA2 _ _ _ _ => true
  | .bcast len _ entries _ => bcastLenOk len entries && bcastCountOk entries
  | .resp _ len payload _ => respLenOk len payload

end Sys2Proof
end

