-- ==== Sys2Proof/Decode.lean ====
section
/-! DEFINITION. Bytes to instructions, total and rejecting by name; then the encoder, the opcode table's rows, and the
host's word of a table row. -/

namespace Sys2Proof

/-! Big-endian byte order, decided once (R53, R77). -/

/-- `v[15:8]`. -/
def hiByte (v : Word) : Byte := v.extractLsb' 8 8

/-- `v[7:0]`. -/
def loByte (v : Word) : Byte := v.extractLsb' 0 8

/-- `{hi, lo}` = `hi*256 + lo` (R9). -/
def ofHiLo (hi lo : Byte) : Word := hi ++ lo

/-- Where the bytes stand decides which format they are read in (R70, R84): an operation word HOST issues, a frame the
block transmits, a frame it receives. -/
inductive Port where
  | host | transmit | receive
deriving DecidableEq, Repr

/-- Why bytes are no instruction. -/
inductive Reject where
  /-- Host selector 9 to 15: unassigned (R84, R197 BadOperation). -/
  | badOperation
  /-- Bits that the layout fixes at zero are not zero: selector byte bits 7:4, has_dir_pin bits 7:1, key byte, entry id bits 7:6. -/
  | reservedBits
  /-- A transmitted frame whose command byte is none of the four of R75. -/
  | unknownCommand
  /-- The bytes end before the instruction does. -/
  | truncated
deriving DecidableEq, Repr

/-- A host operation word: selector byte (R84), then the operands in R84's order, a 16-bit operand big-endian (log 3). -/
def decodeHost : List Byte → Except Reject (Instr × List Byte)
  | [] => .error .truncated
  | op :: bs =>
    match op.toNat with
    | 0 => match bs with
      | m :: p :: rest =>
        if p = 0 then .ok (.init m false, rest)
        else if p = 1 then .ok (.init m true, rest)
        else .error .reservedBits
      | _ => .error .truncated
    | 1 => match bs with
      | i :: h :: l :: rest => .ok (.add i (ofHiLo h l), rest)
      | _ => .error .truncated
    | 2 => match bs with
      | i :: rest => .ok (.remove i, rest)
      | _ => .error .truncated
    | 3 => match bs with
      | i :: h :: l :: rest => .ok (.set i (ofHiLo h l), rest)
      | _ => .error .truncated
    | 4 => .ok (.emit, bs)
    | 5 => match bs with
      | c :: i :: o :: h :: l :: s :: rest => .ok (.sendCommand c i o (ofHiLo h l) s, rest)
      | _ => .error .truncated
    | 6 => match bs with
      | o :: n :: rest => .ok (.setChannelId o n, rest)
      | _ => .error .truncated
    | 7 => match bs with
      | n :: rest => .ok (.setChannelIdSingle n, rest)
      | _ => .error .truncated
    | 8 => .ok (.shutdown, bs)
    | k => if k < 16 then .error .badOperation else .error .reservedBits

/-- The request frame with one data byte that a command byte names (R73, R75). -/
def request1 (cmd i o d c : Byte) : Except Reject Instr :=
  if cmd = cmdSet then .ok (.reqSet1 i o d c)
  else if cmd = cmdGet then .ok (.reqGet1 i o d c)
  else if cmd = cmdStatus then .ok (.reqStatus1 i o d c)
  else if cmd = cmdModeA then .ok (.reqModeA1 i o d c)
  else .error .unknownCommand

/-- The request frame with two data bytes that a command byte names (R73, R75). -/
def request2 (cmd i o : Byte) (d : Word) (c : Byte) : Except Reject Instr :=
  if cmd = cmdSet then .ok (.reqSet2 i o d c)
  else if cmd = cmdGet then .ok (.reqGet2 i o d c)
  else if cmd = cmdStatus then .ok (.reqStatus2 i o d c)
  else if cmd = cmdModeA then .ok (.reqModeA2 i o d c)
  else .error .unknownCommand

/-- `n` channel entries of 4 bytes (R72); id bits 7:6 are zero (R82). -/
def decodeEntries : Nat → List Byte → Except Reject (List Entry × List Byte)
  | 0, bs => .ok ([], bs)
  | n + 1, i :: r :: h :: l :: bs =>
    if i.toNat < 64 then
      match decodeEntries n bs with
      | .ok (es, rest) => .ok (⟨i.setWidth 6, r, ofHiLo h l⟩ :: es, rest)
      | .error e => .error e
    else .error .reservedBits
  | _ + 1, _ => .error .truncated

/-- A frame the block transmits: a request by `len` 4 or 5 (R73), else a broadcast (R71, R81). -/
def decodeTransmitted : List Byte → Except Reject (Instr × List Byte)
  | cmd :: len :: key :: bs =>
    if key ≠ keyByte then .error .reservedBits
    else if len = 4 then
      match bs with
      | i :: o :: d :: c :: rest =>
        match request1 cmd i o d c with
        | .ok r => .ok (r, rest)
        | .error e => .error e
      | _ => .error .truncated
    else if len = 5 then
      match bs with
      | i :: o :: h :: l :: c :: rest =>
        match request2 cmd i o (ofHiLo h l) c with
        | .ok r => .ok (r, rest)
        | .error e => .error e
      | _ => .error .truncated
    else if cmd = cmdModeA then
      match bs with
      | t :: bs =>
        match decodeEntries ((len.toNat - 2) / 4) bs with
        | .ok (es, c :: rest) => .ok (.bcast len t es c, rest)
        | .ok (_, []) => .error .truncated
        | .error e => .error e
      | [] => .error .truncated
    else .error .unknownCommand
  | _ => .error .truncated

/-- A frame the block receives: any bytes, `len + 3` of them (R74, R80, R83). -/
def decodeReceived : List Byte → Except Reject (Instr × List Byte)
  | cmd :: len :: bs =>
    match bs.drop len.toNat with
    | c :: rest => .ok (.resp cmd len (bs.take len.toNat) c, rest)
    | [] => .error .truncated
  | _ => .error .truncated

/-- The instruction at the front of `bs`, and the bytes after it. -/
def decode (p : Port) (bs : List Byte) : Except Reject (Instr × List Byte) :=
  match p with
  | .host => decodeHost bs
  | .transmit => decodeTransmitted bs
  | .receive => decodeReceived bs

/-! The encoder. -/

/-- The 4 bytes of an entry (R72). -/
def Entry.bytes (e : Entry) : List Byte := [e.id.setWidth 8, e.rsv, hiByte e.pos, loByte e.pos]

/-- A request frame with one data byte (R73). -/
def requestFrame1 (cmd i o d c : Byte) : List Byte := [cmd, 4, keyByte, i, o, d, c]

/-- A request frame with two data bytes (R73). -/
def requestFrame2 (cmd i o : Byte) (d : Word) (c : Byte) : List Byte :=
  [cmd, 5, keyByte, i, o, hiByte d, loByte d, c]

/-- The bytes of an instruction. -/
def encode : Instr → List Byte
  | .init m p => [0x00, m, if p then 1 else 0]
  | .add i v => [0x01, i, hiByte v, loByte v]
  | .remove i => [0x02, i]
  | .set i v => [0x03, i, hiByte v, loByte v]
  | .emit => [0x04]
  | .sendCommand c i o v s => [0x05, c, i, o, hiByte v, loByte v, s]
  | .setChannelId o n => [0x06, o, n]
  | .setChannelIdSingle n => [0x07, n]
  | .shutdown => [0x08]
  | .reqSet1 i o d c => requestFrame1 cmdSet i o d c
  | .reqSet2 i o d c => requestFrame2 cmdSet i o d c
  | .reqGet1 i o d c => requestFrame1 cmdGet i o d c
  | .reqGet2 i o d c => requestFrame2 cmdGet i o d c
  | .reqStatus1 i o d c => requestFrame1 cmdStatus i o d c
  | .reqStatus2 i o d c => requestFrame2 cmdStatus i o d c
  | .reqModeA1 i o d c => requestFrame1 cmdModeA i o d c
  | .reqModeA2 i o d c => requestFrame2 cmdModeA i o d c
  | .bcast len t es c => cmdModeA :: len :: keyByte :: t :: (es.flatMap Entry.bytes ++ [c])
  | .resp cmd len payload c => cmd :: len :: (payload ++ [c])

/-- The format an instruction is written in. -/
def Instr.port : Instr → Port
  | .init _ _ => .host
  | .add _ _ => .host
  | .remove _ => .host
  | .set _ _ => .host
  | .emit => .host
  | .sendCommand _ _ _ _ _ => .host
  | .setChannelId _ _ => .host
  | .setChannelIdSingle _ => .host
  | .shutdown => .host
  | .reqSet1 _ _ _ _ => .transmit
  | .reqSet2 _ _ _ _ => .transmit
  | .reqGet1 _ _ _ _ => .transmit
  | .reqGet2 _ _ _ _ => .transmit
  | .reqStatus1 _ _ _ _ => .transmit
  | .reqStatus2 _ _ _ _ => .transmit
  | .reqModeA1 _ _ _ _ => .transmit
  | .reqModeA2 _ _ _ _ => .transmit
  | .bcast _ _ _ _ => .transmit
  | .resp _ _ _ _ => .receive

/-! The rows of spec/opcode_table.json. -/

/-- The fixed bits of a row: for each leading byte, a mask and the value under it. -/
abbrev RowBits := List (Byte × Byte)

/-- The leading bytes of `bs` have the row's fixed bits. -/
def RowBits.matched : RowBits → List Byte → Bool
  | [], _ => true
  | _ :: _, [] => false
  | (mask, value) :: row, b :: bs => (b &&& mask == value) && RowBits.matched row bs

/-- The fixed bits the table gives an instruction's row: `match` and `mask` of the HOSTOP rows (a 4-bit selector), the
constant bytes of the REQ1 and REQ2 patterns, the header of BCAST (bytes 0 and 2), nothing for RESP. -/
def Instr.rowBits : Instr → RowBits
  | .init _ _ => [(0x0F, 0x0)]
  | .add _ _ => [(0x0F, 0x1)]
  | .remove _ => [(0x0F, 0x2)]
  | .set _ _ => [(0x0F, 0x3)]
  | .emit => [(0x0F, 0x4)]
  | .sendCommand _ _ _ _ _ => [(0x0F, 0x5)]
  | .setChannelId _ _ => [(0x0F, 0x6)]
  | .setChannelIdSingle _ => [(0x0F, 0x7)]
  | .shutdown => [(0x0F, 0x8)]
  | .reqSet1 _ _ _ _ => [(0xFF, 0x20), (0xFF, 0x04), (0xFF, 0x00)]
  | .reqSet2 _ _ _ _ => [(0xFF, 0x20), (0xFF, 0x05), (0xFF, 0x00)]
  | .reqGet1 _ _ _ _ => [(0xFF, 0x21), (0xFF, 0x04), (0xFF, 0x00)]
  | .reqGet2 _ _ _ _ => [(0xFF, 0x21), (0xFF, 0x05), (0xFF, 0x00)]
  | .reqStatus1 _ _ _ _ => [(0xFF, 0x22), (0xFF, 0x04), (0xFF, 0x00)]
  | .reqStatus2 _ _ _ _ => [(0xFF, 0x22), (0xFF, 0x05), (0xFF, 0x00)]
  | .reqModeA1 _ _ _ _ => [(0xFF, 0xA4), (0xFF, 0x04), (0xFF, 0x00)]
  | .reqModeA2 _ _ _ _ => [(0xFF, 0xA4), (0xFF, 0x05), (0xFF, 0x00)]
  | .bcast _ _ _ _ => [(0xFF, 0xA4), (0x00, 0x00), (0xFF, 0x00)]
  | .resp _ _ _ _ => []

/-! The host's word of a table row (log 20). -/

/-- The `n` bytes of `w`, the most significant first: frames are numbered as big-endian words (opcode_table.json, BCAST
and the REQ patterns). -/
def bigEndianBytes : Nat → Nat → List Byte
  | 0, _ => []
  | n + 1, w => BitVec.ofNat 8 (w / 256 ^ n) :: bigEndianBytes n w

/-- The port a table word belongs to: a HOSTOP row has a 4-bit selector, RESP 16 bits, BCAST 32, REQ1 56, REQ2 64. -/
def tablePort (nbits w : Nat) : Port :=
  if nbits = 0 ∨ nbits = 16 then .receive
  else if nbits ≤ 8 ∨ w < 256 then .host
  else .transmit

/-- The bytes of a table word as the hardware holds them, first byte first, with zero bytes after the table's bits up to
the longest instruction. -/
def tableBytes (nbits w : Nat) : List Byte :=
  match tablePort nbits w with
  | .host => BitVec.ofNat 8 w :: List.replicate 6 0
  | .transmit => bigEndianBytes (nbits / 8) w ++ List.replicate 254 0
  | .receive => bigEndianBytes (nbits / 8) w ++ List.replicate 258 0

/-- The instruction the decoder reads from a table word. -/
def decodeTableWord (nbits w : Nat) : Option Instr :=
  match decode (tablePort nbits w) (tableBytes nbits w) with
  | .ok (i, _) => some i
  | .error _ => none

end Sys2Proof
end

