-- ==== Sys2Proof/Machine/Operands.lean ====
section
/-! DEFINITION. Operand forms: masking, extension, value sizes, the command set, length bytes (rules R75 to R79, R83). -/

namespace Sys2Proof.Machine

/-- `channel_id & 0x3F` (R78, R100). -/
def maskId (id : Byte) : Byte := id &&& idMask

/-- `zext_16` (R9). -/
def zext16 (b : Byte) : Word := b.setWidth 16

/-- `sext_16` (R9, R79): "sign-extended from bit 7". -/
def sext16 (b : Byte) : Word := b.signExtend 16

/-- The command bytes that have a meaning (R75, R83). -/
def commandOk (cmd : Byte) : Bool := cmd == cmdSet || cmd == cmdGet || cmd == cmdStatus || cmd == cmdModeA

/-- `value_size` is 1 or 2 (R83, R84). -/
def ValueSize.ofByte (b : Byte) : Option ValueSize :=
  if b = 1 then some .one else if b = 2 then some .two else none

/-- The value size a free byte stands for: either is possible (R10, R39). -/
def ValueSize.ofFree (b : Byte) : ValueSize := if b.msb then .two else .one

/-- The number of data bytes. -/
def ValueSize.bytes : ValueSize → Nat
  | .one => 1
  | .two => 2

/-- The data bytes that hold a request's value (R73, R77): `value[7:0]`, or big-endian. -/
def ValueSize.data (v : Word) : ValueSize → List Byte
  | .one => [loByte v]
  | .two => [hiByte v, loByte v]

/-- The reply value, from the bytes at offsets 5 and 6 (R79, R139). -/
def decodeReply (data1 data2 : Byte) : ValueSize → Word
  | .one => sext16 data1
  | .two => ofHiLo data1 data2

/-- `clamp(requested, 1, 50)` (R21, R180). -/
def clampCapacity (requested : Nat) : Nat := min (max requested maxFloor) maxCeiling

/-- A length as the byte that holds it (R76: lengths are computed without wrap, then stored). -/
def lengthByte (n : Nat) : Byte := BitVec.ofNat 8 n

end Sys2Proof.Machine
end

