-- ==== Sys2Proof/Machine/Ops.lean ====
section
/-! DEFINITION. The shared operations: buffer access, the wire log, the direction pin, reads from BUS, completing with a
result (this block's only form of taking an exception, R190, R194), admission of host operations (R107, R130, R196, R197). -/

namespace Sys2Proof.Machine

/-- `BUF_CAP = 4*MAX_SERVO + 5`, of `tpl` and of `mir` (R8, R50). -/
def State.bufCap (s : State) : Nat := 4 * s.maxServo + 5

/-- Go on only if the offsets below `n` lie in a buffer of `BUF_CAP` bytes (R54; log 17). -/
def State.inBuffer (s : State) (n : Nat) (k : Out) : Out :=
  if n ≤ s.bufCap then k else .fault .offsetOutsideBuffer

/-- `tpl[off]` (R10). -/
def State.tplByte (s : State) (u : Use) (a : Nat) : Byte := s.tpl.read s.draws u a

/-- `tpl[off..off+n)` (R10). -/
def State.tplBytes (s : State) (u : Use) (a n : Nat) : List Byte := s.tpl.readBytes s.draws u a n

/-- `mir[off]` (R10). -/
def State.mirByte (s : State) (u : Use) (a : Nat) : Byte := s.mir.read s.draws u a

/-- `mir[off..off+n)` (R10). -/
def State.mirBytes (s : State) (u : Use) (a n : Nat) : List Byte := s.mir.readBytes s.draws u a n

/-- `rxs[off]` (R10). -/
def State.rxsByte (s : State) (u : Use) (a : Nat) : Byte := s.rxs.read s.draws u a

/-- `rxs[off..off+n)` (R10). -/
def State.rxsBytes (s : State) (u : Use) (a n : Nat) : List Byte := s.rxs.readBytes s.draws u a n

/-- `event E`, for each in turn (R10, R35). -/
def State.log (es : List Event) (s : State) : State := { s with wire := s.wire ++ es }

/-- `if HAS_DIR_PIN: event DIR(1) ; dir_level <- 1` (R132). -/
def State.turnPin (s : State) : State :=
  { s with dirLevel := if s.hasDirPin then true else s.dirLevel,
           wire := s.wire ++ (if s.hasDirPin then [.dir true] else []) }

/-- `if HAS_DIR_PIN: event DIR(0) ; dir_level <- 0` (R137). -/
def State.restorePin (s : State) : State :=
  { s with dirLevel := if s.hasDirPin then false else s.dirLevel,
           wire := s.wire ++ (if s.hasDirPin then [.dir false] else []) }

/-- BUS's answer to `READ(n)`: the next queued answer, at most `n` bytes of it; none queued is no byte (R11; log 5). -/
def State.busAnswer (s : State) (n : Nat) : List Byte := (s.bus.headD []).take n

/-- `event READ(n) -> got` (R11, R201). -/
def State.readBus (n : Nat) (s : State) : State :=
  { s with bus := s.bus.tail, wire := s.wire ++ [.read n (s.busAnswer n)] }

/-- The end of an operation (R30): the result latches, `res_value` free where no value was decoded. -/
def State.complete (code : ResCode) (value : Option Word) (s : State) : State :=
  { s with resCode := code, resValue := value.getD (Config.freeWord s.draws), resValid := value.isSome }

/-- `cid_phase` after an exchange that ended with `code` (R170): the second exchange follows a first that succeeded;
otherwise the composite is over. -/
def CidPhase.after (code : ResCode) : CidPhase → CidPhase
  | .first => if code = .ok then .second else .none
  | .second => .none
  | .none => .none

/-- The end of an exchange: `eng <- Idle` and the result (R133, R137, R138), and SET_CHANNEL_ID's phase (R170). -/
def State.endExchange (code : ResCode) (value : Option Word) (s : State) : State :=
  { s with resCode := code, resValue := value.getD (Config.freeWord s.draws), resValid := value.isSome,
           eng := .idle, cidPhase := s.cidPhase.after code }

/-- `raise K` inside an exchange (R137, R138): its end without a value; `rxs` is scratch afterwards (R140). -/
def State.failExchange (code : ResCode) (s : State) : State :=
  { s.endExchange code none with rxs := [] }

/-- A host operation is in progress (R196, R223): an exchange, a mutation, or SET_CHANNEL_ID between its two exchanges
(log 13). -/
def State.inProgress (s : State) : Bool := s.eng != .idle || s.busy || s.cidPhase != .none

/-- Not while another host operation is in progress (R196 HostOpWhileEngineBusy). -/
def State.whenFree (s : State) (k : Out) : Out :=
  if s.inProgress then .fault .hostOpWhileEngineBusy else k

/-- Admission of every host operation but INIT (R107, R130, R181): `inited = 1`, then nothing in progress. -/
def State.whenReady (s : State) (k : Out) : Out :=
  if s.inited then s.whenFree k else .refused .notInitialised

end Sys2Proof.Machine
end

