-- ==== Sys2Proof/Machine/Engine.lean ====
section
/-! DEFINITION. The Command/Response Engine: SEND_COMMAND, the engine's stages, the request and response frames (rules
R130 to R148, R73, R74). -/

namespace Sys2Proof.Machine

/-- The request before its checksum (R52, R131). -/
def requestBody (cmd id order : Byte) (value : Word) (size : ValueSize) : List Byte :=
  [cmd, lengthByte (size.bytes + 3), keyByte, id, order] ++ size.data value

/-- The request frame (R73, R131). -/
def requestBytes (c : Config) (cmd id order : Byte) (value : Word) (size : ValueSize) : List Byte :=
  requestBody cmd id order value size ++ [crc8 c (requestBody cmd id order value size)]

/-- The state after the start step (R131): operands latched, request built, scratch `unspecified`. -/
def State.requestBuilt (cmd id order : Byte) (value : Word) (size : ValueSize) (s : State) : State :=
  ({ s with
    lCmd := cmd, lId := id, lOrder := order, lValue := value, lSize := size
    mir := Memory.ofBytes 0 (requestBytes s.cfg cmd id order value size)
    sentLen := size.bytes + 6
    rxs := []
    wire := s.wire ++ [.rxFlush]
    eng := .sending } : State).markDirty

/-- The start step, `Idle -> Sending` (R131). -/
def startExchange (cmd id order : Byte) (value : Word) (size : ValueSize) (s : State) : Out :=
  s.inBuffer (size.bytes + 6) (.next (s.requestBuilt cmd id order value size))

/-- SEND_COMMAND(command, channel_id, order, value, value_size): admission and start step (R130, R131). -/
def execSendCommand (command channelId order : Byte) (value : Word) (valueSize : Byte) (s : State) : Out :=
  s.whenReady <|
    if commandOk command then
      match ValueSize.ofByte valueSize with
      | some size => startExchange command channelId order value size s
      | none => .refused .badValueSize
    else .refused .badCommand

/-- The wire and the pin after the request has left (R132): `TX`, `TXDRAIN`, `DIR(1)`; `mir` is scratch from here (R26,
R146; log 10). -/
def State.requestSent (s : State) : State :=
  { (s.log [.tx (s.mirBytes .frame 0 s.sentLen), .txDrain]).turnPin with mir := [] }

/-- The transmit step, `Sending -> AwaitingEcho`, or `-> Idle` for channel 0 (R132, R133). -/
def transmitStep (s : State) : Out :=
  s.inBuffer s.sentLen <| .next <|
    if s.lId = 0 then s.requestSent.restorePin.endExchange .ok none
    else { s.requestSent with eng := .awaitingEcho }

/-- Echo stage (R134). -/
def echoStage (s : State) : Out :=
  .next <|
    if s.busAnswer s.sentLen = [] then (s.readBus s.sentLen).restorePin.failExchange .timeout
    else { s.readBus s.sentLen with eng := .awaitingResponseHeader }

/-- The header received into `rxs[0..2)` (R135). -/
def State.headerRead (s : State) : State :=
  { s.readBus 2 with rxs := s.rxs.putBytes 0 (s.busAnswer 2) }

/-- Header stage (R135, R143). -/
def headerStage (s : State) : Out :=
  if s.busAnswer 2 = [] then .next ((s.readBus 2).restorePin.failExchange .timeout)
  else if s.bufCap < (s.headerRead.rxsByte .headerLen 1).toNat + 3 then
    .fault (.rxOverrun { s.headerRead.restorePin with eng := .idle })
  else .next { s.headerRead with eng := .awaitingResponseBody }

/-- Body stage (R136). -/
def bodyStage (s : State) : Out :=
  let n := (s.rxsByte .bodyLen 1).toNat + 1
  .next <|
    if s.busAnswer n = [] then (s.readBus n).restorePin.failExchange .timeout
    else { ({ s.readBus n with rxs := s.rxs.putBytes 2 (s.busAnswer n) } : State).restorePin with eng := .validating }

/-- The checked span `rxs[0 .. rl+3)` (R138). -/
def State.checkedSpan (s : State) : List Byte :=
  s.rxsBytes .validateCrc 0 ((s.rxsByte .validateLen 1).toNat + 3)

/-- The reply value (R138, R139). -/
def State.replyValue (s : State) : Word :=
  decodeReply (s.rxsByte .replyData 5) (s.rxsByte .replyData 6) s.lSize

/-- The state after the validate step (R138): the CRC first, then the order byte, then the value. -/
def State.validated (s : State) : State :=
  if crc8 s.cfg s.checkedSpan ≠ 0 then s.failExchange .crcError
  else if s.rxsByte .validateOrder 4 = s.cfg.orderUnsupported then s.failExchange .unsupported
  else s.endExchange .ok (some s.replyValue)

/-- Validate step, `Validating -> Idle` (R138). -/
def validateStep (s : State) : Out := .next s.validated

/-! The frames as instructions (log 19). -/

/-- A request frame: it is the pending request, all that `mir` holds (log 10), and the block transmits it (R73, R132, R133).
DESIGN CHOICE (log 19): of the command latches it sets the two the transmit step reads, `l_id` from the frame's channel byte
and `sent_len` from its length, and keeps `l_cmd`, `l_order`, `l_value` and `l_size`. So `sent_len = l_size + 6` (R28) need not
hold afterwards, and the reply is decoded by the `l_size` that stood there. In a run the frame is the one the start step built
(R131), and all of them agree with it. -/
def transmitRequest (channelId : Byte) (frame : List Byte) (s : State) : Out :=
  if s.eng = .sending then
    transmitStep { s with mir := Memory.ofBytes 0 frame, sentLen := frame.length, lId := channelId }
  else .refused .frameOutOfTurn

/-- REQ_SET_1 (R73). -/
def execReqSet1 (i o d c : Byte) (s : State) : Out := transmitRequest i (encode (.reqSet1 i o d c)) s

/-- REQ_SET_2 (R73). -/
def execReqSet2 (i o : Byte) (d : Word) (c : Byte) (s : State) : Out := transmitRequest i (encode (.reqSet2 i o d c)) s

/-- REQ_GET_1 (R73). -/
def execReqGet1 (i o d c : Byte) (s : State) : Out := transmitRequest i (encode (.reqGet1 i o d c)) s

/-- REQ_GET_2 (R73). -/
def execReqGet2 (i o : Byte) (d : Word) (c : Byte) (s : State) : Out := transmitRequest i (encode (.reqGet2 i o d c)) s

/-- REQ_STATUS_1 (R73). -/
def execReqStatus1 (i o d c : Byte) (s : State) : Out := transmitRequest i (encode (.reqStatus1 i o d c)) s

/-- REQ_STATUS_2 (R73). -/
def execReqStatus2 (i o : Byte) (d : Word) (c : Byte) (s : State) : Out :=
  transmitRequest i (encode (.reqStatus2 i o d c)) s

/-- REQ_MODEA_1 (R73). -/
def execReqModeA1 (i o d c : Byte) (s : State) : Out := transmitRequest i (encode (.reqModeA1 i o d c)) s

/-- REQ_MODEA_2 (R73). -/
def execReqModeA2 (i o : Byte) (d : Word) (c : Byte) (s : State) : Out :=
  transmitRequest i (encode (.reqModeA2 i o d c)) s

/-- RESP: this frame is the one received, so nothing else of `rxs` is specified (R144), and the block validates and decodes
it (R74, R138, R139).
DESIGN CHOICE (log 19): the frame is validated whatever its length, one with `len + 3 > BUF_CAP` too: the size check and its
fault RxOverrun are the header stage's (R135, R143), which is over when `eng = Validating`, and `rxs` holds every frame a length
byte can describe (R29). In a run no such frame gets past the header stage, where its length byte was received. -/
def execResp (cmd len : Byte) (payload : List Byte) (crc : Byte) (s : State) : Out :=
  if s.eng = .validating then
    validateStep { s with rxs := Memory.ofBytes 0 (encode (.resp cmd len payload crc)) }
  else .refused .frameOutOfTurn

end Sys2Proof.Machine
end

