-- ==== Sys2Proof/Machine/ChannelId.lean ====
section
/-! DEFINITION. SET_CHANNEL_ID and SET_CHANNEL_ID_SINGLE (rules R170 to R172). -/

namespace Sys2Proof.Machine

/-- The first exchange's start step, with the new id latched (R170). -/
def startFirstExchange (oldId newId : Byte) (s : State) : Out :=
  startExchange cmdSet oldId s.cfg.orderMode (zext16 s.cfg.modeIdset) .one { s with lNewid := newId, cidPhase := .first }

/-- The second exchange's start step (agent ENGINE), against the same `old_id` (R170). -/
def startSecondExchange (s : State) : Out :=
  startExchange cmdSet s.lId s.cfg.orderId (zext16 s.lNewid) .one s

/-- SET_CHANNEL_ID(old_id, new_id) (R170). -/
def execSetChannelId (oldId newId : Byte) (s : State) : Out := s.whenReady (startFirstExchange oldId newId s)

/-- SET_CHANNEL_ID_SINGLE(new_id) (R171): forbidden with a direction pin, else SET_CHANNEL_ID(0, new_id) (log 14). -/
def execSetChannelIdSingle (newId : Byte) (s : State) : Out :=
  s.whenReady <|
    if s.hasDirPin then .next (s.complete .restrictedTopology none)
    else startFirstExchange 0 newId s

end Sys2Proof.Machine
end

