-- ==== Sys2Proof/Machine/Emitter.lean ====
section
/-! DEFINITION. The Broadcast Emitter: EMIT and the broadcast frame it transmits (rules R120 to R124, R71). -/

namespace Sys2Proof.Machine

/-- EMIT's tests, in the source's order (R120): admitted, engine idle, then the two skips. -/
def State.emitGate (s : State) (k : Out) : Out :=
  if s.inited then
    if s.eng = .idle then
      if s.busy then .next s
      else if s.count = 0 then .next s
      else k
    else .fault .emitDuringCommand
  else .refused .notInitialised

/-- The snapshot: `mir[i] <- tpl[i]` for the `L` bytes of the frame, then `dirty <- 0` (R120); the bytes of `mir` above
the frame are `unspecified` (R51, R63). -/
def State.snapshot (length : Nat) (s : State) : State :=
  ({ s with mir := Memory.ofBytes 0 (s.tplBytes .snapshot 0 length) } : State).clearDirty

/-- `event TX( mir[0 .. mir[1] + 3) )` (R120, R123). -/
def State.transmitMirror (s : State) : Out :=
  let length := (s.mirByte .frameLen 1).toNat + 3
  s.inBuffer length (.next (s.log [.tx (s.mirBytes .frame 0 length)]))

/-- EMIT(), one atomic step (R120, R122). -/
def execEmit (s : State) : Out :=
  s.emitGate <|
    if s.dirty then
      let length := (s.tplByte .snapshotLen 1).toNat + 3
      s.inBuffer length (s.snapshot length).transmitMirror
    else s.transmitMirror

/-- BCAST: this frame, and nothing else (R63), stands in the mirror and EMIT transmits it, under EMIT's own tests (R71, R120;
log 19).
DESIGN CHOICE (log 19): it neither reads nor writes `dirty`. With `dirty = 1` the given frame goes out without the copy of the
template that EMIT would make, and `dirty` stays set; with `dirty = 0` the mirror it leaves may differ from `tpl` though `dirty`
calls it clean (R61). The checksum is sent as given. In a run the frame is the clean mirror's own, and nothing differs. -/
def execBcast (len typ : Byte) (entries : List Entry) (crc : Byte) (s : State) : Out :=
  let frame := encode (.bcast len typ entries crc)
  s.emitGate (s.inBuffer frame.length { s with mir := Memory.ofBytes 0 frame }.transmitMirror)

end Sys2Proof.Machine
end

