-- ==== Sys2Proof/Machine/Lifecycle.lean ====
section
/-! DEFINITION. INIT, SHUTDOWN (rules R180, R181) and the reset input (R220). -/

namespace Sys2Proof.Machine

/-- The live bytes of an empty template: header and checksum (R23, R180). -/
def initialTemplate (c : Config) : List Byte :=
  let header : List Byte := [0xA4, 2, 0x00, c.typeByte]
  header ++ [crc8 c header]

/-- A free value for a command latch (R10, R39; log 31). -/
def State.freeLatch (s : State) (k : Nat) : Byte := Config.freeByte s.draws .latch k

/-- The command latches become `unspecified` (R20, R39): `l_cmd` to `sent_len` (R28) and `l_newid` (R33), each a free value
of its own, within its range (log 31). -/
def State.forgetLatches (s : State) : State :=
  { s with
    lCmd := s.freeLatch 0, lId := s.freeLatch 1, lOrder := s.freeLatch 2
    lValue := ofHiLo (s.freeLatch 3) (s.freeLatch 4)
    lSize := .ofFree (s.freeLatch 5)
    sentLen := (ValueSize.ofFree (s.freeLatch 6)).bytes + 6
    lNewid := s.freeLatch 7 }

/-- The state INIT leaves (R180, R39): the command latches `unspecified` (log 31), the result latches those of an
operation that answered Ok, which R30 and R180's `return Ok` say and R39 leaves open (log 12). -/
def State.initialise (requestedMax : Byte) (hasDirPin : Bool) (s : State) : State :=
  { s.forgetLatches with
    maxServo := clampCapacity requestedMax.toNat
    hasDirPin := hasDirPin
    inited := true
    count := 0, dirty := false, busy := false, pend := none, eng := .idle, cidPhase := .none
    tpl := Memory.ofBytes 0 (initialTemplate s.cfg)
    mir := [], rxs := []
    dirOe := hasDirPin, dirLevel := false
    resCode := .ok, resValue := Config.freeWord s.draws, resValid := false
    wire := s.wire ++ .opened baud receiveTimeoutMs :: (if hasDirPin then [.dirOut, .dir false] else []) }

/-- INIT(requested_max, has_dir_pin) (R180). -/
def execInit (requestedMax : Byte) (hasDirPin : Bool) (s : State) : Out :=
  if s.inited then .refused .alreadyInitialised
  else s.whenFree (.next (s.initialise requestedMax hasDirPin))

/-- The state SHUTDOWN leaves (R181): pin released, channel closed, registry content lost (log 15). -/
def State.shutDown (s : State) : State :=
  { s with
    inited := false, dirOe := false
    count := 0, dirty := false, tpl := [], mir := [], rxs := []
    resCode := .ok, resValue := Config.freeWord s.draws, resValid := false
    wire := s.wire ++ (if s.hasDirPin then [.dirRelease, .closed] else [.closed]) }

/-- SHUTDOWN() (R181). -/
def execShutdown (s : State) : Out := s.whenReady (.next s.shutDown)

/-- Reset (R220): every register at its reset value, no event, the log empty; the parameters and the agents' inputs are
not the block's to reset (log 24). -/
def State.resetBlock (s : State) : State :=
  { State.reset with cfg := s.cfg, turns := s.turns, hostOps := s.hostOps, bus := s.bus, draws := s.draws }

end Sys2Proof.Machine
end

