-- ==== Sys2Proof/Machine/Registry.lean ====
section
/-! DEFINITION. The Channel Registry: ADD, REMOVE, SET and their commit step (rules R100 to R107). -/

namespace Sys2Proof.Machine

/-- The offset of entry `i` (R51). -/
def entryAt (i : Nat) : Nat := 4 + 4 * i

/-- The least `i` in `k .. k+n-1` with `tpl[4+4*i] = m` (R101). -/
def State.findFrom (s : State) (m : Byte) : Nat → Nat → Option Nat
  | _, 0 => none
  | k, n + 1 => if s.tplByte .lookup (entryAt k) = m then some k else s.findFrom m (k + 1) n

/-- `find(m)`: the least `i` with `0 <= i < count` and `tpl[4+4*i] = m` (R101). -/
def State.find (s : State) (m : Byte) : Option Nat := s.findFrom m 0 s.count

/-- `tpl[4+4*count] <- crc8(tpl, 4+4*count)` (R104, R105). -/
def State.sealChecksum (s : State) : State :=
  { s with tpl := s.tpl.put (entryAt s.count) (crc8 s.cfg (s.tplBytes .checksum 0 (entryAt s.count))) }

/-- `tpl[1] <- 2 + 4*count` (R105). -/
def State.sealLength (s : State) : State := { s with tpl := s.tpl.put 1 (lengthByte (2 + 4 * s.count)) }

/-- The bytes above the checksum slot are not live (R23, R63). -/
def State.dropDead (s : State) : State := { s with tpl := s.tpl.keepBelow (entryAt s.count + 1) }

/-- `seal()`: the length byte, then the checksum that covers it (R105). -/
def State.seal (s : State) : State := s.sealLength.sealChecksum.dropDead

/-- ADD(channel_id, initial_value), checks and begin step (R102). -/
def execAdd (channelId : Byte) (initialValue : Word) (s : State) : Out :=
  s.whenReady <|
    if s.maxServo ≤ s.count then .next (s.complete .capacityExceeded none)
    else match s.find (maskId channelId) with
      | some _ => .next (s.complete .duplicateChannel none)
      | none => .next (s.beginMutation (.add (maskId channelId) initialValue s.count))

/-- REMOVE(channel_id), checks and begin step (R103). -/
def execRemove (channelId : Byte) (s : State) : Out :=
  s.whenReady <|
    if s.count = 0 then .next (s.complete .emptyRegistry none)
    else match s.find (maskId channelId) with
      | none => .next (s.complete .channelNotFound none)
      | some k => .next (s.beginMutation (.remove (maskId channelId) k))

/-- SET(channel_id, value), check and begin step (R104). -/
def execSet (channelId : Byte) (value : Word) (s : State) : Out :=
  s.whenReady <|
    match s.find (maskId channelId) with
    | none => .next (s.complete .channelNotFound none)
    | some k => .next (s.beginMutation (.set (maskId channelId) value k))

/-- ADD's mutation: the new entry over the old checksum slot, `count + 1` (R102). -/
def State.appendEntry (id : Byte) (value : Word) (s : State) : State :=
  { s with
    tpl := s.tpl.putBytes (entryAt s.count) [id, s.cfg.rsvByte, hiByte value, loByte value]
    count := s.count + 1 }

/-- REMOVE's mutation: every entry above `k` moves down by one, `count - 1` (R103). The rule copies ascending, so no byte
is overwritten before it is copied: the move is that of the whole block. -/
def State.removeEntry (k : Nat) (s : State) : State :=
  { s with
    tpl := s.tpl.putBytes (entryAt k) (s.tplBytes .shift (entryAt (k + 1)) (4 * (s.count - 1 - k)))
    count := s.count - 1 }

/-- SET's mutation: the two position bytes of entry `k` (R104). -/
def State.setPosition (value : Word) (k : Nat) (s : State) : State :=
  { s with tpl := s.tpl.putBytes (entryAt k + 2) [hiByte value, loByte value] }

/-- The commit step (agent ENGINE) of an accepted mutation (R102 to R104, R106). -/
def commitMutation (p : Pending) (s : State) : Out :=
  match p with
  | .add id value _ =>
    s.inBuffer (entryAt (s.count + 1) + 1) (.next ((s.appendEntry id value).seal.finishMutation.complete .ok none))
  | .remove _ k =>
    s.inBuffer (entryAt s.count + 1) (.next ((s.removeEntry k).seal.finishMutation.complete .ok none))
  | .set _ value k =>
    s.inBuffer (max (entryAt k + 4) (entryAt s.count + 1))
      (.next ((s.setPosition value k).sealChecksum.finishMutation.complete .ok none))

end Sys2Proof.Machine
end

