-- ==== Sys2Proof/Machine/Dispatch.lean ====
section
/-! DEFINITION. One arm per instruction. -/

namespace Sys2Proof.Machine

def exec (i : Instr) (s : State) : Host.Outcome State Fault Refusal :=
  match i with
  | .init m p => Sys2Proof.Machine.execInit m p s
  | .add c v => Sys2Proof.Machine.execAdd c v s
  | .remove c => Sys2Proof.Machine.execRemove c s
  | .set c v => Sys2Proof.Machine.execSet c v s
  | .emit => Sys2Proof.Machine.execEmit s
  | .sendCommand k c o v z => Sys2Proof.Machine.execSendCommand k c o v z s
  | .setChannelId a b => Sys2Proof.Machine.execSetChannelId a b s
  | .setChannelIdSingle b => Sys2Proof.Machine.execSetChannelIdSingle b s
  | .shutdown => Sys2Proof.Machine.execShutdown s
  | .reqSet1 c o d k => Sys2Proof.Machine.execReqSet1 c o d k s
  | .reqSet2 c o d k => Sys2Proof.Machine.execReqSet2 c o d k s
  | .reqGet1 c o d k => Sys2Proof.Machine.execReqGet1 c o d k s
  | .reqGet2 c o d k => Sys2Proof.Machine.execReqGet2 c o d k s
  | .reqStatus1 c o d k => Sys2Proof.Machine.execReqStatus1 c o d k s
  | .reqStatus2 c o d k => Sys2Proof.Machine.execReqStatus2 c o d k s
  | .reqModeA1 c o d k => Sys2Proof.Machine.execReqModeA1 c o d k s
  | .reqModeA2 c o d k => Sys2Proof.Machine.execReqModeA2 c o d k s
  | .bcast l t e k => Sys2Proof.Machine.execBcast l t e k s
  | .resp m l p k => Sys2Proof.Machine.execResp m l p k s

end Sys2Proof.Machine
end

