-- ==== Sys2Proof/Machine/Sequencer.lean ====
section
/-! DEFINITION. Who moves at a step and what it does: the engine's steps, the choice of the turn, fetching HOST's next
operation, and placing a table word where it is fetched (rules R7, R58, R106, R142, R170; log 2, 19, 20). -/

namespace Sys2Proof.Machine

/-- ENGINE has a step (R106, R142, R170). -/
def State.engineReady (s : State) : Bool := s.busy || s.eng != .idle || s.cidPhase == .second

/-- ENGINE's step: the commit step while `busy = 1` (R106), else the stage `eng` names (R142), else the second exchange
of SET_CHANNEL_ID (R170), else nothing (log 23). -/
def engineStep (s : State) : Out :=
  if s.busy then
    match s.pend with
    | some p => commitMutation p s
    | none => .next s
  else match s.eng with
    | .sending => transmitStep s
    | .awaitingEcho => echoStage s
    | .awaitingResponseHeader => headerStage s
    | .awaitingResponseBody => bodyStage s
    | .validating => validateStep s
    | .idle => if s.cidPhase = .second then startSecondExchange s else .next s

/-- Who moves next: the schedule's head; with no schedule left, ENGINE while it has a step, else HOST, which waits for
each result (R7; log 2). -/
def State.mover (s : State) : Turn := s.turns.headD (if s.engineReady then .engine else .host)

/-- The turn is taken and the step has a number of its own (log 2, 7). -/
def State.turnTaken (s : State) : State := { s with turns := s.turns.tail, draws := s.draws + 1 }

/-- The refusal for a queued word that is no operation word (R197; log 4). -/
def Reject.refusal : Reject → Refusal
  | .badOperation => .badOperation
  | .reservedBits => .malformedWord
  | .unknownCommand => .malformedWord
  | .truncated => .malformedWord

/-- HOST's step: fetch, decode and run its next operation; with none, nothing (log 23). -/
def hostStep (s : State) : Out :=
  match s.hostOps with
  | [] => .next s
  | word :: rest =>
    match decode .host word with
    | .ok (i, _) => exec i { s with hostOps := rest }
    | .error e => .refused (Reject.refusal e)

/-- The step of the agent whose turn it is. -/
def turnStep (t : Turn) (s : State) : Out :=
  match t with
  | .host => hostStep s
  | .tick => exec .emit s
  | .engine => engineStep s
  | .reset => .next s.resetBlock

/-- The channel id of a request frame (R73, byte 3). -/
def requestChannel : Instr → Option Byte
  | .init _ _ => none
  | .add _ _ => none
  | .remove _ => none
  | .set _ _ => none
  | .emit => none
  | .sendCommand _ _ _ _ _ => none
  | .setChannelId _ _ => none
  | .setChannelIdSingle _ => none
  | .shutdown => none
  | .reqSet1 i _ _ _ => some i
  | .reqSet2 i _ _ _ => some i
  | .reqGet1 i _ _ _ => some i
  | .reqGet2 i _ _ _ => some i
  | .reqStatus1 i _ _ _ => some i
  | .reqStatus2 i _ _ _ => some i
  | .reqModeA1 i _ _ _ => some i
  | .reqModeA2 i _ _ _ => some i
  | .bcast _ _ _ _ => none
  | .resp _ _ _ _ => none

/-- A host operation word stands at the head of HOST's queue, and HOST moves next. -/
def State.placeHostWord (word : List Byte) (s : State) : State :=
  { s with turns := .host :: s.turns, hostOps := word :: s.hostOps }

/-- A request frame stands in the mirror as the pending request (R131), and ENGINE moves next. -/
def State.placeRequest (channelId : Byte) (frame : List Byte) (s : State) : State :=
  { s with turns := .engine :: s.turns, busy := false, pend := none, eng := .sending,
           mir := Memory.ofBytes 0 frame, sentLen := frame.length, lId := channelId }

/-- A broadcast frame stands in the mirror as the last snapshot (R120), and TICK moves next. -/
def State.placeBroadcast (frame : List Byte) (s : State) : State :=
  { s with turns := .tick :: s.turns, mir := Memory.ofBytes 0 frame, dirty := false }

/-- A response frame stands in the scratch, received whole (R136), and ENGINE moves next. -/
def State.placeResponse (frame : List Byte) (s : State) : State :=
  { s with turns := .engine :: s.turns, busy := false, pend := none, eng := .validating,
           rxs := Memory.ofBytes 0 frame }

/-- An instruction's bytes stand where the next step fetches it from. -/
def State.placeInstr (i : Instr) (s : State) : State :=
  match i.port with
  | .host => s.placeHostWord (encode i)
  | .receive => s.placeResponse (encode i)
  | .transmit =>
    match requestChannel i with
    | some c => s.placeRequest c (encode i)
    | none => s.placeBroadcast (encode i)

/-- A table word stands where the next step fetches it from; bits that are no instruction go to HOST's queue as they are
if they are a host word, and as an empty word otherwise: `step` refuses both. -/
def State.placeTableWord (nbits w : Nat) (s : State) : State :=
  match decodeTableWord nbits w with
  | some i => s.placeInstr i
  | none => s.placeHostWord (if tablePort nbits w = .host then tableBytes nbits w else [])

end Sys2Proof.Machine
end

