-- ==== Sys2Proof/Machine/Step.lean ====
section
/-! DEFINITION. One atomic step of the block (rules R7, R58). -/

namespace Sys2Proof.Machine

/-- The agent whose turn it is takes it. -/
def step (s : State) : Host.Outcome State Fault Refusal := turnStep s.mover s.turnTaken

/-- `s` with a table word stored where `step` fetches its next instruction (log 20). -/
def State.withFetchWord (s : State) (nbits w : Nat) : State := s.placeTableWord nbits w

end Sys2Proof.Machine
end

