-- ==== Sys2Proof/Safety.lean ====
section
/-! DEFINITION. What holds of every state the block reaches: rule R36's invariants of the template, and the relations
between the registers that rules R25 to R33 state. -/

namespace Sys2Proof.Machine

/-- R36 (I-a) to (I-d), R23 and R51: the template is a well-formed broadcast frame, and exactly its live bytes are
specified. -/
structure State.TemplateInv (s : State) : Prop where
  support     : s.tpl.map Prod.fst = List.range (entryAt s.count + 1)
  command     : s.tpl.cell? 0 = some 0xA4
  length      : s.tpl.cell? 1 = some (lengthByte (2 + 4 * s.count))
  key         : s.tpl.cell? 2 = some 0x00
  type        : s.tpl.cell? 3 = some s.cfg.typeByte
  checksum    : s.tpl.cell? (entryAt s.count) =
                  some (crc8 s.cfg ((s.tpl.take (entryAt s.count)).map Prod.snd))
  idRange     : ∀ i < s.count, ∀ b ∈ s.tpl.cell? (entryAt i), b.toNat ≤ 0x3F
  idsDistinct : ∀ i < s.count, ∀ j < s.count, s.tpl.cell? (entryAt i) = s.tpl.cell? (entryAt j) → i = j
  reserved    : ∀ i < s.count, s.tpl.cell? (entryAt i + 1) = some s.cfg.rsvByte

/-- An accepted mutation is one its checks admitted (R32, R102 to R104). -/
def Pending.accepted (s : State) : Pending → Bool
  | .add m _ k =>
    decide (m.toNat ≤ 0x3F) && decide (k = s.count) && decide (s.count < s.maxServo) &&
      decide (∀ i < s.count, s.tpl.cell? (entryAt i) ≠ some m)
  | .remove m k => decide (k < s.count) && decide (s.tpl.cell? (entryAt k) = some m)
  | .set m _ k => decide (k < s.count) && decide (s.tpl.cell? (entryAt k) = some m)

/-- The stages in which the pin is in receive mode (R31). -/
def Eng.receiving : Eng → Bool
  | .idle => false
  | .sending => false
  | .awaitingEcho => true
  | .awaitingResponseHeader => true
  | .awaitingResponseBody => true
  | .validating => false

/-- The invariant of the block. -/
structure State.Inv (s : State) : Prop where
  tplWf       : s.tpl.wf
  mirWf       : s.mir.wf
  rxsWf       : s.rxs.wf
  mirBound    : s.inited = true → ∀ c ∈ s.mir, c.1 < s.bufCap
  rxsBound    : ∀ c ∈ s.rxs, c.1 < 258
  /-- R36 (I-e). -/
  capacity    : s.inited = true → 1 ≤ s.maxServo ∧ s.maxServo ≤ 50 ∧ s.count ≤ s.maxServo
  /-- R36 (I-a) to (I-d); the begin step leaves the template alone, so they hold inside the window as well. -/
  template    : s.inited = true → s.TemplateInv
  /-- R32, R36 (I-f). -/
  pendIff     : s.busy = s.pend.isSome
  pendOk      : ∀ p ∈ s.pend, p.accepted s = true
  /-- R106: HOST is blocked on the mutation and the engine is idle. -/
  window      : s.busy = true → s.inited = true ∧ s.eng = .idle ∧ s.cidPhase = .none
  quiet       : s.inited = false → s.eng = .idle ∧ s.cidPhase = .none
  /-- R31. -/
  pinLevel    : s.dirLevel = (s.hasDirPin && s.eng.receiving)
  pinOutput   : s.dirOe = (s.inited && s.hasDirPin)
  /-- R61, R63, R120: a clean mirror holds the template's frame and nothing else. -/
  mirror      : s.inited = true → s.dirty = false → s.count ≠ 0 → s.mir = s.tpl
  /-- R28, R62, R131: an exchange in progress has valid operands, its own length, and `dirty` set. -/
  exchange    : s.eng ≠ .idle → s.dirty = true ∧ commandOk s.lCmd = true ∧ s.sentLen = s.lSize.bytes + 6
  /-- R131: between the start step and the transmit step the mirror holds the request. -/
  request     : s.eng = .sending →
                  s.mir = Memory.ofBytes 0 (requestBytes s.cfg s.lCmd s.lId s.lOrder s.lValue s.lSize)
  /-- R33, R170. -/
  firstPhase  : s.cidPhase = .first → s.eng ≠ .idle
  phase       : s.cidPhase ≠ .none → s.lCmd = cmdSet ∧ s.lSize = .one
  /-- R30. -/
  resultValid : s.resValid = true → s.resCode = .ok

end Sys2Proof.Machine
end

