-- ==== Sys2Proof/Certificates/Slice0/Obligations.lean ====
section
/-! DEFINITION. The statements for the provers. "D<n>" is a decision of spec/92_eei_decisions.md (the spec's own choice,
not the source's); "log <n>" is notes/assumptions/<n>.md (the model's). Where a statement has a value `w` after
"there is", the spec calls that value `unspecified` and the statement holds whatever it is. -/

open Sys2Proof Sys2Proof.Machine

/-! Reset and lifecycle. -/

/-- The registers 10_state.md section 8 gives a value at reset (D8) have it in `State.reset`. -/
def Obligations.ResetStateHasSpecifiedValues : Prop :=
  State.reset.inited = false ∧ State.reset.eng = .idle ∧ State.reset.busy = false ∧ State.reset.dirty = false ∧
  State.reset.count = 0 ∧ State.reset.pend = none ∧ State.reset.cidPhase = .none ∧ State.reset.dirOe = false ∧
  State.reset.wire = [] ∧ State.reset.tpl = [] ∧ State.reset.mir = [] ∧ State.reset.rxs = []

/-- The reset state meets the block's invariant (the values of log 8 included). -/
def Obligations.ResetStateMeetsInvariant : Prop := State.reset.Inv

/-- A reset, whatever is in progress, leaves `State.reset`'s registers and emits no event (70_reset_and_hazards.md section 1,
D8). `inited`, `eng`, `busy`, `dirty`, `count`, `pend`, `cid_phase`, `dir_oe` and the log have the values the spec gives; the
capacity, the pin flag, the command and result latches, `l_newid` and `dir_level`, which it leaves `unspecified`, have those
the model chose (log 8); that the parameters and the agents' inputs stay is log 24. -/
def Obligations.ResetTurnAbandonsEverything : Prop :=
  ∀ (s : State) (rest : List Turn), s.turns = .reset :: rest →
    step s = .next { State.reset with
      cfg := s.cfg, turns := rest, hostOps := s.hostOps, bus := s.bus, draws := s.draws + 1 }

/-- INIT (46_lifecycle.md section INIT; initial template and pin level are D8, that it cannot fail is D22; the result latches are
log 12, the pin level without a pin is log 16): the clamp, the empty template with its checksum, the events, the pin; the
command latches are `unspecified` (10_state.md section 8; log 31), each within its range; nothing else changes. -/
def Obligations.InitCompletes : Prop :=
  ∀ (m : Byte) (p : Bool) (s : State),
    s.inited = false → s.eng = .idle → s.busy = false → s.cidPhase = .none →
    ∃ (w v : Word) (c i o n : Byte) (z : ValueSize) (l : Nat), (l = 7 ∨ l = 8) ∧ exec (.init m p) s = .next { s with
      lCmd := c, lId := i, lOrder := o, lValue := v, lSize := z, sentLen := l, lNewid := n
      maxServo := if m.toNat < 1 then 1 else if 50 < m.toNat then 50 else m.toNat
      hasDirPin := p, inited := true, count := 0, dirty := false, busy := false, pend := none
      eng := .idle, cidPhase := .none
      tpl := [(0, 0xA4), (1, 2), (2, 0), (3, s.cfg.typeByte), (4, crc8 s.cfg [0xA4, 2, 0, s.cfg.typeByte])]
      mir := [], rxs := [], dirOe := p, dirLevel := false
      resCode := .ok, resValid := false, resValue := w
      wire := s.wire ++ (if p then [.opened 250000 300, .dirOut, .dir false] else [.opened 250000 300]) }

/-- SHUTDOWN (46_lifecycle.md, D25): the pin released, the channel closed, `inited` cleared, the registry content lost
(which fields that clears is log 15; that the result latches then hold Ok without a value is log 12); nothing else
changes. -/
def Obligations.ShutdownCompletes : Prop :=
  ∀ s : State, s.inited = true → s.eng = .idle → s.busy = false → s.cidPhase = .none →
    ∃ w, exec .shutdown s = .next { s with
      inited := false, dirOe := false, count := 0, dirty := false, tpl := [], mir := [], rxs := []
      resCode := .ok, resValid := false, resValue := w
      wire := s.wire ++ (if s.hasDirPin then [.dirRelease, .closed] else [.closed]) }

/-- Every operation but INIT, before INIT (and after SHUTDOWN), is refused; INIT after INIT is refused
(60_exceptions.md section 6, D29). That these refusals come first, AlreadyInitialised before HostOpWhileEngineBusy and
NotInitialised before SET_CHANNEL_ID_SINGLE's RestrictedTopology, is log 14. -/
def Obligations.OperationsOutsideTheirLifetimeAreRefused : Prop :=
  (∀ (i : Instr) (s : State), i.port = .host → (∀ m p, i ≠ .init m p) → s.inited = false →
    exec i s = .refused .notInitialised) ∧
  (∀ (m : Byte) (p : Bool) (s : State), s.inited = true → exec (.init m p) s = .refused .alreadyInitialised)

/-- A host operation issued while another is in progress is the fault HostOpWhileEngineBusy (60_exceptions.md section 6,
70_reset_and_hazards.md hazard H2, D19; that the instant between SET_CHANNEL_ID's two exchanges counts is log 13; that for
SET_CHANNEL_ID_SINGLE with a pin this comes before RestrictedTopology is log 14). -/
def Obligations.OverlappingHostOperationFaults : Prop :=
  ∀ (i : Instr) (s : State), i.port = .host → i ≠ .emit → (∀ m p, i ≠ .init m p) → s.inited = true →
    (s.eng ≠ .idle ∨ s.busy = true ∨ s.cidPhase ≠ .none) →
    exec i s = .fault .hostOpWhileEngineBusy

/-- EMIT (and the broadcast frame it would send; what that row does as an instruction is log 19) while an exchange is in
progress is the fault EmitDuringCommand (42_emitter.md, 70_reset_and_hazards.md hazard H1, D19). -/
def Obligations.BroadcastDuringExchangeFaults : Prop :=
  ∀ (s : State) (len typ crc : Byte) (es : List Entry), s.inited = true → s.eng ≠ .idle →
    exec .emit s = .fault .emitDuringCommand ∧ exec (.bcast len typ es crc) s = .fault .emitDuringCommand

/-! The registry. -/

/-- `find` (R101): the least index below `count` whose id byte is `m`, or none; it depends on `tpl` and `count` alone
(and on the free values of unspecified bytes); in a template that meets the invariants there is at most one. -/
def Obligations.LookupFindsTheLeastIndex : Prop :=
  (∀ (s : State) (m : Byte) (k : Nat), s.find m = some k ↔
    k < s.count ∧ s.tplByte .lookup (4 + 4 * k) = m ∧ ∀ j < k, s.tplByte .lookup (4 + 4 * j) ≠ m) ∧
  (∀ (s : State) (m : Byte), s.find m = none ↔ ∀ j < s.count, s.tplByte .lookup (4 + 4 * j) ≠ m) ∧
  (∀ (s t : State) (m : Byte), s.tpl = t.tpl → s.count = t.count → s.draws = t.draws → s.find m = t.find m) ∧
  (∀ (s : State) (m : Byte) (j k : Nat), s.TemplateInv → j < s.count → k < s.count →
    s.tplByte .lookup (4 + 4 * j) = m → s.tplByte .lookup (4 + 4 * k) = m → j = k)

/-- `seal()` (R105): the length byte is `2 + 4*count`, and the checksum slot holds the CRC-8 of the bytes before it, the
new length byte among them; no other live byte changes. -/
def Obligations.SealRecomputesLengthAndChecksum : Prop :=
  ∀ s : State, (∀ a < 4 + 4 * s.count, a ≠ 1 → (s.tpl.cell? a).isSome) →
    ∃ f : List Byte, f.length = 4 + 4 * s.count ∧
      (∀ a < 4 + 4 * s.count, s.seal.tpl.cell? a = f[a]?) ∧
      s.seal.tpl.cell? 1 = some (BitVec.ofNat 8 (2 + 4 * s.count)) ∧
      s.seal.tpl.cell? (4 + 4 * s.count) = some (crc8 s.cfg f) ∧
      (∀ a < 4 + 4 * s.count, a ≠ 1 → s.seal.tpl.cell? a = s.tpl.cell? a) ∧
      s.seal.count = s.count

/-- ADD that succeeds (41_registry.md section 2; the two steps are D11): the begin step takes the busy window and changes
nothing else; the commit step appends the entry over the old checksum slot, reseals, sets `dirty`, closes the window and
answers Ok; every other byte and register is unchanged. -/
def Obligations.AddAppendsTheEntry : Prop :=
  ∀ (c : Byte) (v : Word) (s : State) (rest : List Turn), s.Inv → s.inited = true → s.eng = .idle → s.busy = false →
    s.cidPhase = .none → s.count < s.maxServo → (∀ i < s.count, s.tpl.cell? (4 + 4 * i) ≠ some (c &&& 0x3F)) →
    exec (.add c v) s = .next { s with busy := true, pend := some (.add (c &&& 0x3F) v s.count) } ∧
    ∃ (w : Word) (tp : Memory) (f : List Byte),
      step { s with busy := true, pend := some (.add (c &&& 0x3F) v s.count), turns := .engine :: rest } =
        .next { s with turns := rest, draws := s.draws + 1, tpl := tp, count := s.count + 1, dirty := true
                       busy := false, pend := none, resCode := .ok, resValid := false, resValue := w } ∧
      f.length = 4 + 4 * (s.count + 1) ∧ (∀ a < f.length, tp.cell? a = f[a]?) ∧
      ∀ a, tp.cell? a =
        if a = 1 then some (BitVec.ofNat 8 (2 + 4 * (s.count + 1)))
        else if a < 4 + 4 * s.count then s.tpl.cell? a
        else if a = 4 + 4 * s.count then some (c &&& 0x3F)
        else if a = 5 + 4 * s.count then some s.cfg.rsvByte
        else if a = 6 + 4 * s.count then some (v.extractLsb' 8 8)
        else if a = 7 + 4 * s.count then some (v.extractLsb' 0 8)
        else if a = 4 + 4 * (s.count + 1) then some (crc8 s.cfg f)
        else none

/-- REMOVE that succeeds (41_registry.md section 3, D11): begin step, then every later entry moves down by one slot, the
frame is resealed, `dirty` is set; every other byte and register is unchanged. -/
def Obligations.RemoveClosesTheGap : Prop :=
  ∀ (c : Byte) (k : Nat) (s : State) (rest : List Turn), s.Inv → s.inited = true → s.eng = .idle → s.busy = false →
    s.cidPhase = .none → k < s.count → s.tpl.cell? (4 + 4 * k) = some (c &&& 0x3F) →
    exec (.remove c) s = .next { s with busy := true, pend := some (.remove (c &&& 0x3F) k) } ∧
    ∃ (w : Word) (tp : Memory) (f : List Byte),
      step { s with busy := true, pend := some (.remove (c &&& 0x3F) k), turns := .engine :: rest } =
        .next { s with turns := rest, draws := s.draws + 1, tpl := tp, count := s.count - 1, dirty := true
                       busy := false, pend := none, resCode := .ok, resValid := false, resValue := w } ∧
      f.length = 4 + 4 * (s.count - 1) ∧ (∀ a < f.length, tp.cell? a = f[a]?) ∧
      ∀ a, tp.cell? a =
        if a = 1 then some (BitVec.ofNat 8 (2 + 4 * (s.count - 1)))
        else if a < 4 + 4 * k then s.tpl.cell? a
        else if a < 4 + 4 * (s.count - 1) then s.tpl.cell? (a + 4)
        else if a = 4 + 4 * (s.count - 1) then some (crc8 s.cfg f)
        else none

/-- SET that succeeds (41_registry.md section 4, D11): begin step, then the two position bytes and the checksum change in
one step and `dirty` is set, even if the value is the old one; every other byte and register is unchanged. -/
def Obligations.SetReplacesThePosition : Prop :=
  ∀ (c : Byte) (v : Word) (k : Nat) (s : State) (rest : List Turn), s.Inv → s.inited = true → s.eng = .idle →
    s.busy = false → s.cidPhase = .none → k < s.count → s.tpl.cell? (4 + 4 * k) = some (c &&& 0x3F) →
    exec (.set c v) s = .next { s with busy := true, pend := some (.set (c &&& 0x3F) v k) } ∧
    ∃ (w : Word) (tp : Memory) (f : List Byte),
      step { s with busy := true, pend := some (.set (c &&& 0x3F) v k), turns := .engine :: rest } =
        .next { s with turns := rest, draws := s.draws + 1, tpl := tp, dirty := true
                       busy := false, pend := none, resCode := .ok, resValid := false, resValue := w } ∧
      f.length = 4 + 4 * s.count ∧ (∀ a < f.length, tp.cell? a = f[a]?) ∧
      ∀ a, tp.cell? a =
        if a = 6 + 4 * k then some (v.extractLsb' 8 8)
        else if a = 7 + 4 * k then some (v.extractLsb' 0 8)
        else if a = 4 + 4 * s.count then some (crc8 s.cfg f)
        else s.tpl.cell? a

/-- Mutators that fail (41_registry.md sections 2 to 4). ADD: CapacityExceeded when the registry is full, whatever the id
(D9), else DuplicateChannel when the masked id is registered. REMOVE: EmptyRegistry on an empty registry, whatever the id,
else ChannelNotFound if the masked id is not registered. SET: ChannelNotFound in both cases. Nothing but the result latches
changes (D10). -/
def Obligations.FailingMutatorsChangeNothing : Prop :=
  ∀ (c : Byte) (v : Word) (s : State), s.inited = true → s.eng = .idle → s.busy = false → s.cidPhase = .none →
    (s.maxServo ≤ s.count →
      ∃ w, exec (.add c v) s = .next { s with resCode := .capacityExceeded, resValid := false, resValue := w }) ∧
    (∀ k < s.count, s.count < s.maxServo → s.tpl.cell? (4 + 4 * k) = some (c &&& 0x3F) →
      ∃ w, exec (.add c v) s = .next { s with resCode := .duplicateChannel, resValid := false, resValue := w }) ∧
    (s.count = 0 →
      (∃ w, exec (.remove c) s = .next { s with resCode := .emptyRegistry, resValid := false, resValue := w }) ∧
      (∃ w, exec (.set c v) s = .next { s with resCode := .channelNotFound, resValid := false, resValue := w })) ∧
    (s.count ≠ 0 → (∀ i < s.count, ∃ b, s.tpl.cell? (4 + 4 * i) = some b ∧ b ≠ c &&& 0x3F) →
      (∃ w, exec (.remove c) s = .next { s with resCode := .channelNotFound, resValid := false, resValue := w }) ∧
      (∃ w, exec (.set c v) s = .next { s with resCode := .channelNotFound, resValid := false, resValue := w }))

/-- "`add` followed immediately by `remove` of the same ID restores the entry count and the bytes of all *other* entries"
(41_registry.md (P5)); since the added entry is last, the whole live template is restored. HOST waits for each result
(log 2), so the four steps are begin, commit, begin, commit. -/
def Obligations.AddThenRemoveRestoresTheTemplate : Prop :=
  ∀ (c : Byte) (v : Word) (s : State) (rest : List (List Byte)), s.Inv → s.inited = true → s.eng = .idle →
    s.busy = false → s.cidPhase = .none → s.turns = [] → s.count < s.maxServo →
    (∀ i < s.count, s.tpl.cell? (4 + 4 * i) ≠ some (c &&& 0x3F)) →
    s.hostOps = encode (.add c v) :: encode (.remove c) :: rest →
    ∃ w, Sys2Proof.core.run 4 s = .next { s with
      hostOps := rest, draws := s.draws + 4, dirty := true, resCode := .ok, resValid := false, resValue := w }

/-- Registry operations emit no event and touch neither the mirror, the scratch, the engine, the latches nor the pin
(41_registry.md (P7), 20_memory.md section 4): neither the operation's own step nor its commit step. -/
def Obligations.RegistryKeepsOffTheWire : Prop :=
  ∀ (s t : State) (c : Byte) (v : Word),
    (exec (.add c v) s = .next t ∨ exec (.remove c) s = .next t ∨ exec (.set c v) s = .next t ∨
      (s.busy = true ∧ engineStep s = .next t)) →
    t.wire = s.wire ∧ t.mir = s.mir ∧ t.rxs = s.rxs ∧ t.eng = s.eng ∧ t.dirLevel = s.dirLevel ∧ t.dirOe = s.dirOe ∧
    t.cfg = s.cfg ∧ t.turns = s.turns ∧ t.hostOps = s.hostOps ∧ t.bus = s.bus ∧ t.draws = s.draws ∧
    t.maxServo = s.maxServo ∧ t.hasDirPin = s.hasDirPin ∧ t.inited = s.inited ∧ t.cidPhase = s.cidPhase ∧
    t.lNewid = s.lNewid ∧ t.lCmd = s.lCmd ∧ t.lId = s.lId ∧ t.lOrder = s.lOrder ∧ t.lValue = s.lValue ∧
    t.lSize = s.lSize ∧ t.sentLen = s.sentLen

/-- "The engine and the emitter never write `tpl`" (R56): a tick, and an engine step outside the busy window, leave the
template and `count` alone; so does a host step, unless the operation is INIT or SHUTDOWN. -/
def Obligations.OnlyTheRegistryWritesTheTemplate : Prop :=
  ∀ s t : State, step s = .next t →
    (s.mover = .tick → t.tpl = s.tpl ∧ t.count = s.count) ∧
    (s.mover = .engine → s.busy = false → t.tpl = s.tpl ∧ t.count = s.count) ∧
    (s.mover = .host → ∀ word rest i junk, s.hostOps = word :: rest → decode .host word = .ok (i, junk) →
      (∀ m p, i ≠ .init m p) → i ≠ .shutdown → t.tpl = s.tpl ∧ t.count = s.count)

/-! The emitter. -/

/-- EMIT with `dirty` set (42_emitter.md): the frame of `tpl[1] + 3` bytes is copied into the mirror, whose bytes above it are
`unspecified` (20_memory.md section 1), `dirty` is cleared, and exactly those bytes are handed over; nothing else changes. -/
def Obligations.EmitSnapshotsAndTransmits : Prop :=
  ∀ (s : State) (f : List Byte) (l : Byte), s.inited = true → s.eng = .idle → s.busy = false → s.count ≠ 0 →
    s.dirty = true → s.tpl.cell? 1 = some l → f.length = l.toNat + 3 → (∀ a < f.length, s.tpl.cell? a = f[a]?) →
    f.length ≤ 4 * s.maxServo + 5 →
    ∃ mr : Memory, exec .emit s = .next { s with mir := mr, dirty := false, wire := s.wire ++ [.tx f] } ∧
      ∀ a, mr.cell? a = f[a]?

/-- EMIT with `dirty` clear (42_emitter.md): the mirror's frame is handed over as it stands, its length taken from the
mirror's byte 1 (D27); nothing else changes. -/
def Obligations.EmitRepeatsTheMirror : Prop :=
  ∀ (s : State) (f : List Byte) (l : Byte), s.inited = true → s.eng = .idle → s.busy = false → s.count ≠ 0 →
    s.dirty = false → s.mir.cell? 1 = some l → f.length = l.toNat + 3 → (∀ a < f.length, s.mir.cell? a = f[a]?) →
    f.length ≤ 4 * s.maxServo + 5 →
    exec .emit s = .next { s with wire := s.wire ++ [.tx f] }

/-- EMIT inside a busy window or on an empty registry does nothing at all (42_emitter.md; hazard H3). -/
def Obligations.EmitSkipsWhenBusyOrEmpty : Prop :=
  ∀ s : State, s.inited = true → s.eng = .idle → (s.busy = true ∨ s.count = 0) → exec .emit s = .next s

/-- "EMIT emits exactly zero or one event, and that event is a `TX`" and never touches the pin, which is in transmit mode
in every state that meets the invariant (R121): EMIT changes the mirror, `dirty` and the log, and nothing else; it never
sets `dirty`. -/
def Obligations.EmitEmitsAtMostOneTx : Prop :=
  ∀ s t : State, exec .emit s = .next t →
    (t.wire = s.wire ∨ ∃ bytes, t.wire = s.wire ++ [.tx bytes]) ∧
    t.dirLevel = s.dirLevel ∧ (s.Inv → t.dirLevel = false) ∧
    (t.dirty = true → s.dirty = true) ∧
    t = { s with mir := t.mir, dirty := t.dirty, wire := t.wire }

/-- Every broadcast is the registry's, as a well-formed frame (42_emitter.md section on the transmitted frame, 20_memory.md
section 9: "transmits exactly `tpl[0 .. tpl[1]+3)`"): in a state that meets the invariant, with a table that satisfies (T1),
what EMIT hands over is, byte for byte, the live template, and a BCAST frame of `count` entries, with the configured type and
reserved bytes, pairwise different ids, and zero CRC residue. -/
def Obligations.BroadcastsAreWellFormedFrames : Prop :=
  ∀ s t : State, s.Inv → s.cfg.TableZero → exec .emit s = .next t → t.wire ≠ s.wire →
    ∃ (es : List Entry) (crc : Byte),
      t.wire = s.wire ++ [.tx (encode (.bcast (BitVec.ofNat 8 (2 + 4 * s.count)) s.cfg.typeByte es crc))] ∧
      (∀ a, (encode (.bcast (BitVec.ofNat 8 (2 + 4 * s.count)) s.cfg.typeByte es crc))[a]? = s.tpl.cell? a) ∧
      (Instr.bcast (BitVec.ofNat 8 (2 + 4 * s.count)) s.cfg.typeByte es crc).wellFormed = true ∧
      es.length = s.count ∧ (es.map Entry.id).Nodup ∧ (∀ e ∈ es, e.rsv = s.cfg.rsvByte) ∧
      crc8 s.cfg (encode (.bcast (BitVec.ofNat 8 (2 + 4 * s.count)) s.cfg.typeByte es crc)) = 0

/-- BCAST (30_encoding.md section 1, 42_emitter.md; what the row does as an instruction, and that it leaves `dirty` alone
whatever its value, is log 19): under EMIT's tests, the
frame, and nothing else (20_memory.md section 9), stands in the mirror and is handed over; nothing else changes. -/
def Obligations.BroadcastFrameIsTransmitted : Prop :=
  ∀ (len typ crc : Byte) (es : List Entry) (s : State), (Instr.bcast len typ es crc).wellFormed = true →
    s.inited = true → s.eng = .idle → s.busy = false → s.count ≠ 0 →
    (encode (.bcast len typ es crc)).length ≤ 4 * s.maxServo + 5 →
    ∃ mr : Memory, exec (.bcast len typ es crc) s =
        .next { s with mir := mr, wire := s.wire ++ [.tx (encode (.bcast len typ es crc))] } ∧
      ∀ a, mr.cell? a = (encode (.bcast len typ es crc))[a]?

/-! The command engine. -/

/-- SEND_COMMAND's start step (43_command_engine.md section 2): operands latched, the request of `value_size + 6` bytes
built in the mirror (the rest of it scratch, log 10), `dirty` set, the receiver flushed, the scratch forgotten; the
template and every other register unchanged. -/
def Obligations.SendCommandStartsTheExchange : Prop :=
  ∀ (cmd id order : Byte) (v : Word) (n : Byte) (s : State), s.inited = true → s.eng = .idle → s.busy = false →
    s.cidPhase = .none → 1 ≤ s.maxServo → cmd ∈ [(0x20 : Byte), 0x21, 0x22, 0xA4] →
    (n = 1 → exec (.sendCommand cmd id order v n) s = .next { s with
      lCmd := cmd, lId := id, lOrder := order, lValue := v, lSize := .one, sentLen := 7
      mir := [(0, cmd), (1, 4), (2, 0), (3, id), (4, order), (5, v.extractLsb' 0 8),
              (6, crc8 s.cfg [cmd, 4, 0, id, order, v.extractLsb' 0 8])]
      rxs := [], dirty := true, wire := s.wire ++ [.rxFlush], eng := .sending }) ∧
    (n = 2 → exec (.sendCommand cmd id order v n) s = .next { s with
      lCmd := cmd, lId := id, lOrder := order, lValue := v, lSize := .two, sentLen := 8
      mir := [(0, cmd), (1, 5), (2, 0), (3, id), (4, order), (5, v.extractLsb' 8 8), (6, v.extractLsb' 0 8),
              (7, crc8 s.cfg [cmd, 5, 0, id, order, v.extractLsb' 8 8, v.extractLsb' 0 8])]
      rxs := [], dirty := true, wire := s.wire ++ [.rxFlush], eng := .sending })

/-- SEND_COMMAND's refusals (30_encoding.md section 4, 60_exceptions.md section 6, D13): a command outside the four, then a
value size outside 1 and 2. -/
def Obligations.SendCommandRefusesOtherOperands : Prop :=
  ∀ (cmd id order : Byte) (v : Word) (n : Byte) (s : State), s.inited = true → s.eng = .idle → s.busy = false →
    s.cidPhase = .none →
    (cmd ∉ [(0x20 : Byte), 0x21, 0x22, 0xA4] → exec (.sendCommand cmd id order v n) s = .refused .badCommand) ∧
    (cmd ∈ [(0x20 : Byte), 0x21, 0x22, 0xA4] → n ≠ 1 → n ≠ 2 →
      exec (.sendCommand cmd id order v n) s = .refused .badValueSize)

/-- The request the start step builds is a request frame of its operands, with zero CRC residue under (T1)
(43_command_engine.md (Q6)). -/
def Obligations.RequestBuiltIsARequestFrame : Prop :=
  ∀ (c : Config) (cmd id order : Byte) (v : Word) (size : ValueSize), cmd ∈ [(0x20 : Byte), 0x21, 0x22, 0xA4] →
    (∃ i, decode .transmit (requestBytes c cmd id order v size) = .ok (i, []) ∧ requestChannel i = some id) ∧
    (c.TableZero → crc8 c (requestBytes c cmd id order v size) = 0)

/-- A request frame of a channel that replies (43_command_engine.md section 2, transmit step; what the row does as an
instruction, and that of the command latches it sets `l_id` and `sent_len` alone, is log 19): `TX`, `TXDRAIN`, then receive mode if there is a pin, and the engine awaits the echo; nothing else
changes but the mirror, which is scratch (log 10). -/
def Obligations.RequestFrameAwaitsItsEcho : Prop :=
  ∀ (c o d k : Byte) (v : Word) (s : State), s.eng = .sending → 1 ≤ s.maxServo → c ≠ 0 →
    ∀ i ∈ [Instr.reqSet1 c o d k, .reqSet2 c o v k, .reqGet1 c o d k, .reqGet2 c o v k, .reqStatus1 c o d k,
           .reqStatus2 c o v k, .reqModeA1 c o d k, .reqModeA2 c o v k],
      exec i s = .next { s with
        lId := c, sentLen := (encode i).length, mir := [], eng := .awaitingEcho
        dirLevel := if s.hasDirPin then true else s.dirLevel
        wire := s.wire ++ [.tx (encode i), .txDrain] ++ (if s.hasDirPin then [.dir true] else []) }

/-- A request frame of channel 0 (43_command_engine.md section 2, no-reply completion; D12, D15; what the row does as an
instruction, and that of the command latches it sets `l_id` and `sent_len` alone, is log 19): with a pin, receive mode and back; the engine is idle and the result is Ok without a value (that the
result latches are written in SET_CHANNEL_ID's first phase too is log 21); no READ; the mirror is scratch (log 10); nothing
else changes. -/
def Obligations.RequestFrameOfChannelZeroCompletes : Prop :=
  ∀ (o d k : Byte) (v : Word) (s : State), s.eng = .sending → 1 ≤ s.maxServo →
    ∀ i ∈ [Instr.reqSet1 0 o d k, .reqSet2 0 o v k, .reqGet1 0 o d k, .reqGet2 0 o v k, .reqStatus1 0 o d k,
           .reqStatus2 0 o v k, .reqModeA1 0 o d k, .reqModeA2 0 o v k],
      ∃ w, exec i s = .next { s with
        lId := 0, sentLen := (encode i).length, mir := [], eng := .idle
        dirLevel := if s.hasDirPin then false else s.dirLevel
        wire := s.wire ++ [.tx (encode i), .txDrain] ++ (if s.hasDirPin then [.dir true, .dir false] else [])
        resCode := .ok, resValid := false, resValue := w
        cidPhase := if s.cidPhase = .first then .second else .none }

/-- A frame row outside the engine state that handles it has no step (log 19: the model's refusal). -/
def Obligations.FramesOutOfTurnAreRefused : Prop :=
  ∀ (i : Instr) (s : State),
    (∀ c, requestChannel i = some c → s.eng ≠ .sending → exec i s = .refused .frameOutOfTurn) ∧
    (i.port = .receive → s.eng ≠ .validating → exec i s = .refused .frameOutOfTurn)

/-- "Zero bytes on any of the three read stages returns `Timeout`" and the pin, if present, is back in transmit mode
(43_command_engine.md (Q1), rules of the three stages): one READ with no answer, the pin low, the engine idle, the scratch
forgotten, SET_CHANNEL_ID over; nothing else changes. -/
def Obligations.SilentStageTimesOut : Prop :=
  ∀ (s : State) (rest : List Turn), s.turns = .engine :: rest → s.busy = false → s.bus.headD [] = [] →
    (s.eng = .awaitingEcho ∨ s.eng = .awaitingResponseHeader ∨ s.eng = .awaitingResponseBody) →
    ∃ (n : Nat) (w : Word),
      step s = .next { s with
        turns := rest, draws := s.draws + 1, bus := s.bus.tail
        wire := s.wire ++ [.read n []] ++ (if s.hasDirPin then [.dir false] else [])
        dirLevel := if s.hasDirPin then false else s.dirLevel
        eng := .idle, rxs := [], cidPhase := .none, resCode := .timeout, resValid := false, resValue := w } ∧
      (s.eng = .awaitingEcho → n = s.sentLen) ∧ (s.eng = .awaitingResponseHeader → n = 2) ∧
      (s.eng = .awaitingResponseBody → ∀ rl, s.rxs.cell? 1 = some rl → n = rl.toNat + 1)

/-- Echo stage with an answer, short or whole, of any content (43_command_engine.md section 2, D17, D20): the bytes are
discarded and the engine goes on; nothing else changes. -/
def Obligations.EchoIsDiscarded : Prop :=
  ∀ (s : State) (rest : List Turn), s.turns = .engine :: rest → s.busy = false → s.eng = .awaitingEcho →
    (s.bus.headD []).take s.sentLen ≠ [] →
    step s = .next { s with
      turns := rest, draws := s.draws + 1, bus := s.bus.tail
      wire := s.wire ++ [.read s.sentLen ((s.bus.headD []).take s.sentLen)], eng := .awaitingResponseHeader }

/-- Header stage with both bytes (43_command_engine.md section 2): they stand in `rxs[0..2)`; a frame that would not fit the
buffer is the fault RxOverrun, with the pin restored and the engine idle (D18), else the engine awaits the body. -/
def Obligations.HeaderStageReadsTheLength : Prop :=
  ∀ (s : State) (rest : List Turn) (b rl : Byte) (more : List Byte), s.turns = .engine :: rest → s.busy = false →
    s.eng = .awaitingResponseHeader → s.bus.headD [] = b :: rl :: more →
    ∃ rx : Memory, (∀ a, rx.cell? a = if a = 0 then some b else if a = 1 then some rl else s.rxs.cell? a) ∧
    (rl.toNat + 3 ≤ 4 * s.maxServo + 5 →
      step s = .next { s with
        turns := rest, draws := s.draws + 1, bus := s.bus.tail, rxs := rx
        wire := s.wire ++ [.read 2 [b, rl]], eng := .awaitingResponseBody }) ∧
    (4 * s.maxServo + 5 < rl.toNat + 3 →
      step s = .fault (.rxOverrun { s with
        turns := rest, draws := s.draws + 1, bus := s.bus.tail, rxs := rx
        wire := s.wire ++ [.read 2 [b, rl]] ++ (if s.hasDirPin then [.dir false] else [])
        dirLevel := if s.hasDirPin then false else s.dirLevel, eng := .idle }))

/-- Header stage with one byte (43_command_engine.md rules on partial reads, D17): the length stays unspecified, so either
outcome is possible, and nothing else differs. -/
def Obligations.HeaderStageWithoutALength : Prop :=
  ∀ (s : State) (rest : List Turn) (b : Byte), s.turns = .engine :: rest → s.busy = false →
    s.eng = .awaitingResponseHeader → s.bus.headD [] = [b] → s.rxs = [] →
    step s = .next { s with
        turns := rest, draws := s.draws + 1, bus := s.bus.tail, rxs := [(0, b)]
        wire := s.wire ++ [.read 2 [b]], eng := .awaitingResponseBody } ∨
    step s = .fault (.rxOverrun { s with
        turns := rest, draws := s.draws + 1, bus := s.bus.tail, rxs := [(0, b)]
        wire := s.wire ++ [.read 2 [b]] ++ (if s.hasDirPin then [.dir false] else [])
        dirLevel := if s.hasDirPin then false else s.dirLevel, eng := .idle })

/-- Body stage with an answer (43_command_engine.md section 2): `rxs[1] + 1` bytes are asked for, for whatever value `rl` of
`rxs[1]` where the header stage left it `unspecified` (43_command_engine.md section 4, vector E15); those received stand from
offset 2, the pin is back in transmit mode before validation; nothing else changes. -/
def Obligations.BodyStageFillsTheScratch : Prop :=
  ∀ (s : State) (rest : List Turn), s.turns = .engine :: rest → s.busy = false →
    s.eng = .awaitingResponseBody → s.bus.headD [] ≠ [] →
    ∃ (rl : Byte) (rx : Memory), (∀ b, s.rxs.cell? 1 = some b → rl = b) ∧
      (∀ a, rx.cell? a = if 2 ≤ a ∧ a < 2 + ((s.bus.headD []).take (rl.toNat + 1)).length
        then ((s.bus.headD []).take (rl.toNat + 1))[a - 2]? else s.rxs.cell? a) ∧
      step s = .next { s with
        turns := rest, draws := s.draws + 1, bus := s.bus.tail, rxs := rx, eng := .validating
        wire := s.wire ++ [.read (rl.toNat + 1) ((s.bus.headD []).take (rl.toNat + 1))] ++
          (if s.hasDirPin then [.dir false] else [])
        dirLevel := if s.hasDirPin then false else s.dirLevel }

/-- RESP whose CRC residue is not zero (43_command_engine.md, validate step; that the row as an instruction is the response
received, and is validated whatever its length, is log 19): CRCError, whatever its order byte; the engine
is idle, the scratch forgotten, SET_CHANNEL_ID over; nothing else changes. Under (T1) and (T2) that is every response whose
trailing byte is corrupted ((Q2)). -/
def Obligations.CorruptedResponseIsCrcError : Prop :=
  ∀ (cmd len crc : Byte) (payload : List Byte) (s : State), (Instr.resp cmd len payload crc).wellFormed = true →
    s.eng = .validating →
    (crc8 s.cfg (encode (.resp cmd len payload crc)) ≠ 0 ∨
      (s.cfg.TableZero ∧ s.cfg.TableNonzero ∧ crc ≠ crc8 s.cfg (cmd :: len :: payload))) →
    ∃ w, exec (.resp cmd len payload crc) s = .next { s with
      rxs := [], eng := .idle, cidPhase := .none, resCode := .crcError, resValid := false, resValue := w }

/-- RESP whose CRC passes and whose order byte is the sentinel (43_command_engine.md (Q3); that the row as an instruction is
the response received, and is validated whatever its length, is log 19): Unsupported, the engine idle, the scratch forgotten, SET_CHANNEL_ID over;
nothing else changes. -/
def Obligations.ResponseWithSentinelIsUnsupported : Prop :=
  ∀ (cmd len crc : Byte) (payload : List Byte) (s : State), (Instr.resp cmd len payload crc).wellFormed = true →
    s.eng = .validating → crc8 s.cfg (encode (.resp cmd len payload crc)) = 0 →
    (encode (.resp cmd len payload crc))[4]? = some s.cfg.orderUnsupported →
    ∃ w, exec (.resp cmd len payload crc) s = .next { s with
      rxs := [], eng := .idle, cidPhase := .none, resCode := .unsupported, resValid := false, resValue := w }

/-- RESP that validates (43_command_engine.md, validate step and decode; 30_encoding.md section 3; the request's size
decides, D16; that the row as an instruction is the response received, and is validated whatever its length, is log 19): Ok with the value, one
byte sign-extended from bit 7 or two bytes big-endian, from the fixed offsets 5 and 6, the latter only for size 2; command,
key and channel id are not looked at; in SET_CHANNEL_ID's first phase the second follows, and the result latches then are
log 21; the frame stands in the scratch (log 22) and nothing else changes. -/
def Obligations.ValidResponseIsDecoded : Prop :=
  ∀ (cmd len crc o d1 d2 : Byte) (payload : List Byte) (s : State),
    (Instr.resp cmd len payload crc).wellFormed = true → s.eng = .validating →
    crc8 s.cfg (encode (.resp cmd len payload crc)) = 0 →
    (encode (.resp cmd len payload crc))[4]? = some o → o ≠ s.cfg.orderUnsupported →
    (encode (.resp cmd len payload crc))[5]? = some d1 →
    (s.lSize = .two → (encode (.resp cmd len payload crc))[6]? = some d2) →
    ∃ rx : Memory, (∀ a, rx.cell? a = (encode (.resp cmd len payload crc))[a]?) ∧
      exec (.resp cmd len payload crc) s = .next { s with
        rxs := rx, eng := .idle, cidPhase := if s.cidPhase = .first then .second else .none
        resCode := .ok, resValid := true
        resValue := match s.lSize with
          | .one => if 0x80 ≤ d1.toNat then 0xFF00 ||| d1.setWidth 16 else d1.setWidth 16
          | .two => BitVec.ofNat 16 (d1.toNat * 256 + d2.toNat) }

/-- RESP shorter than the request layout (43_command_engine.md, decode rule's last sentence: "the rule is applied as written";
vector E20; that the row as an instruction is the response received, and is validated, is log 19): with a zero residue the
order byte `o` at offset 4 and the data bytes `d1`, `d2` at offsets 5 and 6 decide as for a whole response. Of these, the ones
the response has (its own checksum byte among them) are the response's: `o` for a length byte 2 or 3, `d1` for 3; the others
are `unspecified`, and the statement holds whatever they are. In SET_CHANNEL_ID's first phase the result latches are log 21;
what the scratch holds afterwards is log 22. -/
def Obligations.ShortResponseStillCompletes : Prop :=
  ∀ (cmd len crc : Byte) (payload : List Byte) (s : State), (Instr.resp cmd len payload crc).wellFormed = true →
    s.eng = .validating → len.toNat < 4 → crc8 s.cfg (encode (.resp cmd len payload crc)) = 0 →
    ∃ (o d1 d2 : Byte) (w : Word),
      (∀ b, (encode (.resp cmd len payload crc))[4]? = some b → o = b) ∧
      (∀ b, (encode (.resp cmd len payload crc))[5]? = some b → d1 = b) ∧
      (o = s.cfg.orderUnsupported → exec (.resp cmd len payload crc) s = .next { s with
        rxs := [], eng := .idle, cidPhase := .none, resCode := .unsupported, resValid := false, resValue := w }) ∧
      (o ≠ s.cfg.orderUnsupported → ∃ rx : Memory, (∀ a, rx.cell? a = (encode (.resp cmd len payload crc))[a]?) ∧
        exec (.resp cmd len payload crc) s = .next { s with
          rxs := rx, eng := .idle, cidPhase := if s.cidPhase = .first then .second else .none
          resCode := .ok, resValid := true
          resValue := match s.lSize with
            | .one => if 0x80 ≤ d1.toNat then 0xFF00 ||| d1.setWidth 16 else d1.setWidth 16
            | .two => BitVec.ofNat 16 (d1.toNat * 256 + d2.toNat) })

/-- "Every exchange ends in `Idle` after at most six steps" (43_command_engine.md section 3), the start step and five more:
from any stage, whatever BUS answers, under log 2's empty schedule: ENGINE moves, and no tick and no reset comes between. The
only other end is RxOverrun (D18). -/
def Obligations.ExchangeEndsWithinFiveSteps : Prop :=
  ∀ s : State, s.Inv → s.turns = [] → s.eng ≠ .idle →
    ∃ n ≤ 5, (∃ t, Sys2Proof.core.run n s = .next t ∧ t.eng = .idle) ∨
      (∃ left, Sys2Proof.core.run n s = .fault (.rxOverrun left))

/-! Channel-ID set. -/

/-- SET_CHANNEL_ID (45_channel_id.md; command, orders and size are D7, D21): the new id latched, the first exchange started
against `old_id` as given; the mirror beyond the request is scratch (log 10); nothing else changes. -/
def Obligations.SetChannelIdStartsItsFirstExchange : Prop :=
  ∀ (old new : Byte) (s : State), s.inited = true → s.eng = .idle → s.busy = false → s.cidPhase = .none →
    1 ≤ s.maxServo →
    exec (.setChannelId old new) s = .next { s with
      lNewid := new, cidPhase := .first, lCmd := 0x20, lId := old, lOrder := s.cfg.orderMode
      lValue := s.cfg.modeIdset.setWidth 16, lSize := .one, sentLen := 7
      mir := [(0, 0x20), (1, 4), (2, 0), (3, old), (4, s.cfg.orderMode), (5, s.cfg.modeIdset),
              (6, crc8 s.cfg [0x20, 4, 0, old, s.cfg.orderMode, s.cfg.modeIdset])]
      rxs := [], dirty := true, wire := s.wire ++ [.rxFlush], eng := .sending }

/-- SET_CHANNEL_ID_SINGLE (45_channel_id.md; D30): with a pin, RestrictedTopology and nothing else changes; without, the first
exchange of SET_CHANNEL_ID(0, new_id), the mirror beyond the request scratch (log 10). -/
def Obligations.SetChannelIdSingleNeedsNoPin : Prop :=
  ∀ (new : Byte) (s : State), s.inited = true → s.eng = .idle → s.busy = false → s.cidPhase = .none →
    (s.hasDirPin = true → ∃ w, exec (.setChannelIdSingle new) s =
      .next { s with resCode := .restrictedTopology, resValid := false, resValue := w }) ∧
    (s.hasDirPin = false → 1 ≤ s.maxServo → exec (.setChannelIdSingle new) s = .next { s with
      lNewid := new, cidPhase := .first, lCmd := 0x20, lId := 0, lOrder := s.cfg.orderMode
      lValue := s.cfg.modeIdset.setWidth 16, lSize := .one, sentLen := 7
      mir := [(0, 0x20), (1, 4), (2, 0), (3, 0), (4, s.cfg.orderMode), (5, s.cfg.modeIdset),
              (6, crc8 s.cfg [0x20, 4, 0, 0, s.cfg.orderMode, s.cfg.modeIdset])]
      rxs := [], dirty := true, wire := s.wire ++ [.rxFlush], eng := .sending })

/-- The second exchange of SET_CHANNEL_ID (45_channel_id.md, D7, D21): ENGINE's step while the engine is idle in the second
phase starts it, against the same channel, with the new id; the mirror beyond the request is scratch (log 10); nothing else
changes. -/
def Obligations.SecondExchangeWritesTheNewId : Prop :=
  ∀ (s : State) (rest : List Turn), s.turns = .engine :: rest → s.busy = false → s.eng = .idle → s.cidPhase = .second →
    1 ≤ s.maxServo →
    step s = .next { s with
      turns := rest, draws := s.draws + 1
      lCmd := 0x20, lOrder := s.cfg.orderId, lValue := s.lNewid.setWidth 16, lSize := .one, sentLen := 7
      mir := [(0, 0x20), (1, 4), (2, 0), (3, s.lId), (4, s.cfg.orderId), (5, s.lNewid),
              (6, crc8 s.cfg [0x20, 4, 0, s.lId, s.cfg.orderId, s.lNewid])]
      rxs := [], dirty := true, wire := s.wire ++ [.rxFlush], eng := .sending }

/-- "Returning the first failure encountered, else the second call's result" (45_channel_id.md): an exchange that ends in
the first phase leads to the second phase if it answered Ok and ends the operation otherwise; one that ends in the second
phase ends the operation. That the first exchange's result stands in `res_code` is log 21. -/
def Obligations.FirstFailureEndsSetChannelId : Prop :=
  ∀ s t : State, s.mover = .engine → s.busy = false → s.eng ≠ .idle → step s = .next t →
    (t.eng = .idle → s.cidPhase = .first → t.cidPhase = if t.resCode = .ok then .second else .none) ∧
    (t.eng = .idle → s.cidPhase = .second → t.cidPhase = .none) ∧
    (t.eng = .idle → s.cidPhase = .none → t.cidPhase = .none) ∧
    (t.eng ≠ .idle → t.cidPhase = s.cidPhase) ∧ t.lNewid = s.lNewid

/-! CRC-8. -/

/-- The fold (R160, R161): 0x00 over no bytes, and one more byte at the end is one look-up of `(byte ^ crc) & 0xFF`, with
no final XOR. -/
def Obligations.CrcFoldsTheTable : Prop :=
  ∀ (c : Config) (p : List Byte) (b : Byte), crc8 c [] = 0 ∧
    crc8 c (p ++ [b]) = crcStep c b (crc8 c p) ∧
    ∀ k : Byte, crcStep c b k = c.crcTable.get ((b ^^^ k) &&& 0xFF).toFin

/-- Zero residue (R163), and (T1) is necessary and sufficient for it (R162, derived by the spec itself). -/
def Obligations.ZeroResidueIffTableZero : Prop :=
  ∀ c : Config, c.TableZero ↔ ∀ p : List Byte, crc8 c (p ++ [crc8 c p]) = 0

/-- What the table's properties detect (44_crc8.md on the table, vector K5): given (T1), (T2) is necessary and sufficient
for the detection of every corrupted trailing byte; "if `CRC_TABLE` is a permutation, every single-byte change anywhere in
the frame is detected". -/
def Obligations.TablePropertiesDecideDetection : Prop :=
  (∀ c : Config, c.TableZero →
    (c.TableNonzero ↔ ∀ (p : List Byte) (t : Byte), t ≠ crc8 c p → crc8 c (p ++ [t]) ≠ 0)) ∧
  (∀ (c : Config) (p q : List Byte) (x y : Byte), c.TableInjective → x ≠ y →
    crc8 c (p ++ x :: q) ≠ crc8 c (p ++ y :: q))

/-! Encoding. -/

/-- Every well-formed instruction decodes from its own bytes, with whatever follows left over. The bytes of a frame are the
spec's, those of a host operation are in log 3's layout. -/
def Obligations.DecodeInvertsEncode : Prop :=
  ∀ (i : Instr) (rest : List Byte), i.wellFormed = true → decode i.port (encode i ++ rest) = .ok (i, rest)

/-- Bytes that decode are the encoding of what they decode to: every word has one meaning in its format. The bytes of a frame
are the spec's; for a host operation this is of log 3's layout, whose bits fixed at zero are refused when they are not. -/
def Obligations.EncodeInvertsDecode : Prop :=
  ∀ (p : Port) (bs rest : List Byte) (i : Instr), decode p bs = .ok (i, rest) → i.port = p ∧ encode i ++ rest = bs

/-- The encoding of every instruction has the fixed bits of its row of the opcode table: for a frame row in the spec's bytes,
for a host row with the selector in the low bits of the first byte, which is log 3's layout (and log 20's for the table word). -/
def Obligations.EncodingsHaveTheirRowsFixedBits : Prop :=
  ∀ i : Instr, i.wellFormed = true → i.rowBits.matched (encode i) = true

/-- Words decode to the instruction they stand for. Written out from the spec's encodings: requests of 8 and 7 bytes (vectors
Q3, Q5), a broadcast (vector M2), a response (vector E1). In the model's own layout (log 3), for the spec gives host operations
selectors and operand widths only: each of the nine host operations. -/
def Obligations.SampleWordsDecode : Prop :=
  decode .host [0b00000000, 3, 1] = .ok (.init 3 true, []) ∧
  decode .host [0b00000001, 0x05, 0x7F, 0xFF] = .ok (.add 5 0x7FFF, []) ∧
  decode .host [0b00000010, 0x85] = .ok (.remove 0x85, []) ∧
  decode .host [0b00000011, 0x0A, 0xED, 0xB6] = .ok (.set 10 0xEDB6, []) ∧
  decode .host [0b00000100] = .ok (.emit, []) ∧
  decode .host [0b00000101, 0x21, 0x01, 0x04, 0x12, 0x34, 2] = .ok (.sendCommand 0x21 1 4 0x1234 2, []) ∧
  decode .host [0b00000110, 1, 9] = .ok (.setChannelId 1 9, []) ∧
  decode .host [0b00000111, 9] = .ok (.setChannelIdSingle 9, []) ∧
  decode .host [0b00001000] = .ok (.shutdown, []) ∧
  decode .transmit [0b00100000, 0b00000101, 0, 0x02, 0x10, 0x12, 0x34, 0xEB] = .ok (.reqSet2 2 0x10 0x1234 0xEB, []) ∧
  decode .transmit [0b00100010, 0b00000100, 0, 0x41, 0x05, 0x00, 0xA2] = .ok (.reqStatus1 0x41 5 0 0xA2, []) ∧
  decode .transmit [0b10100100, 0x06, 0, 0x00, 0x05, 0x00, 0x7F, 0xFF, 0xBB] =
    .ok (.bcast 6 0 [⟨5, 0, 0x7FFF⟩] 0xBB, []) ∧
  decode .receive [0x21, 0x05, 0x00, 0x01, 0x04, 0x01, 0x23, 0x2D] =
    .ok (.resp 0x21 5 [0x00, 0x01, 0x04, 0x01, 0x23] 0x2D, [])

/-- A host selector of 9 to 15 is refused as BadOperation (30_encoding.md section 5, D31; that the selector is the first byte of
a queued word is log 3). -/
def Obligations.UnassignedSelectorsAreRefused : Prop :=
  ∀ (s : State) (b : Byte) (ops : List Byte) (words : List (List Byte)), s.mover = .host →
    s.hostOps = (b :: ops) :: words → 9 ≤ b.toNat → b.toNat ≤ 15 → step s = .refused .badOperation

/-! The step. -/

/-- A step runs the decoded operation: HOST's next word if HOST moves, EMIT if TICK moves. Around `exec`: the turn is
taken, the word leaves the queue, the step gets its number. -/
def Obligations.StepRunsTheDecodedOperation : Prop :=
  (∀ (s : State) (word junk : List Byte) (words : List (List Byte)) (i : Instr), s.mover = .host →
    s.hostOps = word :: words → decode .host word = .ok (i, junk) →
    step s = exec i { s with turns := s.turns.tail, draws := s.draws + 1, hostOps := words }) ∧
  (∀ s : State, s.mover = .tick → step s = exec .emit { s with turns := s.turns.tail, draws := s.draws + 1 })

/-- A step runs the frame in its buffer: the pending request in the mirror, the received response in the scratch, the
broadcast in the clean mirror at a tick (log 19). Around `exec`: the turn is taken, the step gets its number. -/
def Obligations.StepRunsTheFrameInItsBuffer : Prop :=
  (∀ (s : State) (f : List Byte) (i : Instr), s.mover = .engine → s.busy = false → s.eng = .sending →
    s.mir = Memory.ofBytes 0 f → s.sentLen = f.length → decode .transmit f = .ok (i, []) →
    requestChannel i = some s.lId →
    step s = exec i { s with turns := s.turns.tail, draws := s.draws + 1 }) ∧
  (∀ (s : State) (f : List Byte) (i : Instr), s.mover = .engine → s.busy = false → s.eng = .validating →
    s.rxs = Memory.ofBytes 0 f → decode .receive f = .ok (i, []) →
    step s = exec i { s with turns := s.turns.tail, draws := s.draws + 1 }) ∧
  (∀ (s : State) (f : List Byte) (len typ crc : Byte) (es : List Entry), s.mover = .tick → s.dirty = false →
    s.mir = Memory.ofBytes 0 f → decode .transmit f = .ok (.bcast len typ es crc, []) →
    (Instr.bcast len typ es crc).wellFormed = true →
    step s = exec (.bcast len typ es crc) { s with turns := s.turns.tail, draws := s.draws + 1 })

/-! The whole machine. -/

/-- Every step keeps the invariant: R36's template invariants (R32, R36), the windows of the two flags (R106, R61), the
pin's level (R31; without a pin log 16), an exchange's operands (R28, R131), SET_CHANNEL_ID's phase (R170). -/
def Obligations.EveryStepKeepsTheInvariant : Prop := ∀ s t : State, s.Inv → step s = .next t → t.Inv

/-- No offset outside a buffer is ever used (20_memory.md section 1): no step from a state that meets the invariant stops
with the model's own fault of log 17. -/
def Obligations.NoOffsetLeavesItsBuffer : Prop := ∀ s : State, s.Inv → step s ≠ .fault .offsetOutsideBuffer

/-- A HOST that waits for each result, with no tick of its own (log 2's empty schedule), never overlaps operations
(70_reset_and_hazards.md hazards H1 and H2): the one fault it can meet is RxOverrun. -/
def Obligations.WaitingHostNeverOverlaps : Prop :=
  ∀ (s : State) (f : Fault), s.Inv → s.turns = [] → step s = .fault f → ∃ left, f = .rxOverrun left

/-- Events are only appended (10_state.md section 8 on the wire log), each by the agent it belongs to: a tick appends at
most one `TX`; HOST opens, closes, sets the pin up and flushes the receiver; ENGINE transmits, reads and turns the pin.
A step takes one turn and one number, and nothing writes the parameters (log 2, 6, 7). -/
def Obligations.StepsOnlyAppendToTheLog : Prop :=
  ∀ s t : State, step s = .next t → s.mover ≠ .reset →
    ∃ es : List Event, t.wire = s.wire ++ es ∧
      (s.mover = .tick → es = [] ∨ ∃ bytes, es = [.tx bytes]) ∧
      (s.mover = .host → ∀ e ∈ es, (∀ b, e = .tx b → es = [.tx b]) ∧ (∀ n g, e ≠ .read n g) ∧ e ≠ .txDrain ∧
        e ≠ .dir true) ∧
      (s.mover = .engine → ∀ e ∈ es, e ≠ .dirOut ∧ e ≠ .dirRelease ∧ e ≠ .closed ∧ ∀ r ms, e ≠ .opened r ms) ∧
      t.turns = s.turns.tail ∧ t.draws = s.draws + 1 ∧ t.cfg = s.cfg ∧
      (t.bus = s.bus ∨ (s.mover = .engine ∧ t.bus = s.bus.tail))

/-- MAX_SERVO and HAS_DIR_PIN are fixed by INIT (10_state.md section 1): a step that changes either is HOST's, before INIT,
and leaves the block initialised. -/
def Obligations.CapacityAndPinAreFixedByInit : Prop :=
  ∀ s t : State, step s = .next t → s.mover ≠ .reset →
    (t.maxServo ≠ s.maxServo ∨ t.hasDirPin ≠ s.hasDirPin) → s.mover = .host ∧ s.inited = false ∧ t.inited = true

/-- Who clears `dirty` (10_state.md R24, 20_memory.md R61): a reset, INIT, SHUTDOWN (log 15), or an EMIT that transmits
with the engine idle; nothing else. -/
def Obligations.OnlyAnEmissionClearsDirty : Prop :=
  ∀ s t : State, step s = .next t → s.dirty = true → t.dirty = false →
    s.mover = .reset ∨ (s.mover = .host ∧ t.inited ≠ s.inited) ∨
    (s.mover ≠ .engine ∧ s.eng = .idle ∧ s.busy = false ∧ ∃ bytes, t.wire = s.wire ++ [.tx bytes])

/-- Which operation answers which kind (60_exceptions.md sections 1 to 3): a tick answers nothing; HOST's own step answers
a registry error, RestrictedTopology or a lifecycle Ok; ENGINE answers Ok to a commit, Ok without a value to channel 0,
Timeout in a read stage, and Ok with a value, Unsupported or CRCError when it validates (in SET_CHANNEL_ID's first phase too:
log 21). The lifecycle operations' latches are log 12. OutOfMemory is never answered. -/
def Obligations.OperationsAnswerTheirResultKinds : Prop :=
  ∀ s t : State, step s = .next t → s.mover ≠ .reset →
    (t.resCode = s.resCode ∧ t.resValid = s.resValid ∧ t.resValue = s.resValue) ∨
    (s.mover = .host ∧ t.resValid = false ∧ ∃ word rest i junk, s.hostOps = word :: rest ∧
      decode .host word = .ok (i, junk) ∧
      ((∃ c v, i = .add c v ∧ t.resCode ∈ [ResCode.capacityExceeded, .duplicateChannel]) ∨
       (∃ c, i = .remove c ∧ t.resCode ∈ [ResCode.emptyRegistry, .channelNotFound]) ∨
       (∃ c v, i = .set c v ∧ t.resCode = .channelNotFound) ∨
       (∃ n, i = .setChannelIdSingle n ∧ s.hasDirPin = true ∧ t.resCode = .restrictedTopology) ∨
       ((i = .shutdown ∨ ∃ m p, i = .init m p) ∧ t.resCode = .ok))) ∨
    (s.mover = .engine ∧ s.busy = true ∧ t.busy = false ∧ t.resCode = .ok ∧ t.resValid = false) ∨
    (s.mover = .engine ∧ s.busy = false ∧ t.eng = .idle ∧
      ((s.eng = .sending ∧ s.lId = 0 ∧ t.resCode = .ok ∧ t.resValid = false) ∨
       (s.eng ∈ [Eng.awaitingEcho, .awaitingResponseHeader, .awaitingResponseBody] ∧ t.resCode = .timeout ∧
         t.resValid = false) ∨
       (s.eng = .validating ∧ ((t.resCode = .ok ∧ t.resValid = true) ∨
         (t.resCode ∈ [ResCode.unsupported, .crcError] ∧ t.resValid = false)))))
end

