-- ==== Sys2Proof/Laws/Crc.lean ====
section
/-! SUPPORT. CRC-8: the fold, one byte at the end, and what the last byte does to the residue. -/

namespace Sys2Proof.Machine

@[simp] theorem crc8_nil (c : Config) : crc8 c [] = 0 := rfl

theorem crc8_concat (c : Config) (p : List Byte) (b : Byte) : crc8 c (p ++ [b]) = crcStep c b (crc8 c p) := by
  simp [crc8, List.foldl_append]

theorem crcStep_eq (c : Config) (b k : Byte) : crcStep c b k = c.crcTable.get (b ^^^ k).toFin := by
  have h : (b ^^^ k) &&& 0xFF = b ^^^ k := by
    have : (0xFF : Byte) = BitVec.allOnes 8 := rfl
    rw [this, BitVec.and_allOnes]
  rw [crcStep, h]

/-- The residue of a frame whose trailing byte is `t` is the table at `t ^ crc` (R162). -/
theorem crc8_trailing (c : Config) (p : List Byte) (t : Byte) :
    crc8 c (p ++ [t]) = c.crcTable.get (t ^^^ crc8 c p).toFin := by
  rw [crc8_concat, crcStep_eq]

end Sys2Proof.Machine
end

