-- ==== Sys2Proof/Laws/Decode.lean ====
section
/-! SUPPORT. The byte order helpers and the entries of a broadcast, in both directions. -/

namespace Sys2Proof

@[simp] theorem ofHiLo_hiByte_loByte (v : Word) : ofHiLo (hiByte v) (loByte v) = v := by
  apply BitVec.eq_of_toNat_eq
  have := v.isLt
  simp only [ofHiLo, hiByte, loByte, BitVec.toNat_append, BitVec.extractLsb'_toNat, Nat.shiftRight_zero]
  rw [Nat.shiftLeft_eq, Nat.mul_comm, ← Nat.two_pow_add_eq_or_of_lt (by omega), Nat.shiftRight_eq_div_pow]
  omega

theorem ofHiLo_toNat (h l : Byte) : (ofHiLo h l).toNat = h.toNat * 256 + l.toNat := by
  have := l.isLt
  simp only [ofHiLo, BitVec.toNat_append]
  rw [Nat.shiftLeft_eq, Nat.mul_comm, ← Nat.two_pow_add_eq_or_of_lt (by omega)]

@[simp] theorem hiByte_ofHiLo (h l : Byte) : hiByte (ofHiLo h l) = h := by
  apply BitVec.eq_of_toNat_eq
  have := h.isLt
  have := l.isLt
  simp only [hiByte, BitVec.extractLsb'_toNat, ofHiLo_toNat]
  rw [Nat.shiftRight_eq_div_pow]
  omega

@[simp] theorem loByte_ofHiLo (h l : Byte) : loByte (ofHiLo h l) = l := by
  apply BitVec.eq_of_toNat_eq
  have := l.isLt
  simp only [loByte, BitVec.extractLsb'_toNat, ofHiLo_toNat, Nat.shiftRight_zero]
  omega

/-- A 6-bit id survives the byte it is stored in. -/
@[simp] theorem id_setWidth (i : BitVec 6) : (i.setWidth 8).setWidth 6 = i := by
  apply BitVec.eq_of_toNat_eq
  have := i.isLt
  simp only [BitVec.toNat_setWidth]
  omega

theorem id_lt (i : BitVec 6) : (i.setWidth 8).toNat < 64 := by
  have := i.isLt
  simp only [BitVec.toNat_setWidth]
  omega

theorem setWidth_id {b : Byte} (h : b.toNat < 64) : (b.setWidth 6).setWidth 8 = b := by
  apply BitVec.eq_of_toNat_eq
  simp only [BitVec.toNat_setWidth]
  omega

@[simp] theorem Entry.length_bytes (e : Entry) : e.bytes.length = 4 := rfl

theorem length_entryBytes (es : List Entry) : (es.flatMap Entry.bytes).length = 4 * es.length := by
  induction es with
  | nil => rfl
  | cons e es ih =>
    simp only [List.flatMap_cons, List.length_append, ih, Entry.length_bytes, List.length_cons]
    omega

theorem decodeEntries_encode (es : List Entry) (rest : List Byte) :
    decodeEntries es.length (es.flatMap Entry.bytes ++ rest) = .ok (es, rest) := by
  induction es with
  | nil => rfl
  | cons e es ih =>
    have h := id_lt e.id
    simp only [List.flatMap_cons, Entry.bytes, List.cons_append, List.nil_append, List.length_cons, decodeEntries,
      if_pos h, ih, id_setWidth, ofHiLo_hiByte_loByte]

theorem decodeEntries_inv : ∀ (n : Nat) (bs : List Byte) {es : List Entry} {rest : List Byte},
    decodeEntries n bs = .ok (es, rest) → es.length = n ∧ es.flatMap Entry.bytes ++ rest = bs := by
  intro n
  induction n with
  | zero => intro bs es rest h; cases h; exact ⟨rfl, rfl⟩
  | succ n ih =>
    intro bs es rest h
    match bs, h with
    | i :: r :: hb :: l :: bs, h =>
      unfold decodeEntries at h
      split at h
      · rename_i hi
        split at h
        · rename_i es' rest' hd
          obtain ⟨h1, h2⟩ := ih bs hd
          cases h
          simp [Entry.bytes, h1, h2, setWidth_id hi]
        · cases h
      · cases h
    | [], h => simp [decodeEntries] at h
    | [_], h => simp [decodeEntries] at h
    | [_, _], h => simp [decodeEntries] at h
    | [_, _, _], h => simp [decodeEntries] at h

/-! Lengths. -/

theorem length_flatMap_bytes (es : List Entry) : (es.flatMap Entry.bytes).length = 4 * es.length := by
  induction es with
  | nil => rfl
  | cons e es ih => simp only [List.flatMap_cons, List.length_append, ih, Entry.bytes, List.length_cons, List.length_nil]; omega

/-- A well-formed broadcast frame has `len + 3` bytes (R71). -/
theorem length_encode_bcast {len typ crc : Byte} {es : List Entry} (hw : (Instr.bcast len typ es crc).wellFormed = true) :
    (encode (.bcast len typ es crc)).length = len.toNat + 3 := by
  simp only [Instr.wellFormed, bcastLenOk, Bool.and_eq_true, beq_iff_eq] at hw
  simp only [encode, List.length_cons, List.length_append, length_flatMap_bytes, hw.1, List.length_nil]
  omega

/-- A well-formed response frame has `len + 3` bytes (R74). -/
theorem length_encode_resp {cmd len crc : Byte} {payload : List Byte}
    (hw : (Instr.resp cmd len payload crc).wellFormed = true) :
    (encode (.resp cmd len payload crc)).length = len.toNat + 3 := by
  simp only [Instr.wellFormed, respLenOk, beq_iff_eq] at hw
  simp [encode, hw]

/-! The rows' fixed bits under an encoding. -/

@[simp] theorem RowBits.matched_nil (bs : List Byte) : RowBits.matched [] bs = true := rfl

@[simp] theorem RowBits.matched_cons (m v b : Byte) (row : RowBits) (bs : List Byte) :
    RowBits.matched ((m, v) :: row) (b :: bs) = ((b &&& m == v) && RowBits.matched row bs) := rfl

end Sys2Proof
end

