-- ==== Sys2Proof/Laws/Memory.lean ====
section
/-! SUPPORT. The laws of the buffers: read after write, every operation keeps the canonical form, canonical buffers with
equal cells are equal. -/

namespace Sys2Proof.Machine

theorem Memory.cell?_put (m : Memory) (a b : Nat) (v : Byte) :
    (m.put a v).cell? b = if b = a then some v else m.cell? b := by
  induction m with
  | nil => simp [Memory.put, Memory.cell?]
  | cons c m ih =>
    obtain ⟨x, w⟩ := c
    by_cases h1 : a < x
    · simp [Memory.put, Memory.cell?, h1]
    · by_cases h2 : a = x
      · subst h2
        by_cases hb : b = a <;> simp [Memory.put, Memory.cell?, hb]
      · by_cases hbx : b = x
        · subst hbx
          have : ¬ b = a := fun h => h2 h.symm
          simp [Memory.put, Memory.cell?, h1, h2, this]
        · simp [Memory.put, Memory.cell?, h1, h2, hbx, ih]

@[simp] theorem Memory.cell?_put_self (m : Memory) (a : Nat) (v : Byte) : (m.put a v).cell? a = some v := by
  simp [Memory.cell?_put]

/-- An offset of a buffer after a write of `vs` at `a`: inside, the new byte; outside, the old one. -/
theorem Memory.cell?_putBytes (vs : List Byte) : ∀ (m : Memory) (a b : Nat),
    (m.putBytes a vs).cell? b = if a ≤ b ∧ b < a + vs.length then vs[b - a]? else m.cell? b := by
  induction vs with
  | nil => intro m a b; simp [Memory.putBytes]
  | cons v vs ih =>
    intro m a b
    simp only [Memory.putBytes, ih, Memory.cell?_put, List.length_cons]
    by_cases hb : b = a
    · subst hb
      simp
    · by_cases h1 : a + 1 ≤ b ∧ b < a + 1 + vs.length
      · have h2 : a ≤ b ∧ b < a + (vs.length + 1) := by omega
        have h3 : b - a = (b - (a + 1)) + 1 := by omega
        simp [h1, h2, h3]
      · have h2 : ¬ (a ≤ b ∧ b < a + (vs.length + 1)) := by omega
        simp only [if_neg h1, if_neg h2, if_neg hb]

theorem Memory.cell?_keepBelow (m : Memory) (n a : Nat) :
    (m.keepBelow n).cell? a = if a < n then m.cell? a else none := by
  induction m with
  | nil => simp [Memory.keepBelow, Memory.cell?]
  | cons c m ih =>
    obtain ⟨x, w⟩ := c
    unfold Memory.keepBelow at ih ⊢
    by_cases hx : x < n
    · by_cases ha : a = x
      · subst ha; simp [Memory.cell?, hx]
      · simp [Memory.cell?, hx, ha, ih]
    · by_cases ha : a = x
      · subst ha
        have hx' : ¬ a < n := hx
        rw [List.filter_cons_of_neg (by simpa using hx), ih]
        simp [hx']
      · rw [List.filter_cons_of_neg (by simpa using hx), ih]
        simp [Memory.cell?, ha]

theorem Memory.cell?_ofBytes (vs : List Byte) : ∀ (a b : Nat),
    (Memory.ofBytes a vs).cell? b = if a ≤ b then vs[b - a]? else none := by
  induction vs with
  | nil => intro a b; simp [Memory.ofBytes, Memory.cell?]
  | cons v vs ih =>
    intro a b
    by_cases hb : b = a
    · subst hb; simp [Memory.ofBytes, Memory.cell?]
    · simp only [Memory.ofBytes, Memory.cell?, if_neg hb, ih]
      by_cases h1 : a + 1 ≤ b
      · have h2 : a ≤ b := by omega
        have h3 : b - a = (b - (a + 1)) + 1 := by omega
        simp [h1, h2, h3]
      · have h2 : ¬ a ≤ b := by omega
        simp [h1, h2]

/-! Canonical form. -/

/-- The cells of a buffer after a write are the new one and old ones. -/
theorem Memory.mem_put {m : Memory} {a : Nat} {v : Byte} {c : Host.Cell} (h : c ∈ m.put a v) :
    c = (a, v) ∨ c ∈ m := by
  induction m with
  | nil => left; simpa [Memory.put] using h
  | cons d m ih =>
    obtain ⟨x, w⟩ := d
    unfold Memory.put at h
    split at h
    · simpa using h
    · split at h
      · rcases List.mem_cons.1 h with h | h
        · exact .inl h
        · exact .inr (List.mem_cons_of_mem _ h)
      · rcases List.mem_cons.1 h with h | h
        · exact .inr (by simp [h])
        · rcases ih h with h | h
          · exact .inl h
          · exact .inr (List.mem_cons_of_mem _ h)

theorem Memory.put_wf {m : Memory} (h : m.wf) (a : Nat) (v : Byte) : (m.put a v).wf := by
  induction m with
  | nil => simp [Memory.put, Memory.wf]
  | cons d m ih =>
    obtain ⟨x, w⟩ := d
    obtain ⟨hx, hm⟩ := List.pairwise_cons.1 h
    unfold Memory.put
    split
    · rename_i hlt
      refine List.pairwise_cons.2 ⟨fun c hc => ?_, h⟩
      rcases List.mem_cons.1 hc with rfl | hc
      · exact hlt
      · exact Nat.lt_trans hlt (hx c hc)
    · split
      · rename_i heq
        subst heq
        exact List.pairwise_cons.2 ⟨hx, hm⟩
      · rename_i hlt hne
        refine List.pairwise_cons.2 ⟨fun c hc => ?_, ih hm⟩
        rcases Memory.mem_put hc with rfl | hc
        · show x < a
          omega
        · exact hx c hc

theorem Memory.putBytes_wf (vs : List Byte) : ∀ {m : Memory} (a : Nat), m.wf → (m.putBytes a vs).wf := by
  induction vs with
  | nil => intro m a h; exact h
  | cons v vs ih => intro m a h; exact ih (a + 1) (Memory.put_wf h a v)

theorem Memory.keepBelow_wf {m : Memory} (h : m.wf) (n : Nat) : (m.keepBelow n).wf :=
  List.Pairwise.filter _ h

theorem Memory.mem_ofBytes (vs : List Byte) : ∀ {a : Nat} {c : Host.Cell},
    c ∈ Memory.ofBytes a vs → a ≤ c.1 ∧ c.1 < a + vs.length := by
  induction vs with
  | nil => intro a c h; simp [Memory.ofBytes] at h
  | cons v vs ih =>
    intro a c h
    rcases List.mem_cons.1 h with rfl | h
    · simp
    · have := ih h
      simp only [List.length_cons]
      omega

theorem Memory.ofBytes_wf (vs : List Byte) : ∀ a : Nat, (Memory.ofBytes a vs).wf := by
  induction vs with
  | nil => intro a; exact List.Pairwise.nil
  | cons v vs ih =>
    intro a
    refine List.pairwise_cons.2 ⟨fun c hc => ?_, ih (a + 1)⟩
    have := Memory.mem_ofBytes vs hc
    show a < c.1
    omega

theorem Memory.mem_putBytes (vs : List Byte) : ∀ {m : Memory} {a : Nat} {c : Host.Cell},
    c ∈ m.putBytes a vs → c ∈ m ∨ (a ≤ c.1 ∧ c.1 < a + vs.length) := by
  induction vs with
  | nil => intro m a c h; exact .inl h
  | cons v vs ih =>
    intro m a c h
    rcases ih h with h | h
    · rcases Memory.mem_put h with rfl | h
      · exact .inr (by simp)
      · exact .inl h
    · refine .inr ?_
      simp only [List.length_cons]
      omega

theorem Memory.mem_keepBelow {m : Memory} {n : Nat} {c : Host.Cell} (h : c ∈ m.keepBelow n) : c ∈ m ∧ c.1 < n := by
  simpa [Memory.keepBelow] using h

/-- No cell below the first offset of a canonical buffer. -/
theorem Memory.cell?_none_of_lt {m : Memory} {a : Nat} (h : ∀ c ∈ m, a < c.1) : m.cell? a = none := by
  induction m with
  | nil => rfl
  | cons d m ih =>
    obtain ⟨x, w⟩ := d
    have hx : a < x := h (x, w) (by simp)
    have : ¬ a = x := by omega
    simp [Memory.cell?, this, ih (fun c hc => h c (List.mem_cons_of_mem _ hc))]

/-- A cell of a canonical buffer is what its offset reads as. -/
theorem Memory.cell?_of_mem {m : Memory} (hm : m.wf) {a : Nat} {v : Byte} (h : (a, v) ∈ m) : m.cell? a = some v := by
  induction m with
  | nil => simp at h
  | cons d m ih =>
    obtain ⟨x, w⟩ := d
    obtain ⟨hx, hm'⟩ := List.pairwise_cons.1 hm
    rcases List.mem_cons.1 h with h | h
    · simp at h; simp [Memory.cell?, h.1, h.2]
    · have : x < a := hx (a, v) h
      have : ¬ a = x := by omega
      simp [Memory.cell?, this, ih hm' h]

theorem Memory.mem_of_cell? {m : Memory} {a : Nat} {v : Byte} (h : m.cell? a = some v) : (a, v) ∈ m := by
  induction m with
  | nil => simp [Memory.cell?] at h
  | cons d m ih =>
    obtain ⟨x, w⟩ := d
    by_cases ha : a = x
    · simp [Memory.cell?, ha] at h; simp [ha, h]
    · simp [Memory.cell?, ha] at h; exact List.mem_cons_of_mem _ (ih h)

/-- Canonical buffers that agree on every offset are the same data. -/
theorem Memory.ext_cells {m : Memory} : ∀ {m' : Memory}, m.wf → m'.wf → (∀ a, m.cell? a = m'.cell? a) → m = m' := by
  induction m with
  | nil =>
    intro m' _ _ h
    cases m' with
    | nil => rfl
    | cons d m' =>
      obtain ⟨x, w⟩ := d
      have := h x
      simp [Memory.cell?] at this
  | cons d m ih =>
    intro m' hm hm' h
    obtain ⟨x, w⟩ := d
    obtain ⟨hx, hmt⟩ := List.pairwise_cons.1 hm
    cases m' with
    | nil => have := h x; simp [Memory.cell?] at this
    | cons d' m' =>
      obtain ⟨x', w'⟩ := d'
      obtain ⟨hx', hmt'⟩ := List.pairwise_cons.1 hm'
      have hxx : x = x' := by
        rcases Nat.lt_trichotomy x x' with hlt | heq | hgt
        · have hb : Memory.cell? ((x', w') :: m') x = none := Memory.cell?_none_of_lt (fun c hc => by
            rcases List.mem_cons.1 hc with rfl | hc
            · exact hlt
            · exact Nat.lt_trans hlt (hx' c hc))
          have := h x
          rw [hb] at this
          simp [Memory.cell?] at this
        · exact heq
        · have hb : Memory.cell? ((x, w) :: m) x' = none := Memory.cell?_none_of_lt (fun c hc => by
            rcases List.mem_cons.1 hc with rfl | hc
            · exact hgt
            · exact Nat.lt_trans hgt (hx c hc))
          have := h x'
          rw [hb] at this
          simp [Memory.cell?] at this
      subst hxx
      have hw : w = w' := by have := h x; simpa [Memory.cell?] using this
      subst hw
      congr 1
      refine ih hmt hmt' (fun a => ?_)
      by_cases ha : a = x
      · subst ha
        rw [Memory.cell?_none_of_lt (fun c hc => hx c hc), Memory.cell?_none_of_lt (fun c hc => hx' c hc)]
      · have := h a
        simpa [Memory.cell?, ha] using this

/-! Reading. -/

@[simp] theorem Memory.length_readBytes (m : Memory) (d : Nat) (u : Use) : ∀ n a : Nat,
    (m.readBytes d u a n).length = n := by
  intro n
  induction n with
  | zero => intro a; rfl
  | succ n ih => intro a; simp [Memory.readBytes, ih]

theorem Memory.read_of_cell {m : Memory} {a : Nat} {v : Byte} (h : m.cell? a = some v) (d : Nat) (u : Use) :
    m.read d u a = v := by
  simp [Memory.read, h]

theorem Memory.getElem?_readBytes (m : Memory) (d : Nat) (u : Use) : ∀ n a i : Nat,
    (m.readBytes d u a n)[i]? = if i < n then some (m.read d u (a + i)) else none := by
  intro n
  induction n with
  | zero => intro a i; simp [Memory.readBytes]
  | succ n ih =>
    intro a i
    cases i with
    | zero => simp [Memory.readBytes]
    | succ i =>
      have : a + 1 + i = a + (i + 1) := by omega
      simp [Memory.readBytes, ih, this]

/-- Bytes that are all specified read as they are, whatever the draw. -/
theorem Memory.readBytes_eq {m : Memory} {a : Nat} {bs : List Byte} (h : ∀ i < bs.length, m.cell? (a + i) = bs[i]?)
    (d : Nat) (u : Use) : m.readBytes d u a bs.length = bs := by
  apply List.ext_getElem?
  intro i
  rw [Memory.getElem?_readBytes]
  by_cases hi : i < bs.length
  · have h1 := h i hi
    rw [List.getElem?_eq_getElem hi] at h1 ⊢
    simp [hi, Memory.read_of_cell h1]
  · simp [hi]

theorem Memory.readBytes_ofBytes (bs : List Byte) (d : Nat) (u : Use) :
    (Memory.ofBytes 0 bs).readBytes d u 0 bs.length = bs :=
  Memory.readBytes_eq (fun i _ => by simp [Memory.cell?_ofBytes]) d u

/-- Writing into an empty buffer, and writing what already stands there. -/
theorem Memory.putBytes_nil (bs : List Byte) : Memory.putBytes [] 0 bs = Memory.ofBytes 0 bs :=
  Memory.ext_cells (Memory.putBytes_wf bs 0 List.Pairwise.nil) (Memory.ofBytes_wf bs 0) (fun a => by
    simp only [Memory.cell?_putBytes, Memory.cell?_ofBytes, Memory.cell?]
    by_cases h : a < bs.length
    · simp [h]
    · simp [h])

theorem Memory.putBytes_ofBytes_self (bs : List Byte) :
    (Memory.ofBytes 0 bs).putBytes 0 bs = Memory.ofBytes 0 bs :=
  Memory.ext_cells (Memory.putBytes_wf bs 0 (Memory.ofBytes_wf bs 0)) (Memory.ofBytes_wf bs 0) (fun a => by
    simp only [Memory.cell?_putBytes, Memory.cell?_ofBytes]
    by_cases h : a < bs.length
    · simp [h]
    · simp [h])

/-- A canonical buffer whose cells are those of `bs` is `bs`. -/
theorem Memory.eq_ofBytes {m : Memory} (hm : m.wf) {bs : List Byte} (h : ∀ a, m.cell? a = bs[a]?) :
    m = Memory.ofBytes 0 bs :=
  Memory.ext_cells hm (Memory.ofBytes_wf bs 0) (fun a => by simp [h, Memory.cell?_ofBytes])

theorem Memory.ofBytes_map_fst (bs : List Byte) : ∀ a, (Memory.ofBytes a bs).map Prod.fst = List.range' a bs.length := by
  induction bs with
  | nil => intro a; rfl
  | cons b bs ih => intro a; simp [Memory.ofBytes, ih, List.range'_succ]

theorem Memory.ofBytes_map_snd (bs : List Byte) : ∀ a, (Memory.ofBytes a bs).map Prod.snd = bs := by
  induction bs with
  | nil => intro a; rfl
  | cons b bs ih => intro a; simp [Memory.ofBytes, ih]

theorem Memory.ofBytes_take (bs : List Byte) : ∀ a n, (Memory.ofBytes a bs).take n = Memory.ofBytes a (bs.take n) := by
  induction bs with
  | nil => intro a n; simp [Memory.ofBytes]
  | cons b bs ih =>
    intro a n
    cases n with
    | zero => rfl
    | succ n => simp [Memory.ofBytes, ih]

/-- A buffer whose offsets are exactly `a, …, a+n-1` is the bytes it holds. -/
theorem Memory.eq_ofBytes_of_support (m : Memory) : ∀ (a n : Nat), m.map Prod.fst = List.range' a n →
    m = Memory.ofBytes a (m.map Prod.snd) := by
  induction m with
  | nil => intro a n _; rfl
  | cons c m ih =>
    intro a n h
    cases n with
    | zero => simp at h
    | succ n =>
      rw [List.range'_succ, List.map_cons, List.cons.injEq] at h
      have := ih (a + 1) n (by simpa using h.2)
      obtain ⟨x, v⟩ := c
      simp only [List.map_cons, Memory.ofBytes]
      rw [← this]
      simp at h
      simp [h.1]

/-- A listed offset is a specified one. -/
theorem Memory.cell?_of_mem_fst {m : Memory} {a : Nat} (h : a ∈ m.map Prod.fst) : ∃ v, m.cell? a = some v := by
  induction m with
  | nil => simp at h
  | cons c m ih =>
    obtain ⟨b, v⟩ := c
    by_cases hab : a = b
    · exact ⟨v, by simp [Memory.cell?, hab]⟩
    · simp only [Memory.cell?, if_neg hab]
      exact ih (by simpa [hab] using h)

end Sys2Proof.Machine
end

