-- ==== Sys2Proof/Laws/State.lean ====
section
/-! SUPPORT. One lemma per field per update of the state, all by rfl: no later proof unfolds a record update. -/

namespace Sys2Proof.Machine

/-! `State.beginMutation`. -/

@[simp] theorem State.cfg_beginMutation (p : Pending) (s : State) : (s.beginMutation p).cfg = s.cfg := rfl
@[simp] theorem State.turns_beginMutation (p : Pending) (s : State) : (s.beginMutation p).turns = s.turns := rfl
@[simp] theorem State.hostOps_beginMutation (p : Pending) (s : State) : (s.beginMutation p).hostOps = s.hostOps := rfl
@[simp] theorem State.bus_beginMutation (p : Pending) (s : State) : (s.beginMutation p).bus = s.bus := rfl
@[simp] theorem State.draws_beginMutation (p : Pending) (s : State) : (s.beginMutation p).draws = s.draws := rfl
@[simp] theorem State.maxServo_beginMutation (p : Pending) (s : State) : (s.beginMutation p).maxServo = s.maxServo := rfl
@[simp] theorem State.hasDirPin_beginMutation (p : Pending) (s : State) : (s.beginMutation p).hasDirPin = s.hasDirPin := rfl
@[simp] theorem State.inited_beginMutation (p : Pending) (s : State) : (s.beginMutation p).inited = s.inited := rfl
@[simp] theorem State.count_beginMutation (p : Pending) (s : State) : (s.beginMutation p).count = s.count := rfl
@[simp] theorem State.tpl_beginMutation (p : Pending) (s : State) : (s.beginMutation p).tpl = s.tpl := rfl
@[simp] theorem State.dirty_beginMutation (p : Pending) (s : State) : (s.beginMutation p).dirty = s.dirty := rfl
@[simp] theorem State.busy_beginMutation (p : Pending) (s : State) : (s.beginMutation p).busy = true := rfl
@[simp] theorem State.pend_beginMutation (p : Pending) (s : State) : (s.beginMutation p).pend = some p := rfl
@[simp] theorem State.mir_beginMutation (p : Pending) (s : State) : (s.beginMutation p).mir = s.mir := rfl
@[simp] theorem State.eng_beginMutation (p : Pending) (s : State) : (s.beginMutation p).eng = s.eng := rfl
@[simp] theorem State.lCmd_beginMutation (p : Pending) (s : State) : (s.beginMutation p).lCmd = s.lCmd := rfl
@[simp] theorem State.lId_beginMutation (p : Pending) (s : State) : (s.beginMutation p).lId = s.lId := rfl
@[simp] theorem State.lOrder_beginMutation (p : Pending) (s : State) : (s.beginMutation p).lOrder = s.lOrder := rfl
@[simp] theorem State.lValue_beginMutation (p : Pending) (s : State) : (s.beginMutation p).lValue = s.lValue := rfl
@[simp] theorem State.lSize_beginMutation (p : Pending) (s : State) : (s.beginMutation p).lSize = s.lSize := rfl
@[simp] theorem State.sentLen_beginMutation (p : Pending) (s : State) : (s.beginMutation p).sentLen = s.sentLen := rfl
@[simp] theorem State.rxs_beginMutation (p : Pending) (s : State) : (s.beginMutation p).rxs = s.rxs := rfl
@[simp] theorem State.resCode_beginMutation (p : Pending) (s : State) : (s.beginMutation p).resCode = s.resCode := rfl
@[simp] theorem State.resValue_beginMutation (p : Pending) (s : State) : (s.beginMutation p).resValue = s.resValue := rfl
@[simp] theorem State.resValid_beginMutation (p : Pending) (s : State) : (s.beginMutation p).resValid = s.resValid := rfl
@[simp] theorem State.cidPhase_beginMutation (p : Pending) (s : State) : (s.beginMutation p).cidPhase = s.cidPhase := rfl
@[simp] theorem State.lNewid_beginMutation (p : Pending) (s : State) : (s.beginMutation p).lNewid = s.lNewid := rfl
@[simp] theorem State.dirLevel_beginMutation (p : Pending) (s : State) : (s.beginMutation p).dirLevel = s.dirLevel := rfl
@[simp] theorem State.dirOe_beginMutation (p : Pending) (s : State) : (s.beginMutation p).dirOe = s.dirOe := rfl
@[simp] theorem State.wire_beginMutation (p : Pending) (s : State) : (s.beginMutation p).wire = s.wire := rfl

/-! `State.finishMutation`. -/

@[simp] theorem State.cfg_finishMutation (s : State) : (s.finishMutation).cfg = s.cfg := rfl
@[simp] theorem State.turns_finishMutation (s : State) : (s.finishMutation).turns = s.turns := rfl
@[simp] theorem State.hostOps_finishMutation (s : State) : (s.finishMutation).hostOps = s.hostOps := rfl
@[simp] theorem State.bus_finishMutation (s : State) : (s.finishMutation).bus = s.bus := rfl
@[simp] theorem State.draws_finishMutation (s : State) : (s.finishMutation).draws = s.draws := rfl
@[simp] theorem State.maxServo_finishMutation (s : State) : (s.finishMutation).maxServo = s.maxServo := rfl
@[simp] theorem State.hasDirPin_finishMutation (s : State) : (s.finishMutation).hasDirPin = s.hasDirPin := rfl
@[simp] theorem State.inited_finishMutation (s : State) : (s.finishMutation).inited = s.inited := rfl
@[simp] theorem State.count_finishMutation (s : State) : (s.finishMutation).count = s.count := rfl
@[simp] theorem State.tpl_finishMutation (s : State) : (s.finishMutation).tpl = s.tpl := rfl
@[simp] theorem State.dirty_finishMutation (s : State) : (s.finishMutation).dirty = true := rfl
@[simp] theorem State.busy_finishMutation (s : State) : (s.finishMutation).busy = false := rfl
@[simp] theorem State.pend_finishMutation (s : State) : (s.finishMutation).pend = none := rfl
@[simp] theorem State.mir_finishMutation (s : State) : (s.finishMutation).mir = s.mir := rfl
@[simp] theorem State.eng_finishMutation (s : State) : (s.finishMutation).eng = s.eng := rfl
@[simp] theorem State.lCmd_finishMutation (s : State) : (s.finishMutation).lCmd = s.lCmd := rfl
@[simp] theorem State.lId_finishMutation (s : State) : (s.finishMutation).lId = s.lId := rfl
@[simp] theorem State.lOrder_finishMutation (s : State) : (s.finishMutation).lOrder = s.lOrder := rfl
@[simp] theorem State.lValue_finishMutation (s : State) : (s.finishMutation).lValue = s.lValue := rfl
@[simp] theorem State.lSize_finishMutation (s : State) : (s.finishMutation).lSize = s.lSize := rfl
@[simp] theorem State.sentLen_finishMutation (s : State) : (s.finishMutation).sentLen = s.sentLen := rfl
@[simp] theorem State.rxs_finishMutation (s : State) : (s.finishMutation).rxs = s.rxs := rfl
@[simp] theorem State.resCode_finishMutation (s : State) : (s.finishMutation).resCode = s.resCode := rfl
@[simp] theorem State.resValue_finishMutation (s : State) : (s.finishMutation).resValue = s.resValue := rfl
@[simp] theorem State.resValid_finishMutation (s : State) : (s.finishMutation).resValid = s.resValid := rfl
@[simp] theorem State.cidPhase_finishMutation (s : State) : (s.finishMutation).cidPhase = s.cidPhase := rfl
@[simp] theorem State.lNewid_finishMutation (s : State) : (s.finishMutation).lNewid = s.lNewid := rfl
@[simp] theorem State.dirLevel_finishMutation (s : State) : (s.finishMutation).dirLevel = s.dirLevel := rfl
@[simp] theorem State.dirOe_finishMutation (s : State) : (s.finishMutation).dirOe = s.dirOe := rfl
@[simp] theorem State.wire_finishMutation (s : State) : (s.finishMutation).wire = s.wire := rfl

/-! `State.markDirty`. -/

@[simp] theorem State.cfg_markDirty (s : State) : (s.markDirty).cfg = s.cfg := rfl
@[simp] theorem State.turns_markDirty (s : State) : (s.markDirty).turns = s.turns := rfl
@[simp] theorem State.hostOps_markDirty (s : State) : (s.markDirty).hostOps = s.hostOps := rfl
@[simp] theorem State.bus_markDirty (s : State) : (s.markDirty).bus = s.bus := rfl
@[simp] theorem State.draws_markDirty (s : State) : (s.markDirty).draws = s.draws := rfl
@[simp] theorem State.maxServo_markDirty (s : State) : (s.markDirty).maxServo = s.maxServo := rfl
@[simp] theorem State.hasDirPin_markDirty (s : State) : (s.markDirty).hasDirPin = s.hasDirPin := rfl
@[simp] theorem State.inited_markDirty (s : State) : (s.markDirty).inited = s.inited := rfl
@[simp] theorem State.count_markDirty (s : State) : (s.markDirty).count = s.count := rfl
@[simp] theorem State.tpl_markDirty (s : State) : (s.markDirty).tpl = s.tpl := rfl
@[simp] theorem State.dirty_markDirty (s : State) : (s.markDirty).dirty = true := rfl
@[simp] theorem State.busy_markDirty (s : State) : (s.markDirty).busy = s.busy := rfl
@[simp] theorem State.pend_markDirty (s : State) : (s.markDirty).pend = s.pend := rfl
@[simp] theorem State.mir_markDirty (s : State) : (s.markDirty).mir = s.mir := rfl
@[simp] theorem State.eng_markDirty (s : State) : (s.markDirty).eng = s.eng := rfl
@[simp] theorem State.lCmd_markDirty (s : State) : (s.markDirty).lCmd = s.lCmd := rfl
@[simp] theorem State.lId_markDirty (s : State) : (s.markDirty).lId = s.lId := rfl
@[simp] theorem State.lOrder_markDirty (s : State) : (s.markDirty).lOrder = s.lOrder := rfl
@[simp] theorem State.lValue_markDirty (s : State) : (s.markDirty).lValue = s.lValue := rfl
@[simp] theorem State.lSize_markDirty (s : State) : (s.markDirty).lSize = s.lSize := rfl
@[simp] theorem State.sentLen_markDirty (s : State) : (s.markDirty).sentLen = s.sentLen := rfl
@[simp] theorem State.rxs_markDirty (s : State) : (s.markDirty).rxs = s.rxs := rfl
@[simp] theorem State.resCode_markDirty (s : State) : (s.markDirty).resCode = s.resCode := rfl
@[simp] theorem State.resValue_markDirty (s : State) : (s.markDirty).resValue = s.resValue := rfl
@[simp] theorem State.resValid_markDirty (s : State) : (s.markDirty).resValid = s.resValid := rfl
@[simp] theorem State.cidPhase_markDirty (s : State) : (s.markDirty).cidPhase = s.cidPhase := rfl
@[simp] theorem State.lNewid_markDirty (s : State) : (s.markDirty).lNewid = s.lNewid := rfl
@[simp] theorem State.dirLevel_markDirty (s : State) : (s.markDirty).dirLevel = s.dirLevel := rfl
@[simp] theorem State.dirOe_markDirty (s : State) : (s.markDirty).dirOe = s.dirOe := rfl
@[simp] theorem State.wire_markDirty (s : State) : (s.markDirty).wire = s.wire := rfl

/-! `State.clearDirty`. -/

@[simp] theorem State.cfg_clearDirty (s : State) : (s.clearDirty).cfg = s.cfg := rfl
@[simp] theorem State.turns_clearDirty (s : State) : (s.clearDirty).turns = s.turns := rfl
@[simp] theorem State.hostOps_clearDirty (s : State) : (s.clearDirty).hostOps = s.hostOps := rfl
@[simp] theorem State.bus_clearDirty (s : State) : (s.clearDirty).bus = s.bus := rfl
@[simp] theorem State.draws_clearDirty (s : State) : (s.clearDirty).draws = s.draws := rfl
@[simp] theorem State.maxServo_clearDirty (s : State) : (s.clearDirty).maxServo = s.maxServo := rfl
@[simp] theorem State.hasDirPin_clearDirty (s : State) : (s.clearDirty).hasDirPin = s.hasDirPin := rfl
@[simp] theorem State.inited_clearDirty (s : State) : (s.clearDirty).inited = s.inited := rfl
@[simp] theorem State.count_clearDirty (s : State) : (s.clearDirty).count = s.count := rfl
@[simp] theorem State.tpl_clearDirty (s : State) : (s.clearDirty).tpl = s.tpl := rfl
@[simp] theorem State.dirty_clearDirty (s : State) : (s.clearDirty).dirty = false := rfl
@[simp] theorem State.busy_clearDirty (s : State) : (s.clearDirty).busy = s.busy := rfl
@[simp] theorem State.pend_clearDirty (s : State) : (s.clearDirty).pend = s.pend := rfl
@[simp] theorem State.mir_clearDirty (s : State) : (s.clearDirty).mir = s.mir := rfl
@[simp] theorem State.eng_clearDirty (s : State) : (s.clearDirty).eng = s.eng := rfl
@[simp] theorem State.lCmd_clearDirty (s : State) : (s.clearDirty).lCmd = s.lCmd := rfl
@[simp] theorem State.lId_clearDirty (s : State) : (s.clearDirty).lId = s.lId := rfl
@[simp] theorem State.lOrder_clearDirty (s : State) : (s.clearDirty).lOrder = s.lOrder := rfl
@[simp] theorem State.lValue_clearDirty (s : State) : (s.clearDirty).lValue = s.lValue := rfl
@[simp] theorem State.lSize_clearDirty (s : State) : (s.clearDirty).lSize = s.lSize := rfl
@[simp] theorem State.sentLen_clearDirty (s : State) : (s.clearDirty).sentLen = s.sentLen := rfl
@[simp] theorem State.rxs_clearDirty (s : State) : (s.clearDirty).rxs = s.rxs := rfl
@[simp] theorem State.resCode_clearDirty (s : State) : (s.clearDirty).resCode = s.resCode := rfl
@[simp] theorem State.resValue_clearDirty (s : State) : (s.clearDirty).resValue = s.resValue := rfl
@[simp] theorem State.resValid_clearDirty (s : State) : (s.clearDirty).resValid = s.resValid := rfl
@[simp] theorem State.cidPhase_clearDirty (s : State) : (s.clearDirty).cidPhase = s.cidPhase := rfl
@[simp] theorem State.lNewid_clearDirty (s : State) : (s.clearDirty).lNewid = s.lNewid := rfl
@[simp] theorem State.dirLevel_clearDirty (s : State) : (s.clearDirty).dirLevel = s.dirLevel := rfl
@[simp] theorem State.dirOe_clearDirty (s : State) : (s.clearDirty).dirOe = s.dirOe := rfl
@[simp] theorem State.wire_clearDirty (s : State) : (s.clearDirty).wire = s.wire := rfl

/-! `State.log`. -/

@[simp] theorem State.cfg_log (es : List Event) (s : State) : (s.log es).cfg = s.cfg := rfl
@[simp] theorem State.turns_log (es : List Event) (s : State) : (s.log es).turns = s.turns := rfl
@[simp] theorem State.hostOps_log (es : List Event) (s : State) : (s.log es).hostOps = s.hostOps := rfl
@[simp] theorem State.bus_log (es : List Event) (s : State) : (s.log es).bus = s.bus := rfl
@[simp] theorem State.draws_log (es : List Event) (s : State) : (s.log es).draws = s.draws := rfl
@[simp] theorem State.maxServo_log (es : List Event) (s : State) : (s.log es).maxServo = s.maxServo := rfl
@[simp] theorem State.hasDirPin_log (es : List Event) (s : State) : (s.log es).hasDirPin = s.hasDirPin := rfl
@[simp] theorem State.inited_log (es : List Event) (s : State) : (s.log es).inited = s.inited := rfl
@[simp] theorem State.count_log (es : List Event) (s : State) : (s.log es).count = s.count := rfl
@[simp] theorem State.tpl_log (es : List Event) (s : State) : (s.log es).tpl = s.tpl := rfl
@[simp] theorem State.dirty_log (es : List Event) (s : State) : (s.log es).dirty = s.dirty := rfl
@[simp] theorem State.busy_log (es : List Event) (s : State) : (s.log es).busy = s.busy := rfl
@[simp] theorem State.pend_log (es : List Event) (s : State) : (s.log es).pend = s.pend := rfl
@[simp] theorem State.mir_log (es : List Event) (s : State) : (s.log es).mir = s.mir := rfl
@[simp] theorem State.eng_log (es : List Event) (s : State) : (s.log es).eng = s.eng := rfl
@[simp] theorem State.lCmd_log (es : List Event) (s : State) : (s.log es).lCmd = s.lCmd := rfl
@[simp] theorem State.lId_log (es : List Event) (s : State) : (s.log es).lId = s.lId := rfl
@[simp] theorem State.lOrder_log (es : List Event) (s : State) : (s.log es).lOrder = s.lOrder := rfl
@[simp] theorem State.lValue_log (es : List Event) (s : State) : (s.log es).lValue = s.lValue := rfl
@[simp] theorem State.lSize_log (es : List Event) (s : State) : (s.log es).lSize = s.lSize := rfl
@[simp] theorem State.sentLen_log (es : List Event) (s : State) : (s.log es).sentLen = s.sentLen := rfl
@[simp] theorem State.rxs_log (es : List Event) (s : State) : (s.log es).rxs = s.rxs := rfl
@[simp] theorem State.resCode_log (es : List Event) (s : State) : (s.log es).resCode = s.resCode := rfl
@[simp] theorem State.resValue_log (es : List Event) (s : State) : (s.log es).resValue = s.resValue := rfl
@[simp] theorem State.resValid_log (es : List Event) (s : State) : (s.log es).resValid = s.resValid := rfl
@[simp] theorem State.cidPhase_log (es : List Event) (s : State) : (s.log es).cidPhase = s.cidPhase := rfl
@[simp] theorem State.lNewid_log (es : List Event) (s : State) : (s.log es).lNewid = s.lNewid := rfl
@[simp] theorem State.dirLevel_log (es : List Event) (s : State) : (s.log es).dirLevel = s.dirLevel := rfl
@[simp] theorem State.dirOe_log (es : List Event) (s : State) : (s.log es).dirOe = s.dirOe := rfl
@[simp] theorem State.wire_log (es : List Event) (s : State) : (s.log es).wire = s.wire ++ es := rfl

/-! `State.turnPin`. -/

@[simp] theorem State.cfg_turnPin (s : State) : (s.turnPin).cfg = s.cfg := rfl
@[simp] theorem State.turns_turnPin (s : State) : (s.turnPin).turns = s.turns := rfl
@[simp] theorem State.hostOps_turnPin (s : State) : (s.turnPin).hostOps = s.hostOps := rfl
@[simp] theorem State.bus_turnPin (s : State) : (s.turnPin).bus = s.bus := rfl
@[simp] theorem State.draws_turnPin (s : State) : (s.turnPin).draws = s.draws := rfl
@[simp] theorem State.maxServo_turnPin (s : State) : (s.turnPin).maxServo = s.maxServo := rfl
@[simp] theorem State.hasDirPin_turnPin (s : State) : (s.turnPin).hasDirPin = s.hasDirPin := rfl
@[simp] theorem State.inited_turnPin (s : State) : (s.turnPin).inited = s.inited := rfl
@[simp] theorem State.count_turnPin (s : State) : (s.turnPin).count = s.count := rfl
@[simp] theorem State.tpl_turnPin (s : State) : (s.turnPin).tpl = s.tpl := rfl
@[simp] theorem State.dirty_turnPin (s : State) : (s.turnPin).dirty = s.dirty := rfl
@[simp] theorem State.busy_turnPin (s : State) : (s.turnPin).busy = s.busy := rfl
@[simp] theorem State.pend_turnPin (s : State) : (s.turnPin).pend = s.pend := rfl
@[simp] theorem State.mir_turnPin (s : State) : (s.turnPin).mir = s.mir := rfl
@[simp] theorem State.eng_turnPin (s : State) : (s.turnPin).eng = s.eng := rfl
@[simp] theorem State.lCmd_turnPin (s : State) : (s.turnPin).lCmd = s.lCmd := rfl
@[simp] theorem State.lId_turnPin (s : State) : (s.turnPin).lId = s.lId := rfl
@[simp] theorem State.lOrder_turnPin (s : State) : (s.turnPin).lOrder = s.lOrder := rfl
@[simp] theorem State.lValue_turnPin (s : State) : (s.turnPin).lValue = s.lValue := rfl
@[simp] theorem State.lSize_turnPin (s : State) : (s.turnPin).lSize = s.lSize := rfl
@[simp] theorem State.sentLen_turnPin (s : State) : (s.turnPin).sentLen = s.sentLen := rfl
@[simp] theorem State.rxs_turnPin (s : State) : (s.turnPin).rxs = s.rxs := rfl
@[simp] theorem State.resCode_turnPin (s : State) : (s.turnPin).resCode = s.resCode := rfl
@[simp] theorem State.resValue_turnPin (s : State) : (s.turnPin).resValue = s.resValue := rfl
@[simp] theorem State.resValid_turnPin (s : State) : (s.turnPin).resValid = s.resValid := rfl
@[simp] theorem State.cidPhase_turnPin (s : State) : (s.turnPin).cidPhase = s.cidPhase := rfl
@[simp] theorem State.lNewid_turnPin (s : State) : (s.turnPin).lNewid = s.lNewid := rfl
@[simp] theorem State.dirLevel_turnPin (s : State) : (s.turnPin).dirLevel = if s.hasDirPin then true else s.dirLevel := rfl
@[simp] theorem State.dirOe_turnPin (s : State) : (s.turnPin).dirOe = s.dirOe := rfl
@[simp] theorem State.wire_turnPin (s : State) : (s.turnPin).wire = s.wire ++ (if s.hasDirPin then [.dir true] else []) := rfl

/-! `State.restorePin`. -/

@[simp] theorem State.cfg_restorePin (s : State) : (s.restorePin).cfg = s.cfg := rfl
@[simp] theorem State.turns_restorePin (s : State) : (s.restorePin).turns = s.turns := rfl
@[simp] theorem State.hostOps_restorePin (s : State) : (s.restorePin).hostOps = s.hostOps := rfl
@[simp] theorem State.bus_restorePin (s : State) : (s.restorePin).bus = s.bus := rfl
@[simp] theorem State.draws_restorePin (s : State) : (s.restorePin).draws = s.draws := rfl
@[simp] theorem State.maxServo_restorePin (s : State) : (s.restorePin).maxServo = s.maxServo := rfl
@[simp] theorem State.hasDirPin_restorePin (s : State) : (s.restorePin).hasDirPin = s.hasDirPin := rfl
@[simp] theorem State.inited_restorePin (s : State) : (s.restorePin).inited = s.inited := rfl
@[simp] theorem State.count_restorePin (s : State) : (s.restorePin).count = s.count := rfl
@[simp] theorem State.tpl_restorePin (s : State) : (s.restorePin).tpl = s.tpl := rfl
@[simp] theorem State.dirty_restorePin (s : State) : (s.restorePin).dirty = s.dirty := rfl
@[simp] theorem State.busy_restorePin (s : State) : (s.restorePin).busy = s.busy := rfl
@[simp] theorem State.pend_restorePin (s : State) : (s.restorePin).pend = s.pend := rfl
@[simp] theorem State.mir_restorePin (s : State) : (s.restorePin).mir = s.mir := rfl
@[simp] theorem State.eng_restorePin (s : State) : (s.restorePin).eng = s.eng := rfl
@[simp] theorem State.lCmd_restorePin (s : State) : (s.restorePin).lCmd = s.lCmd := rfl
@[simp] theorem State.lId_restorePin (s : State) : (s.restorePin).lId = s.lId := rfl
@[simp] theorem State.lOrder_restorePin (s : State) : (s.restorePin).lOrder = s.lOrder := rfl
@[simp] theorem State.lValue_restorePin (s : State) : (s.restorePin).lValue = s.lValue := rfl
@[simp] theorem State.lSize_restorePin (s : State) : (s.restorePin).lSize = s.lSize := rfl
@[simp] theorem State.sentLen_restorePin (s : State) : (s.restorePin).sentLen = s.sentLen := rfl
@[simp] theorem State.rxs_restorePin (s : State) : (s.restorePin).rxs = s.rxs := rfl
@[simp] theorem State.resCode_restorePin (s : State) : (s.restorePin).resCode = s.resCode := rfl
@[simp] theorem State.resValue_restorePin (s : State) : (s.restorePin).resValue = s.resValue := rfl
@[simp] theorem State.resValid_restorePin (s : State) : (s.restorePin).resValid = s.resValid := rfl
@[simp] theorem State.cidPhase_restorePin (s : State) : (s.restorePin).cidPhase = s.cidPhase := rfl
@[simp] theorem State.lNewid_restorePin (s : State) : (s.restorePin).lNewid = s.lNewid := rfl
@[simp] theorem State.dirLevel_restorePin (s : State) : (s.restorePin).dirLevel = if s.hasDirPin then false else s.dirLevel := rfl
@[simp] theorem State.dirOe_restorePin (s : State) : (s.restorePin).dirOe = s.dirOe := rfl
@[simp] theorem State.wire_restorePin (s : State) : (s.restorePin).wire = s.wire ++ (if s.hasDirPin then [.dir false] else []) := rfl

/-! `State.readBus`. -/

@[simp] theorem State.cfg_readBus (n : Nat) (s : State) : (s.readBus n).cfg = s.cfg := rfl
@[simp] theorem State.turns_readBus (n : Nat) (s : State) : (s.readBus n).turns = s.turns := rfl
@[simp] theorem State.hostOps_readBus (n : Nat) (s : State) : (s.readBus n).hostOps = s.hostOps := rfl
@[simp] theorem State.bus_readBus (n : Nat) (s : State) : (s.readBus n).bus = s.bus.tail := rfl
@[simp] theorem State.draws_readBus (n : Nat) (s : State) : (s.readBus n).draws = s.draws := rfl
@[simp] theorem State.maxServo_readBus (n : Nat) (s : State) : (s.readBus n).maxServo = s.maxServo := rfl
@[simp] theorem State.hasDirPin_readBus (n : Nat) (s : State) : (s.readBus n).hasDirPin = s.hasDirPin := rfl
@[simp] theorem State.inited_readBus (n : Nat) (s : State) : (s.readBus n).inited = s.inited := rfl
@[simp] theorem State.count_readBus (n : Nat) (s : State) : (s.readBus n).count = s.count := rfl
@[simp] theorem State.tpl_readBus (n : Nat) (s : State) : (s.readBus n).tpl = s.tpl := rfl
@[simp] theorem State.dirty_readBus (n : Nat) (s : State) : (s.readBus n).dirty = s.dirty := rfl
@[simp] theorem State.busy_readBus (n : Nat) (s : State) : (s.readBus n).busy = s.busy := rfl
@[simp] theorem State.pend_readBus (n : Nat) (s : State) : (s.readBus n).pend = s.pend := rfl
@[simp] theorem State.mir_readBus (n : Nat) (s : State) : (s.readBus n).mir = s.mir := rfl
@[simp] theorem State.eng_readBus (n : Nat) (s : State) : (s.readBus n).eng = s.eng := rfl
@[simp] theorem State.lCmd_readBus (n : Nat) (s : State) : (s.readBus n).lCmd = s.lCmd := rfl
@[simp] theorem State.lId_readBus (n : Nat) (s : State) : (s.readBus n).lId = s.lId := rfl
@[simp] theorem State.lOrder_readBus (n : Nat) (s : State) : (s.readBus n).lOrder = s.lOrder := rfl
@[simp] theorem State.lValue_readBus (n : Nat) (s : State) : (s.readBus n).lValue = s.lValue := rfl
@[simp] theorem State.lSize_readBus (n : Nat) (s : State) : (s.readBus n).lSize = s.lSize := rfl
@[simp] theorem State.sentLen_readBus (n : Nat) (s : State) : (s.readBus n).sentLen = s.sentLen := rfl
@[simp] theorem State.rxs_readBus (n : Nat) (s : State) : (s.readBus n).rxs = s.rxs := rfl
@[simp] theorem State.resCode_readBus (n : Nat) (s : State) : (s.readBus n).resCode = s.resCode := rfl
@[simp] theorem State.resValue_readBus (n : Nat) (s : State) : (s.readBus n).resValue = s.resValue := rfl
@[simp] theorem State.resValid_readBus (n : Nat) (s : State) : (s.readBus n).resValid = s.resValid := rfl
@[simp] theorem State.cidPhase_readBus (n : Nat) (s : State) : (s.readBus n).cidPhase = s.cidPhase := rfl
@[simp] theorem State.lNewid_readBus (n : Nat) (s : State) : (s.readBus n).lNewid = s.lNewid := rfl
@[simp] theorem State.dirLevel_readBus (n : Nat) (s : State) : (s.readBus n).dirLevel = s.dirLevel := rfl
@[simp] theorem State.dirOe_readBus (n : Nat) (s : State) : (s.readBus n).dirOe = s.dirOe := rfl
@[simp] theorem State.wire_readBus (n : Nat) (s : State) : (s.readBus n).wire = s.wire ++ [.read n (s.busAnswer n)] := rfl

/-! `State.complete`. -/

@[simp] theorem State.cfg_complete (c : ResCode) (v : Option Word) (s : State) : (s.complete c v).cfg = s.cfg := rfl
@[simp] theorem State.turns_complete (c : ResCode) (v : Option Word) (s : State) : (s.complete c v).turns = s.turns := rfl
@[simp] theorem State.hostOps_complete (c : ResCode) (v : Option Word) (s : State) : (s.complete c v).hostOps = s.hostOps := rfl
@[simp] theorem State.bus_complete (c : ResCode) (v : Option Word) (s : State) : (s.complete c v).bus = s.bus := rfl
@[simp] theorem State.draws_complete (c : ResCode) (v : Option Word) (s : State) : (s.complete c v).draws = s.draws := rfl
@[simp] theorem State.maxServo_complete (c : ResCode) (v : Option Word) (s : State) : (s.complete c v).maxServo = s.maxServo := rfl
@[simp] theorem State.hasDirPin_complete (c : ResCode) (v : Option Word) (s : State) : (s.complete c v).hasDirPin = s.hasDirPin := rfl
@[simp] theorem State.inited_complete (c : ResCode) (v : Option Word) (s : State) : (s.complete c v).inited = s.inited := rfl
@[simp] theorem State.count_complete (c : ResCode) (v : Option Word) (s : State) : (s.complete c v).count = s.count := rfl
@[simp] theorem State.tpl_complete (c : ResCode) (v : Option Word) (s : State) : (s.complete c v).tpl = s.tpl := rfl
@[simp] theorem State.dirty_complete (c : ResCode) (v : Option Word) (s : State) : (s.complete c v).dirty = s.dirty := rfl
@[simp] theorem State.busy_complete (c : ResCode) (v : Option Word) (s : State) : (s.complete c v).busy = s.busy := rfl
@[simp] theorem State.pend_complete (c : ResCode) (v : Option Word) (s : State) : (s.complete c v).pend = s.pend := rfl
@[simp] theorem State.mir_complete (c : ResCode) (v : Option Word) (s : State) : (s.complete c v).mir = s.mir := rfl
@[simp] theorem State.eng_complete (c : ResCode) (v : Option Word) (s : State) : (s.complete c v).eng = s.eng := rfl
@[simp] theorem State.lCmd_complete (c : ResCode) (v : Option Word) (s : State) : (s.complete c v).lCmd = s.lCmd := rfl
@[simp] theorem State.lId_complete (c : ResCode) (v : Option Word) (s : State) : (s.complete c v).lId = s.lId := rfl
@[simp] theorem State.lOrder_complete (c : ResCode) (v : Option Word) (s : State) : (s.complete c v).lOrder = s.lOrder := rfl
@[simp] theorem State.lValue_complete (c : ResCode) (v : Option Word) (s : State) : (s.complete c v).lValue = s.lValue := rfl
@[simp] theorem State.lSize_complete (c : ResCode) (v : Option Word) (s : State) : (s.complete c v).lSize = s.lSize := rfl
@[simp] theorem State.sentLen_complete (c : ResCode) (v : Option Word) (s : State) : (s.complete c v).sentLen = s.sentLen := rfl
@[simp] theorem State.rxs_complete (c : ResCode) (v : Option Word) (s : State) : (s.complete c v).rxs = s.rxs := rfl
@[simp] theorem State.resCode_complete (c : ResCode) (v : Option Word) (s : State) : (s.complete c v).resCode = c := rfl
@[simp] theorem State.resValue_complete (c : ResCode) (v : Option Word) (s : State) : (s.complete c v).resValue = v.getD (Config.freeWord s.draws) := rfl
@[simp] theorem State.resValid_complete (c : ResCode) (v : Option Word) (s : State) : (s.complete c v).resValid = v.isSome := rfl
@[simp] theorem State.cidPhase_complete (c : ResCode) (v : Option Word) (s : State) : (s.complete c v).cidPhase = s.cidPhase := rfl
@[simp] theorem State.lNewid_complete (c : ResCode) (v : Option Word) (s : State) : (s.complete c v).lNewid = s.lNewid := rfl
@[simp] theorem State.dirLevel_complete (c : ResCode) (v : Option Word) (s : State) : (s.complete c v).dirLevel = s.dirLevel := rfl
@[simp] theorem State.dirOe_complete (c : ResCode) (v : Option Word) (s : State) : (s.complete c v).dirOe = s.dirOe := rfl
@[simp] theorem State.wire_complete (c : ResCode) (v : Option Word) (s : State) : (s.complete c v).wire = s.wire := rfl

/-! `State.endExchange`. -/

@[simp] theorem State.cfg_endExchange (c : ResCode) (v : Option Word) (s : State) : (s.endExchange c v).cfg = s.cfg := rfl
@[simp] theorem State.turns_endExchange (c : ResCode) (v : Option Word) (s : State) : (s.endExchange c v).turns = s.turns := rfl
@[simp] theorem State.hostOps_endExchange (c : ResCode) (v : Option Word) (s : State) : (s.endExchange c v).hostOps = s.hostOps := rfl
@[simp] theorem State.bus_endExchange (c : ResCode) (v : Option Word) (s : State) : (s.endExchange c v).bus = s.bus := rfl
@[simp] theorem State.draws_endExchange (c : ResCode) (v : Option Word) (s : State) : (s.endExchange c v).draws = s.draws := rfl
@[simp] theorem State.maxServo_endExchange (c : ResCode) (v : Option Word) (s : State) : (s.endExchange c v).maxServo = s.maxServo := rfl
@[simp] theorem State.hasDirPin_endExchange (c : ResCode) (v : Option Word) (s : State) : (s.endExchange c v).hasDirPin = s.hasDirPin := rfl
@[simp] theorem State.inited_endExchange (c : ResCode) (v : Option Word) (s : State) : (s.endExchange c v).inited = s.inited := rfl
@[simp] theorem State.count_endExchange (c : ResCode) (v : Option Word) (s : State) : (s.endExchange c v).count = s.count := rfl
@[simp] theorem State.tpl_endExchange (c : ResCode) (v : Option Word) (s : State) : (s.endExchange c v).tpl = s.tpl := rfl
@[simp] theorem State.dirty_endExchange (c : ResCode) (v : Option Word) (s : State) : (s.endExchange c v).dirty = s.dirty := rfl
@[simp] theorem State.busy_endExchange (c : ResCode) (v : Option Word) (s : State) : (s.endExchange c v).busy = s.busy := rfl
@[simp] theorem State.pend_endExchange (c : ResCode) (v : Option Word) (s : State) : (s.endExchange c v).pend = s.pend := rfl
@[simp] theorem State.mir_endExchange (c : ResCode) (v : Option Word) (s : State) : (s.endExchange c v).mir = s.mir := rfl
@[simp] theorem State.eng_endExchange (c : ResCode) (v : Option Word) (s : State) : (s.endExchange c v).eng = .idle := rfl
@[simp] theorem State.lCmd_endExchange (c : ResCode) (v : Option Word) (s : State) : (s.endExchange c v).lCmd = s.lCmd := rfl
@[simp] theorem State.lId_endExchange (c : ResCode) (v : Option Word) (s : State) : (s.endExchange c v).lId = s.lId := rfl
@[simp] theorem State.lOrder_endExchange (c : ResCode) (v : Option Word) (s : State) : (s.endExchange c v).lOrder = s.lOrder := rfl
@[simp] theorem State.lValue_endExchange (c : ResCode) (v : Option Word) (s : State) : (s.endExchange c v).lValue = s.lValue := rfl
@[simp] theorem State.lSize_endExchange (c : ResCode) (v : Option Word) (s : State) : (s.endExchange c v).lSize = s.lSize := rfl
@[simp] theorem State.sentLen_endExchange (c : ResCode) (v : Option Word) (s : State) : (s.endExchange c v).sentLen = s.sentLen := rfl
@[simp] theorem State.rxs_endExchange (c : ResCode) (v : Option Word) (s : State) : (s.endExchange c v).rxs = s.rxs := rfl
@[simp] theorem State.resCode_endExchange (c : ResCode) (v : Option Word) (s : State) : (s.endExchange c v).resCode = c := rfl
@[simp] theorem State.resValue_endExchange (c : ResCode) (v : Option Word) (s : State) : (s.endExchange c v).resValue = v.getD (Config.freeWord s.draws) := rfl
@[simp] theorem State.resValid_endExchange (c : ResCode) (v : Option Word) (s : State) : (s.endExchange c v).resValid = v.isSome := rfl
@[simp] theorem State.cidPhase_endExchange (c : ResCode) (v : Option Word) (s : State) : (s.endExchange c v).cidPhase = s.cidPhase.after c := rfl
@[simp] theorem State.lNewid_endExchange (c : ResCode) (v : Option Word) (s : State) : (s.endExchange c v).lNewid = s.lNewid := rfl
@[simp] theorem State.dirLevel_endExchange (c : ResCode) (v : Option Word) (s : State) : (s.endExchange c v).dirLevel = s.dirLevel := rfl
@[simp] theorem State.dirOe_endExchange (c : ResCode) (v : Option Word) (s : State) : (s.endExchange c v).dirOe = s.dirOe := rfl
@[simp] theorem State.wire_endExchange (c : ResCode) (v : Option Word) (s : State) : (s.endExchange c v).wire = s.wire := rfl

/-! `State.failExchange`. -/

@[simp] theorem State.cfg_failExchange (c : ResCode) (s : State) : (s.failExchange c).cfg = s.cfg := rfl
@[simp] theorem State.turns_failExchange (c : ResCode) (s : State) : (s.failExchange c).turns = s.turns := rfl
@[simp] theorem State.hostOps_failExchange (c : ResCode) (s : State) : (s.failExchange c).hostOps = s.hostOps := rfl
@[simp] theorem State.bus_failExchange (c : ResCode) (s : State) : (s.failExchange c).bus = s.bus := rfl
@[simp] theorem State.draws_failExchange (c : ResCode) (s : State) : (s.failExchange c).draws = s.draws := rfl
@[simp] theorem State.maxServo_failExchange (c : ResCode) (s : State) : (s.failExchange c).maxServo = s.maxServo := rfl
@[simp] theorem State.hasDirPin_failExchange (c : ResCode) (s : State) : (s.failExchange c).hasDirPin = s.hasDirPin := rfl
@[simp] theorem State.inited_failExchange (c : ResCode) (s : State) : (s.failExchange c).inited = s.inited := rfl
@[simp] theorem State.count_failExchange (c : ResCode) (s : State) : (s.failExchange c).count = s.count := rfl
@[simp] theorem State.tpl_failExchange (c : ResCode) (s : State) : (s.failExchange c).tpl = s.tpl := rfl
@[simp] theorem State.dirty_failExchange (c : ResCode) (s : State) : (s.failExchange c).dirty = s.dirty := rfl
@[simp] theorem State.busy_failExchange (c : ResCode) (s : State) : (s.failExchange c).busy = s.busy := rfl
@[simp] theorem State.pend_failExchange (c : ResCode) (s : State) : (s.failExchange c).pend = s.pend := rfl
@[simp] theorem State.mir_failExchange (c : ResCode) (s : State) : (s.failExchange c).mir = s.mir := rfl
@[simp] theorem State.eng_failExchange (c : ResCode) (s : State) : (s.failExchange c).eng = .idle := rfl
@[simp] theorem State.lCmd_failExchange (c : ResCode) (s : State) : (s.failExchange c).lCmd = s.lCmd := rfl
@[simp] theorem State.lId_failExchange (c : ResCode) (s : State) : (s.failExchange c).lId = s.lId := rfl
@[simp] theorem State.lOrder_failExchange (c : ResCode) (s : State) : (s.failExchange c).lOrder = s.lOrder := rfl
@[simp] theorem State.lValue_failExchange (c : ResCode) (s : State) : (s.failExchange c).lValue = s.lValue := rfl
@[simp] theorem State.lSize_failExchange (c : ResCode) (s : State) : (s.failExchange c).lSize = s.lSize := rfl
@[simp] theorem State.sentLen_failExchange (c : ResCode) (s : State) : (s.failExchange c).sentLen = s.sentLen := rfl
@[simp] theorem State.rxs_failExchange (c : ResCode) (s : State) : (s.failExchange c).rxs = [] := rfl
@[simp] theorem State.resCode_failExchange (c : ResCode) (s : State) : (s.failExchange c).resCode = c := rfl
@[simp] theorem State.resValue_failExchange (c : ResCode) (s : State) : (s.failExchange c).resValue = Config.freeWord s.draws := rfl
@[simp] theorem State.resValid_failExchange (c : ResCode) (s : State) : (s.failExchange c).resValid = false := rfl
@[simp] theorem State.cidPhase_failExchange (c : ResCode) (s : State) : (s.failExchange c).cidPhase = s.cidPhase.after c := rfl
@[simp] theorem State.lNewid_failExchange (c : ResCode) (s : State) : (s.failExchange c).lNewid = s.lNewid := rfl
@[simp] theorem State.dirLevel_failExchange (c : ResCode) (s : State) : (s.failExchange c).dirLevel = s.dirLevel := rfl
@[simp] theorem State.dirOe_failExchange (c : ResCode) (s : State) : (s.failExchange c).dirOe = s.dirOe := rfl
@[simp] theorem State.wire_failExchange (c : ResCode) (s : State) : (s.failExchange c).wire = s.wire := rfl

/-! `State.turnTaken`. -/

@[simp] theorem State.cfg_turnTaken (s : State) : (s.turnTaken).cfg = s.cfg := rfl
@[simp] theorem State.turns_turnTaken (s : State) : (s.turnTaken).turns = s.turns.tail := rfl
@[simp] theorem State.hostOps_turnTaken (s : State) : (s.turnTaken).hostOps = s.hostOps := rfl
@[simp] theorem State.bus_turnTaken (s : State) : (s.turnTaken).bus = s.bus := rfl
@[simp] theorem State.draws_turnTaken (s : State) : (s.turnTaken).draws = s.draws + 1 := rfl
@[simp] theorem State.maxServo_turnTaken (s : State) : (s.turnTaken).maxServo = s.maxServo := rfl
@[simp] theorem State.hasDirPin_turnTaken (s : State) : (s.turnTaken).hasDirPin = s.hasDirPin := rfl
@[simp] theorem State.inited_turnTaken (s : State) : (s.turnTaken).inited = s.inited := rfl
@[simp] theorem State.count_turnTaken (s : State) : (s.turnTaken).count = s.count := rfl
@[simp] theorem State.tpl_turnTaken (s : State) : (s.turnTaken).tpl = s.tpl := rfl
@[simp] theorem State.dirty_turnTaken (s : State) : (s.turnTaken).dirty = s.dirty := rfl
@[simp] theorem State.busy_turnTaken (s : State) : (s.turnTaken).busy = s.busy := rfl
@[simp] theorem State.pend_turnTaken (s : State) : (s.turnTaken).pend = s.pend := rfl
@[simp] theorem State.mir_turnTaken (s : State) : (s.turnTaken).mir = s.mir := rfl
@[simp] theorem State.eng_turnTaken (s : State) : (s.turnTaken).eng = s.eng := rfl
@[simp] theorem State.lCmd_turnTaken (s : State) : (s.turnTaken).lCmd = s.lCmd := rfl
@[simp] theorem State.lId_turnTaken (s : State) : (s.turnTaken).lId = s.lId := rfl
@[simp] theorem State.lOrder_turnTaken (s : State) : (s.turnTaken).lOrder = s.lOrder := rfl
@[simp] theorem State.lValue_turnTaken (s : State) : (s.turnTaken).lValue = s.lValue := rfl
@[simp] theorem State.lSize_turnTaken (s : State) : (s.turnTaken).lSize = s.lSize := rfl
@[simp] theorem State.sentLen_turnTaken (s : State) : (s.turnTaken).sentLen = s.sentLen := rfl
@[simp] theorem State.rxs_turnTaken (s : State) : (s.turnTaken).rxs = s.rxs := rfl
@[simp] theorem State.resCode_turnTaken (s : State) : (s.turnTaken).resCode = s.resCode := rfl
@[simp] theorem State.resValue_turnTaken (s : State) : (s.turnTaken).resValue = s.resValue := rfl
@[simp] theorem State.resValid_turnTaken (s : State) : (s.turnTaken).resValid = s.resValid := rfl
@[simp] theorem State.cidPhase_turnTaken (s : State) : (s.turnTaken).cidPhase = s.cidPhase := rfl
@[simp] theorem State.lNewid_turnTaken (s : State) : (s.turnTaken).lNewid = s.lNewid := rfl
@[simp] theorem State.dirLevel_turnTaken (s : State) : (s.turnTaken).dirLevel = s.dirLevel := rfl
@[simp] theorem State.dirOe_turnTaken (s : State) : (s.turnTaken).dirOe = s.dirOe := rfl
@[simp] theorem State.wire_turnTaken (s : State) : (s.turnTaken).wire = s.wire := rfl

/-! `State.sealLength`. -/

@[simp] theorem State.cfg_sealLength (s : State) : (s.sealLength).cfg = s.cfg := rfl
@[simp] theorem State.turns_sealLength (s : State) : (s.sealLength).turns = s.turns := rfl
@[simp] theorem State.hostOps_sealLength (s : State) : (s.sealLength).hostOps = s.hostOps := rfl
@[simp] theorem State.bus_sealLength (s : State) : (s.sealLength).bus = s.bus := rfl
@[simp] theorem State.draws_sealLength (s : State) : (s.sealLength).draws = s.draws := rfl
@[simp] theorem State.maxServo_sealLength (s : State) : (s.sealLength).maxServo = s.maxServo := rfl
@[simp] theorem State.hasDirPin_sealLength (s : State) : (s.sealLength).hasDirPin = s.hasDirPin := rfl
@[simp] theorem State.inited_sealLength (s : State) : (s.sealLength).inited = s.inited := rfl
@[simp] theorem State.count_sealLength (s : State) : (s.sealLength).count = s.count := rfl
@[simp] theorem State.tpl_sealLength (s : State) : (s.sealLength).tpl = s.tpl.put 1 (lengthByte (2 + 4 * s.count)) := rfl
@[simp] theorem State.dirty_sealLength (s : State) : (s.sealLength).dirty = s.dirty := rfl
@[simp] theorem State.busy_sealLength (s : State) : (s.sealLength).busy = s.busy := rfl
@[simp] theorem State.pend_sealLength (s : State) : (s.sealLength).pend = s.pend := rfl
@[simp] theorem State.mir_sealLength (s : State) : (s.sealLength).mir = s.mir := rfl
@[simp] theorem State.eng_sealLength (s : State) : (s.sealLength).eng = s.eng := rfl
@[simp] theorem State.lCmd_sealLength (s : State) : (s.sealLength).lCmd = s.lCmd := rfl
@[simp] theorem State.lId_sealLength (s : State) : (s.sealLength).lId = s.lId := rfl
@[simp] theorem State.lOrder_sealLength (s : State) : (s.sealLength).lOrder = s.lOrder := rfl
@[simp] theorem State.lValue_sealLength (s : State) : (s.sealLength).lValue = s.lValue := rfl
@[simp] theorem State.lSize_sealLength (s : State) : (s.sealLength).lSize = s.lSize := rfl
@[simp] theorem State.sentLen_sealLength (s : State) : (s.sealLength).sentLen = s.sentLen := rfl
@[simp] theorem State.rxs_sealLength (s : State) : (s.sealLength).rxs = s.rxs := rfl
@[simp] theorem State.resCode_sealLength (s : State) : (s.sealLength).resCode = s.resCode := rfl
@[simp] theorem State.resValue_sealLength (s : State) : (s.sealLength).resValue = s.resValue := rfl
@[simp] theorem State.resValid_sealLength (s : State) : (s.sealLength).resValid = s.resValid := rfl
@[simp] theorem State.cidPhase_sealLength (s : State) : (s.sealLength).cidPhase = s.cidPhase := rfl
@[simp] theorem State.lNewid_sealLength (s : State) : (s.sealLength).lNewid = s.lNewid := rfl
@[simp] theorem State.dirLevel_sealLength (s : State) : (s.sealLength).dirLevel = s.dirLevel := rfl
@[simp] theorem State.dirOe_sealLength (s : State) : (s.sealLength).dirOe = s.dirOe := rfl
@[simp] theorem State.wire_sealLength (s : State) : (s.sealLength).wire = s.wire := rfl

/-! `State.sealChecksum`. -/

@[simp] theorem State.cfg_sealChecksum (s : State) : (s.sealChecksum).cfg = s.cfg := rfl
@[simp] theorem State.turns_sealChecksum (s : State) : (s.sealChecksum).turns = s.turns := rfl
@[simp] theorem State.hostOps_sealChecksum (s : State) : (s.sealChecksum).hostOps = s.hostOps := rfl
@[simp] theorem State.bus_sealChecksum (s : State) : (s.sealChecksum).bus = s.bus := rfl
@[simp] theorem State.draws_sealChecksum (s : State) : (s.sealChecksum).draws = s.draws := rfl
@[simp] theorem State.maxServo_sealChecksum (s : State) : (s.sealChecksum).maxServo = s.maxServo := rfl
@[simp] theorem State.hasDirPin_sealChecksum (s : State) : (s.sealChecksum).hasDirPin = s.hasDirPin := rfl
@[simp] theorem State.inited_sealChecksum (s : State) : (s.sealChecksum).inited = s.inited := rfl
@[simp] theorem State.count_sealChecksum (s : State) : (s.sealChecksum).count = s.count := rfl
@[simp] theorem State.tpl_sealChecksum (s : State) : (s.sealChecksum).tpl = s.tpl.put (entryAt s.count) (crc8 s.cfg (s.tplBytes .checksum 0 (entryAt s.count))) := rfl
@[simp] theorem State.dirty_sealChecksum (s : State) : (s.sealChecksum).dirty = s.dirty := rfl
@[simp] theorem State.busy_sealChecksum (s : State) : (s.sealChecksum).busy = s.busy := rfl
@[simp] theorem State.pend_sealChecksum (s : State) : (s.sealChecksum).pend = s.pend := rfl
@[simp] theorem State.mir_sealChecksum (s : State) : (s.sealChecksum).mir = s.mir := rfl
@[simp] theorem State.eng_sealChecksum (s : State) : (s.sealChecksum).eng = s.eng := rfl
@[simp] theorem State.lCmd_sealChecksum (s : State) : (s.sealChecksum).lCmd = s.lCmd := rfl
@[simp] theorem State.lId_sealChecksum (s : State) : (s.sealChecksum).lId = s.lId := rfl
@[simp] theorem State.lOrder_sealChecksum (s : State) : (s.sealChecksum).lOrder = s.lOrder := rfl
@[simp] theorem State.lValue_sealChecksum (s : State) : (s.sealChecksum).lValue = s.lValue := rfl
@[simp] theorem State.lSize_sealChecksum (s : State) : (s.sealChecksum).lSize = s.lSize := rfl
@[simp] theorem State.sentLen_sealChecksum (s : State) : (s.sealChecksum).sentLen = s.sentLen := rfl
@[simp] theorem State.rxs_sealChecksum (s : State) : (s.sealChecksum).rxs = s.rxs := rfl
@[simp] theorem State.resCode_sealChecksum (s : State) : (s.sealChecksum).resCode = s.resCode := rfl
@[simp] theorem State.resValue_sealChecksum (s : State) : (s.sealChecksum).resValue = s.resValue := rfl
@[simp] theorem State.resValid_sealChecksum (s : State) : (s.sealChecksum).resValid = s.resValid := rfl
@[simp] theorem State.cidPhase_sealChecksum (s : State) : (s.sealChecksum).cidPhase = s.cidPhase := rfl
@[simp] theorem State.lNewid_sealChecksum (s : State) : (s.sealChecksum).lNewid = s.lNewid := rfl
@[simp] theorem State.dirLevel_sealChecksum (s : State) : (s.sealChecksum).dirLevel = s.dirLevel := rfl
@[simp] theorem State.dirOe_sealChecksum (s : State) : (s.sealChecksum).dirOe = s.dirOe := rfl
@[simp] theorem State.wire_sealChecksum (s : State) : (s.sealChecksum).wire = s.wire := rfl

/-! `State.dropDead`. -/

@[simp] theorem State.cfg_dropDead (s : State) : (s.dropDead).cfg = s.cfg := rfl
@[simp] theorem State.turns_dropDead (s : State) : (s.dropDead).turns = s.turns := rfl
@[simp] theorem State.hostOps_dropDead (s : State) : (s.dropDead).hostOps = s.hostOps := rfl
@[simp] theorem State.bus_dropDead (s : State) : (s.dropDead).bus = s.bus := rfl
@[simp] theorem State.draws_dropDead (s : State) : (s.dropDead).draws = s.draws := rfl
@[simp] theorem State.maxServo_dropDead (s : State) : (s.dropDead).maxServo = s.maxServo := rfl
@[simp] theorem State.hasDirPin_dropDead (s : State) : (s.dropDead).hasDirPin = s.hasDirPin := rfl
@[simp] theorem State.inited_dropDead (s : State) : (s.dropDead).inited = s.inited := rfl
@[simp] theorem State.count_dropDead (s : State) : (s.dropDead).count = s.count := rfl
@[simp] theorem State.tpl_dropDead (s : State) : (s.dropDead).tpl = s.tpl.keepBelow (entryAt s.count + 1) := rfl
@[simp] theorem State.dirty_dropDead (s : State) : (s.dropDead).dirty = s.dirty := rfl
@[simp] theorem State.busy_dropDead (s : State) : (s.dropDead).busy = s.busy := rfl
@[simp] theorem State.pend_dropDead (s : State) : (s.dropDead).pend = s.pend := rfl
@[simp] theorem State.mir_dropDead (s : State) : (s.dropDead).mir = s.mir := rfl
@[simp] theorem State.eng_dropDead (s : State) : (s.dropDead).eng = s.eng := rfl
@[simp] theorem State.lCmd_dropDead (s : State) : (s.dropDead).lCmd = s.lCmd := rfl
@[simp] theorem State.lId_dropDead (s : State) : (s.dropDead).lId = s.lId := rfl
@[simp] theorem State.lOrder_dropDead (s : State) : (s.dropDead).lOrder = s.lOrder := rfl
@[simp] theorem State.lValue_dropDead (s : State) : (s.dropDead).lValue = s.lValue := rfl
@[simp] theorem State.lSize_dropDead (s : State) : (s.dropDead).lSize = s.lSize := rfl
@[simp] theorem State.sentLen_dropDead (s : State) : (s.dropDead).sentLen = s.sentLen := rfl
@[simp] theorem State.rxs_dropDead (s : State) : (s.dropDead).rxs = s.rxs := rfl
@[simp] theorem State.resCode_dropDead (s : State) : (s.dropDead).resCode = s.resCode := rfl
@[simp] theorem State.resValue_dropDead (s : State) : (s.dropDead).resValue = s.resValue := rfl
@[simp] theorem State.resValid_dropDead (s : State) : (s.dropDead).resValid = s.resValid := rfl
@[simp] theorem State.cidPhase_dropDead (s : State) : (s.dropDead).cidPhase = s.cidPhase := rfl
@[simp] theorem State.lNewid_dropDead (s : State) : (s.dropDead).lNewid = s.lNewid := rfl
@[simp] theorem State.dirLevel_dropDead (s : State) : (s.dropDead).dirLevel = s.dirLevel := rfl
@[simp] theorem State.dirOe_dropDead (s : State) : (s.dropDead).dirOe = s.dirOe := rfl
@[simp] theorem State.wire_dropDead (s : State) : (s.dropDead).wire = s.wire := rfl

@[simp] theorem State.bufCap_beginMutation (p : Pending) (s : State) : (s.beginMutation p).bufCap = s.bufCap := rfl
@[simp] theorem State.bufCap_finishMutation (s : State) : (s.finishMutation).bufCap = s.bufCap := rfl
@[simp] theorem State.bufCap_markDirty (s : State) : (s.markDirty).bufCap = s.bufCap := rfl
@[simp] theorem State.bufCap_clearDirty (s : State) : (s.clearDirty).bufCap = s.bufCap := rfl
@[simp] theorem State.bufCap_log (es : List Event) (s : State) : (s.log es).bufCap = s.bufCap := rfl
@[simp] theorem State.bufCap_turnPin (s : State) : (s.turnPin).bufCap = s.bufCap := rfl
@[simp] theorem State.bufCap_restorePin (s : State) : (s.restorePin).bufCap = s.bufCap := rfl
@[simp] theorem State.bufCap_readBus (n : Nat) (s : State) : (s.readBus n).bufCap = s.bufCap := rfl
@[simp] theorem State.bufCap_complete (c : ResCode) (v : Option Word) (s : State) : (s.complete c v).bufCap = s.bufCap := rfl
@[simp] theorem State.bufCap_endExchange (c : ResCode) (v : Option Word) (s : State) : (s.endExchange c v).bufCap = s.bufCap := rfl
@[simp] theorem State.bufCap_failExchange (c : ResCode) (s : State) : (s.failExchange c).bufCap = s.bufCap := rfl
@[simp] theorem State.bufCap_turnTaken (s : State) : (s.turnTaken).bufCap = s.bufCap := rfl
@[simp] theorem State.bufCap_sealLength (s : State) : (s.sealLength).bufCap = s.bufCap := rfl
@[simp] theorem State.bufCap_sealChecksum (s : State) : (s.sealChecksum).bufCap = s.bufCap := rfl
@[simp] theorem State.bufCap_dropDead (s : State) : (s.dropDead).bufCap = s.bufCap := rfl

/-! `State.appendEntry`. -/

@[simp] theorem State.cfg_appendEntry (id : Byte) (v : Word) (s : State) : (s.appendEntry id v).cfg = s.cfg := rfl
@[simp] theorem State.turns_appendEntry (id : Byte) (v : Word) (s : State) :
    (s.appendEntry id v).turns = s.turns := rfl
@[simp] theorem State.hostOps_appendEntry (id : Byte) (v : Word) (s : State) :
    (s.appendEntry id v).hostOps = s.hostOps := rfl
@[simp] theorem State.bus_appendEntry (id : Byte) (v : Word) (s : State) : (s.appendEntry id v).bus = s.bus := rfl
@[simp] theorem State.draws_appendEntry (id : Byte) (v : Word) (s : State) :
    (s.appendEntry id v).draws = s.draws := rfl
@[simp] theorem State.maxServo_appendEntry (id : Byte) (v : Word) (s : State) :
    (s.appendEntry id v).maxServo = s.maxServo := rfl
@[simp] theorem State.hasDirPin_appendEntry (id : Byte) (v : Word) (s : State) :
    (s.appendEntry id v).hasDirPin = s.hasDirPin := rfl
@[simp] theorem State.inited_appendEntry (id : Byte) (v : Word) (s : State) :
    (s.appendEntry id v).inited = s.inited := rfl
@[simp] theorem State.count_appendEntry (id : Byte) (v : Word) (s : State) :
    (s.appendEntry id v).count = s.count + 1 := rfl
@[simp] theorem State.dirty_appendEntry (id : Byte) (v : Word) (s : State) :
    (s.appendEntry id v).dirty = s.dirty := rfl
@[simp] theorem State.busy_appendEntry (id : Byte) (v : Word) (s : State) : (s.appendEntry id v).busy = s.busy := rfl
@[simp] theorem State.pend_appendEntry (id : Byte) (v : Word) (s : State) : (s.appendEntry id v).pend = s.pend := rfl
@[simp] theorem State.mir_appendEntry (id : Byte) (v : Word) (s : State) : (s.appendEntry id v).mir = s.mir := rfl
@[simp] theorem State.eng_appendEntry (id : Byte) (v : Word) (s : State) : (s.appendEntry id v).eng = s.eng := rfl
@[simp] theorem State.lCmd_appendEntry (id : Byte) (v : Word) (s : State) : (s.appendEntry id v).lCmd = s.lCmd := rfl
@[simp] theorem State.lId_appendEntry (id : Byte) (v : Word) (s : State) : (s.appendEntry id v).lId = s.lId := rfl
@[simp] theorem State.lOrder_appendEntry (id : Byte) (v : Word) (s : State) :
    (s.appendEntry id v).lOrder = s.lOrder := rfl
@[simp] theorem State.lValue_appendEntry (id : Byte) (v : Word) (s : State) :
    (s.appendEntry id v).lValue = s.lValue := rfl
@[simp] theorem State.lSize_appendEntry (id : Byte) (v : Word) (s : State) :
    (s.appendEntry id v).lSize = s.lSize := rfl
@[simp] theorem State.sentLen_appendEntry (id : Byte) (v : Word) (s : State) :
    (s.appendEntry id v).sentLen = s.sentLen := rfl
@[simp] theorem State.rxs_appendEntry (id : Byte) (v : Word) (s : State) : (s.appendEntry id v).rxs = s.rxs := rfl
@[simp] theorem State.resCode_appendEntry (id : Byte) (v : Word) (s : State) :
    (s.appendEntry id v).resCode = s.resCode := rfl
@[simp] theorem State.resValue_appendEntry (id : Byte) (v : Word) (s : State) :
    (s.appendEntry id v).resValue = s.resValue := rfl
@[simp] theorem State.resValid_appendEntry (id : Byte) (v : Word) (s : State) :
    (s.appendEntry id v).resValid = s.resValid := rfl
@[simp] theorem State.cidPhase_appendEntry (id : Byte) (v : Word) (s : State) :
    (s.appendEntry id v).cidPhase = s.cidPhase := rfl
@[simp] theorem State.lNewid_appendEntry (id : Byte) (v : Word) (s : State) :
    (s.appendEntry id v).lNewid = s.lNewid := rfl
@[simp] theorem State.dirLevel_appendEntry (id : Byte) (v : Word) (s : State) :
    (s.appendEntry id v).dirLevel = s.dirLevel := rfl
@[simp] theorem State.dirOe_appendEntry (id : Byte) (v : Word) (s : State) :
    (s.appendEntry id v).dirOe = s.dirOe := rfl
@[simp] theorem State.wire_appendEntry (id : Byte) (v : Word) (s : State) : (s.appendEntry id v).wire = s.wire := rfl
@[simp] theorem State.bufCap_appendEntry (id : Byte) (v : Word) (s : State) : (s.appendEntry id v).bufCap = s.bufCap := rfl

/-! `State.removeEntry`. -/

@[simp] theorem State.cfg_removeEntry (k : Nat) (s : State) : (s.removeEntry k).cfg = s.cfg := rfl
@[simp] theorem State.turns_removeEntry (k : Nat) (s : State) : (s.removeEntry k).turns = s.turns := rfl
@[simp] theorem State.hostOps_removeEntry (k : Nat) (s : State) : (s.removeEntry k).hostOps = s.hostOps := rfl
@[simp] theorem State.bus_removeEntry (k : Nat) (s : State) : (s.removeEntry k).bus = s.bus := rfl
@[simp] theorem State.draws_removeEntry (k : Nat) (s : State) : (s.removeEntry k).draws = s.draws := rfl
@[simp] theorem State.maxServo_removeEntry (k : Nat) (s : State) : (s.removeEntry k).maxServo = s.maxServo := rfl
@[simp] theorem State.hasDirPin_removeEntry (k : Nat) (s : State) : (s.removeEntry k).hasDirPin = s.hasDirPin := rfl
@[simp] theorem State.inited_removeEntry (k : Nat) (s : State) : (s.removeEntry k).inited = s.inited := rfl
@[simp] theorem State.count_removeEntry (k : Nat) (s : State) : (s.removeEntry k).count = s.count - 1 := rfl
@[simp] theorem State.dirty_removeEntry (k : Nat) (s : State) : (s.removeEntry k).dirty = s.dirty := rfl
@[simp] theorem State.busy_removeEntry (k : Nat) (s : State) : (s.removeEntry k).busy = s.busy := rfl
@[simp] theorem State.pend_removeEntry (k : Nat) (s : State) : (s.removeEntry k).pend = s.pend := rfl
@[simp] theorem State.mir_removeEntry (k : Nat) (s : State) : (s.removeEntry k).mir = s.mir := rfl
@[simp] theorem State.eng_removeEntry (k : Nat) (s : State) : (s.removeEntry k).eng = s.eng := rfl
@[simp] theorem State.lCmd_removeEntry (k : Nat) (s : State) : (s.removeEntry k).lCmd = s.lCmd := rfl
@[simp] theorem State.lId_removeEntry (k : Nat) (s : State) : (s.removeEntry k).lId = s.lId := rfl
@[simp] theorem State.lOrder_removeEntry (k : Nat) (s : State) : (s.removeEntry k).lOrder = s.lOrder := rfl
@[simp] theorem State.lValue_removeEntry (k : Nat) (s : State) : (s.removeEntry k).lValue = s.lValue := rfl
@[simp] theorem State.lSize_removeEntry (k : Nat) (s : State) : (s.removeEntry k).lSize = s.lSize := rfl
@[simp] theorem State.sentLen_removeEntry (k : Nat) (s : State) : (s.removeEntry k).sentLen = s.sentLen := rfl
@[simp] theorem State.rxs_removeEntry (k : Nat) (s : State) : (s.removeEntry k).rxs = s.rxs := rfl
@[simp] theorem State.resCode_removeEntry (k : Nat) (s : State) : (s.removeEntry k).resCode = s.resCode := rfl
@[simp] theorem State.resValue_removeEntry (k : Nat) (s : State) : (s.removeEntry k).resValue = s.resValue := rfl
@[simp] theorem State.resValid_removeEntry (k : Nat) (s : State) : (s.removeEntry k).resValid = s.resValid := rfl
@[simp] theorem State.cidPhase_removeEntry (k : Nat) (s : State) : (s.removeEntry k).cidPhase = s.cidPhase := rfl
@[simp] theorem State.lNewid_removeEntry (k : Nat) (s : State) : (s.removeEntry k).lNewid = s.lNewid := rfl
@[simp] theorem State.dirLevel_removeEntry (k : Nat) (s : State) : (s.removeEntry k).dirLevel = s.dirLevel := rfl
@[simp] theorem State.dirOe_removeEntry (k : Nat) (s : State) : (s.removeEntry k).dirOe = s.dirOe := rfl
@[simp] theorem State.wire_removeEntry (k : Nat) (s : State) : (s.removeEntry k).wire = s.wire := rfl
@[simp] theorem State.bufCap_removeEntry (k : Nat) (s : State) : (s.removeEntry k).bufCap = s.bufCap := rfl

/-! `State.setPosition`. -/

@[simp] theorem State.cfg_setPosition (v : Word) (k : Nat) (s : State) : (s.setPosition v k).cfg = s.cfg := rfl
@[simp] theorem State.turns_setPosition (v : Word) (k : Nat) (s : State) : (s.setPosition v k).turns = s.turns := rfl
@[simp] theorem State.hostOps_setPosition (v : Word) (k : Nat) (s : State) :
    (s.setPosition v k).hostOps = s.hostOps := rfl
@[simp] theorem State.bus_setPosition (v : Word) (k : Nat) (s : State) : (s.setPosition v k).bus = s.bus := rfl
@[simp] theorem State.draws_setPosition (v : Word) (k : Nat) (s : State) : (s.setPosition v k).draws = s.draws := rfl
@[simp] theorem State.maxServo_setPosition (v : Word) (k : Nat) (s : State) :
    (s.setPosition v k).maxServo = s.maxServo := rfl
@[simp] theorem State.hasDirPin_setPosition (v : Word) (k : Nat) (s : State) :
    (s.setPosition v k).hasDirPin = s.hasDirPin := rfl
@[simp] theorem State.inited_setPosition (v : Word) (k : Nat) (s : State) :
    (s.setPosition v k).inited = s.inited := rfl
@[simp] theorem State.count_setPosition (v : Word) (k : Nat) (s : State) : (s.setPosition v k).count = s.count := rfl
@[simp] theorem State.dirty_setPosition (v : Word) (k : Nat) (s : State) : (s.setPosition v k).dirty = s.dirty := rfl
@[simp] theorem State.busy_setPosition (v : Word) (k : Nat) (s : State) : (s.setPosition v k).busy = s.busy := rfl
@[simp] theorem State.pend_setPosition (v : Word) (k : Nat) (s : State) : (s.setPosition v k).pend = s.pend := rfl
@[simp] theorem State.mir_setPosition (v : Word) (k : Nat) (s : State) : (s.setPosition v k).mir = s.mir := rfl
@[simp] theorem State.eng_setPosition (v : Word) (k : Nat) (s : State) : (s.setPosition v k).eng = s.eng := rfl
@[simp] theorem State.lCmd_setPosition (v : Word) (k : Nat) (s : State) : (s.setPosition v k).lCmd = s.lCmd := rfl
@[simp] theorem State.lId_setPosition (v : Word) (k : Nat) (s : State) : (s.setPosition v k).lId = s.lId := rfl
@[simp] theorem State.lOrder_setPosition (v : Word) (k : Nat) (s : State) :
    (s.setPosition v k).lOrder = s.lOrder := rfl
@[simp] theorem State.lValue_setPosition (v : Word) (k : Nat) (s : State) :
    (s.setPosition v k).lValue = s.lValue := rfl
@[simp] theorem State.lSize_setPosition (v : Word) (k : Nat) (s : State) : (s.setPosition v k).lSize = s.lSize := rfl
@[simp] theorem State.sentLen_setPosition (v : Word) (k : Nat) (s : State) :
    (s.setPosition v k).sentLen = s.sentLen := rfl
@[simp] theorem State.rxs_setPosition (v : Word) (k : Nat) (s : State) : (s.setPosition v k).rxs = s.rxs := rfl
@[simp] theorem State.resCode_setPosition (v : Word) (k : Nat) (s : State) :
    (s.setPosition v k).resCode = s.resCode := rfl
@[simp] theorem State.resValue_setPosition (v : Word) (k : Nat) (s : State) :
    (s.setPosition v k).resValue = s.resValue := rfl
@[simp] theorem State.resValid_setPosition (v : Word) (k : Nat) (s : State) :
    (s.setPosition v k).resValid = s.resValid := rfl
@[simp] theorem State.cidPhase_setPosition (v : Word) (k : Nat) (s : State) :
    (s.setPosition v k).cidPhase = s.cidPhase := rfl
@[simp] theorem State.lNewid_setPosition (v : Word) (k : Nat) (s : State) :
    (s.setPosition v k).lNewid = s.lNewid := rfl
@[simp] theorem State.dirLevel_setPosition (v : Word) (k : Nat) (s : State) :
    (s.setPosition v k).dirLevel = s.dirLevel := rfl
@[simp] theorem State.dirOe_setPosition (v : Word) (k : Nat) (s : State) : (s.setPosition v k).dirOe = s.dirOe := rfl
@[simp] theorem State.wire_setPosition (v : Word) (k : Nat) (s : State) : (s.setPosition v k).wire = s.wire := rfl
@[simp] theorem State.bufCap_setPosition (v : Word) (k : Nat) (s : State) : (s.setPosition v k).bufCap = s.bufCap := rfl

/-! `State.seal`. -/

@[simp] theorem State.cfg_seal (s : State) : (s.seal).cfg = s.cfg := rfl
@[simp] theorem State.turns_seal (s : State) : (s.seal).turns = s.turns := rfl
@[simp] theorem State.hostOps_seal (s : State) : (s.seal).hostOps = s.hostOps := rfl
@[simp] theorem State.bus_seal (s : State) : (s.seal).bus = s.bus := rfl
@[simp] theorem State.draws_seal (s : State) : (s.seal).draws = s.draws := rfl
@[simp] theorem State.maxServo_seal (s : State) : (s.seal).maxServo = s.maxServo := rfl
@[simp] theorem State.hasDirPin_seal (s : State) : (s.seal).hasDirPin = s.hasDirPin := rfl
@[simp] theorem State.inited_seal (s : State) : (s.seal).inited = s.inited := rfl
@[simp] theorem State.count_seal (s : State) : (s.seal).count = s.count := rfl
@[simp] theorem State.dirty_seal (s : State) : (s.seal).dirty = s.dirty := rfl
@[simp] theorem State.busy_seal (s : State) : (s.seal).busy = s.busy := rfl
@[simp] theorem State.pend_seal (s : State) : (s.seal).pend = s.pend := rfl
@[simp] theorem State.mir_seal (s : State) : (s.seal).mir = s.mir := rfl
@[simp] theorem State.eng_seal (s : State) : (s.seal).eng = s.eng := rfl
@[simp] theorem State.lCmd_seal (s : State) : (s.seal).lCmd = s.lCmd := rfl
@[simp] theorem State.lId_seal (s : State) : (s.seal).lId = s.lId := rfl
@[simp] theorem State.lOrder_seal (s : State) : (s.seal).lOrder = s.lOrder := rfl
@[simp] theorem State.lValue_seal (s : State) : (s.seal).lValue = s.lValue := rfl
@[simp] theorem State.lSize_seal (s : State) : (s.seal).lSize = s.lSize := rfl
@[simp] theorem State.sentLen_seal (s : State) : (s.seal).sentLen = s.sentLen := rfl
@[simp] theorem State.rxs_seal (s : State) : (s.seal).rxs = s.rxs := rfl
@[simp] theorem State.resCode_seal (s : State) : (s.seal).resCode = s.resCode := rfl
@[simp] theorem State.resValue_seal (s : State) : (s.seal).resValue = s.resValue := rfl
@[simp] theorem State.resValid_seal (s : State) : (s.seal).resValid = s.resValid := rfl
@[simp] theorem State.cidPhase_seal (s : State) : (s.seal).cidPhase = s.cidPhase := rfl
@[simp] theorem State.lNewid_seal (s : State) : (s.seal).lNewid = s.lNewid := rfl
@[simp] theorem State.dirLevel_seal (s : State) : (s.seal).dirLevel = s.dirLevel := rfl
@[simp] theorem State.dirOe_seal (s : State) : (s.seal).dirOe = s.dirOe := rfl
@[simp] theorem State.wire_seal (s : State) : (s.seal).wire = s.wire := rfl
@[simp] theorem State.bufCap_seal (s : State) : (s.seal).bufCap = s.bufCap := rfl

/-! `State.snapshot`. -/

@[simp] theorem State.cfg_snapshot (n : Nat) (s : State) : (s.snapshot n).cfg = s.cfg := rfl
@[simp] theorem State.turns_snapshot (n : Nat) (s : State) : (s.snapshot n).turns = s.turns := rfl
@[simp] theorem State.hostOps_snapshot (n : Nat) (s : State) : (s.snapshot n).hostOps = s.hostOps := rfl
@[simp] theorem State.bus_snapshot (n : Nat) (s : State) : (s.snapshot n).bus = s.bus := rfl
@[simp] theorem State.draws_snapshot (n : Nat) (s : State) : (s.snapshot n).draws = s.draws := rfl
@[simp] theorem State.maxServo_snapshot (n : Nat) (s : State) : (s.snapshot n).maxServo = s.maxServo := rfl
@[simp] theorem State.hasDirPin_snapshot (n : Nat) (s : State) : (s.snapshot n).hasDirPin = s.hasDirPin := rfl
@[simp] theorem State.inited_snapshot (n : Nat) (s : State) : (s.snapshot n).inited = s.inited := rfl
@[simp] theorem State.count_snapshot (n : Nat) (s : State) : (s.snapshot n).count = s.count := rfl
@[simp] theorem State.tpl_snapshot (n : Nat) (s : State) : (s.snapshot n).tpl = s.tpl := rfl
@[simp] theorem State.dirty_snapshot (n : Nat) (s : State) : (s.snapshot n).dirty = false := rfl
@[simp] theorem State.busy_snapshot (n : Nat) (s : State) : (s.snapshot n).busy = s.busy := rfl
@[simp] theorem State.pend_snapshot (n : Nat) (s : State) : (s.snapshot n).pend = s.pend := rfl
@[simp] theorem State.mir_snapshot (n : Nat) (s : State) :
    (s.snapshot n).mir = Memory.ofBytes 0 (s.tplBytes .snapshot 0 n) := rfl
@[simp] theorem State.eng_snapshot (n : Nat) (s : State) : (s.snapshot n).eng = s.eng := rfl
@[simp] theorem State.lCmd_snapshot (n : Nat) (s : State) : (s.snapshot n).lCmd = s.lCmd := rfl
@[simp] theorem State.lId_snapshot (n : Nat) (s : State) : (s.snapshot n).lId = s.lId := rfl
@[simp] theorem State.lOrder_snapshot (n : Nat) (s : State) : (s.snapshot n).lOrder = s.lOrder := rfl
@[simp] theorem State.lValue_snapshot (n : Nat) (s : State) : (s.snapshot n).lValue = s.lValue := rfl
@[simp] theorem State.lSize_snapshot (n : Nat) (s : State) : (s.snapshot n).lSize = s.lSize := rfl
@[simp] theorem State.sentLen_snapshot (n : Nat) (s : State) : (s.snapshot n).sentLen = s.sentLen := rfl
@[simp] theorem State.rxs_snapshot (n : Nat) (s : State) : (s.snapshot n).rxs = s.rxs := rfl
@[simp] theorem State.resCode_snapshot (n : Nat) (s : State) : (s.snapshot n).resCode = s.resCode := rfl
@[simp] theorem State.resValue_snapshot (n : Nat) (s : State) : (s.snapshot n).resValue = s.resValue := rfl
@[simp] theorem State.resValid_snapshot (n : Nat) (s : State) : (s.snapshot n).resValid = s.resValid := rfl
@[simp] theorem State.cidPhase_snapshot (n : Nat) (s : State) : (s.snapshot n).cidPhase = s.cidPhase := rfl
@[simp] theorem State.lNewid_snapshot (n : Nat) (s : State) : (s.snapshot n).lNewid = s.lNewid := rfl
@[simp] theorem State.dirLevel_snapshot (n : Nat) (s : State) : (s.snapshot n).dirLevel = s.dirLevel := rfl
@[simp] theorem State.dirOe_snapshot (n : Nat) (s : State) : (s.snapshot n).dirOe = s.dirOe := rfl
@[simp] theorem State.wire_snapshot (n : Nat) (s : State) : (s.snapshot n).wire = s.wire := rfl
@[simp] theorem State.bufCap_snapshot (n : Nat) (s : State) : (s.snapshot n).bufCap = s.bufCap := rfl

/-! `State.requestSent`. -/

@[simp] theorem State.cfg_requestSent (s : State) : (s.requestSent).cfg = s.cfg := rfl
@[simp] theorem State.turns_requestSent (s : State) : (s.requestSent).turns = s.turns := rfl
@[simp] theorem State.hostOps_requestSent (s : State) : (s.requestSent).hostOps = s.hostOps := rfl
@[simp] theorem State.bus_requestSent (s : State) : (s.requestSent).bus = s.bus := rfl
@[simp] theorem State.draws_requestSent (s : State) : (s.requestSent).draws = s.draws := rfl
@[simp] theorem State.maxServo_requestSent (s : State) : (s.requestSent).maxServo = s.maxServo := rfl
@[simp] theorem State.hasDirPin_requestSent (s : State) : (s.requestSent).hasDirPin = s.hasDirPin := rfl
@[simp] theorem State.inited_requestSent (s : State) : (s.requestSent).inited = s.inited := rfl
@[simp] theorem State.count_requestSent (s : State) : (s.requestSent).count = s.count := rfl
@[simp] theorem State.tpl_requestSent (s : State) : (s.requestSent).tpl = s.tpl := rfl
@[simp] theorem State.dirty_requestSent (s : State) : (s.requestSent).dirty = s.dirty := rfl
@[simp] theorem State.busy_requestSent (s : State) : (s.requestSent).busy = s.busy := rfl
@[simp] theorem State.pend_requestSent (s : State) : (s.requestSent).pend = s.pend := rfl
@[simp] theorem State.mir_requestSent (s : State) : (s.requestSent).mir = [] := rfl
@[simp] theorem State.eng_requestSent (s : State) : (s.requestSent).eng = s.eng := rfl
@[simp] theorem State.lCmd_requestSent (s : State) : (s.requestSent).lCmd = s.lCmd := rfl
@[simp] theorem State.lId_requestSent (s : State) : (s.requestSent).lId = s.lId := rfl
@[simp] theorem State.lOrder_requestSent (s : State) : (s.requestSent).lOrder = s.lOrder := rfl
@[simp] theorem State.lValue_requestSent (s : State) : (s.requestSent).lValue = s.lValue := rfl
@[simp] theorem State.lSize_requestSent (s : State) : (s.requestSent).lSize = s.lSize := rfl
@[simp] theorem State.sentLen_requestSent (s : State) : (s.requestSent).sentLen = s.sentLen := rfl
@[simp] theorem State.rxs_requestSent (s : State) : (s.requestSent).rxs = s.rxs := rfl
@[simp] theorem State.resCode_requestSent (s : State) : (s.requestSent).resCode = s.resCode := rfl
@[simp] theorem State.resValue_requestSent (s : State) : (s.requestSent).resValue = s.resValue := rfl
@[simp] theorem State.resValid_requestSent (s : State) : (s.requestSent).resValid = s.resValid := rfl
@[simp] theorem State.cidPhase_requestSent (s : State) : (s.requestSent).cidPhase = s.cidPhase := rfl
@[simp] theorem State.lNewid_requestSent (s : State) : (s.requestSent).lNewid = s.lNewid := rfl
@[simp] theorem State.dirLevel_requestSent (s : State) :
    (s.requestSent).dirLevel = (if s.hasDirPin then true else s.dirLevel) := rfl
@[simp] theorem State.dirOe_requestSent (s : State) : (s.requestSent).dirOe = s.dirOe := rfl
@[simp] theorem State.wire_requestSent (s : State) :
    (s.requestSent).wire = s.wire ++ [.tx (s.mirBytes .frame 0 s.sentLen), .txDrain] ++ (if s.hasDirPin then [.dir true] else []) := rfl
@[simp] theorem State.bufCap_requestSent (s : State) : (s.requestSent).bufCap = s.bufCap := rfl

/-! `State.requestBuilt`. -/

@[simp] theorem State.cfg_requestBuilt (c i o : Byte) (v : Word) (z : ValueSize) (s : State) :
    (s.requestBuilt c i o v z).cfg = s.cfg := rfl
@[simp] theorem State.turns_requestBuilt (c i o : Byte) (v : Word) (z : ValueSize) (s : State) :
    (s.requestBuilt c i o v z).turns = s.turns := rfl
@[simp] theorem State.hostOps_requestBuilt (c i o : Byte) (v : Word) (z : ValueSize) (s : State) :
    (s.requestBuilt c i o v z).hostOps = s.hostOps := rfl
@[simp] theorem State.bus_requestBuilt (c i o : Byte) (v : Word) (z : ValueSize) (s : State) :
    (s.requestBuilt c i o v z).bus = s.bus := rfl
@[simp] theorem State.draws_requestBuilt (c i o : Byte) (v : Word) (z : ValueSize) (s : State) :
    (s.requestBuilt c i o v z).draws = s.draws := rfl
@[simp] theorem State.maxServo_requestBuilt (c i o : Byte) (v : Word) (z : ValueSize) (s : State) :
    (s.requestBuilt c i o v z).maxServo = s.maxServo := rfl
@[simp] theorem State.hasDirPin_requestBuilt (c i o : Byte) (v : Word) (z : ValueSize) (s : State) :
    (s.requestBuilt c i o v z).hasDirPin = s.hasDirPin := rfl
@[simp] theorem State.inited_requestBuilt (c i o : Byte) (v : Word) (z : ValueSize) (s : State) :
    (s.requestBuilt c i o v z).inited = s.inited := rfl
@[simp] theorem State.count_requestBuilt (c i o : Byte) (v : Word) (z : ValueSize) (s : State) :
    (s.requestBuilt c i o v z).count = s.count := rfl
@[simp] theorem State.tpl_requestBuilt (c i o : Byte) (v : Word) (z : ValueSize) (s : State) :
    (s.requestBuilt c i o v z).tpl = s.tpl := rfl
@[simp] theorem State.dirty_requestBuilt (c i o : Byte) (v : Word) (z : ValueSize) (s : State) :
    (s.requestBuilt c i o v z).dirty = true := rfl
@[simp] theorem State.busy_requestBuilt (c i o : Byte) (v : Word) (z : ValueSize) (s : State) :
    (s.requestBuilt c i o v z).busy = s.busy := rfl
@[simp] theorem State.pend_requestBuilt (c i o : Byte) (v : Word) (z : ValueSize) (s : State) :
    (s.requestBuilt c i o v z).pend = s.pend := rfl
@[simp] theorem State.mir_requestBuilt (c i o : Byte) (v : Word) (z : ValueSize) (s : State) :
    (s.requestBuilt c i o v z).mir = Memory.ofBytes 0 (requestBytes s.cfg c i o v z) := rfl
@[simp] theorem State.eng_requestBuilt (c i o : Byte) (v : Word) (z : ValueSize) (s : State) :
    (s.requestBuilt c i o v z).eng = .sending := rfl
@[simp] theorem State.lCmd_requestBuilt (c i o : Byte) (v : Word) (z : ValueSize) (s : State) :
    (s.requestBuilt c i o v z).lCmd = c := rfl
@[simp] theorem State.lId_requestBuilt (c i o : Byte) (v : Word) (z : ValueSize) (s : State) :
    (s.requestBuilt c i o v z).lId = i := rfl
@[simp] theorem State.lOrder_requestBuilt (c i o : Byte) (v : Word) (z : ValueSize) (s : State) :
    (s.requestBuilt c i o v z).lOrder = o := rfl
@[simp] theorem State.lValue_requestBuilt (c i o : Byte) (v : Word) (z : ValueSize) (s : State) :
    (s.requestBuilt c i o v z).lValue = v := rfl
@[simp] theorem State.lSize_requestBuilt (c i o : Byte) (v : Word) (z : ValueSize) (s : State) :
    (s.requestBuilt c i o v z).lSize = z := rfl
@[simp] theorem State.sentLen_requestBuilt (c i o : Byte) (v : Word) (z : ValueSize) (s : State) :
    (s.requestBuilt c i o v z).sentLen = z.bytes + 6 := rfl
@[simp] theorem State.rxs_requestBuilt (c i o : Byte) (v : Word) (z : ValueSize) (s : State) :
    (s.requestBuilt c i o v z).rxs = [] := rfl
@[simp] theorem State.resCode_requestBuilt (c i o : Byte) (v : Word) (z : ValueSize) (s : State) :
    (s.requestBuilt c i o v z).resCode = s.resCode := rfl
@[simp] theorem State.resValue_requestBuilt (c i o : Byte) (v : Word) (z : ValueSize) (s : State) :
    (s.requestBuilt c i o v z).resValue = s.resValue := rfl
@[simp] theorem State.resValid_requestBuilt (c i o : Byte) (v : Word) (z : ValueSize) (s : State) :
    (s.requestBuilt c i o v z).resValid = s.resValid := rfl
@[simp] theorem State.cidPhase_requestBuilt (c i o : Byte) (v : Word) (z : ValueSize) (s : State) :
    (s.requestBuilt c i o v z).cidPhase = s.cidPhase := rfl
@[simp] theorem State.lNewid_requestBuilt (c i o : Byte) (v : Word) (z : ValueSize) (s : State) :
    (s.requestBuilt c i o v z).lNewid = s.lNewid := rfl
@[simp] theorem State.dirLevel_requestBuilt (c i o : Byte) (v : Word) (z : ValueSize) (s : State) :
    (s.requestBuilt c i o v z).dirLevel = s.dirLevel := rfl
@[simp] theorem State.dirOe_requestBuilt (c i o : Byte) (v : Word) (z : ValueSize) (s : State) :
    (s.requestBuilt c i o v z).dirOe = s.dirOe := rfl
@[simp] theorem State.wire_requestBuilt (c i o : Byte) (v : Word) (z : ValueSize) (s : State) :
    (s.requestBuilt c i o v z).wire = s.wire ++ [.rxFlush] := rfl
@[simp] theorem State.bufCap_requestBuilt (c i o : Byte) (v : Word) (z : ValueSize) (s : State) : (s.requestBuilt c i o v z).bufCap = s.bufCap := rfl

/-! `State.headerRead`. -/

@[simp] theorem State.cfg_headerRead (s : State) : (s.headerRead).cfg = s.cfg := rfl
@[simp] theorem State.turns_headerRead (s : State) : (s.headerRead).turns = s.turns := rfl
@[simp] theorem State.hostOps_headerRead (s : State) : (s.headerRead).hostOps = s.hostOps := rfl
@[simp] theorem State.bus_headerRead (s : State) : (s.headerRead).bus = s.bus.tail := rfl
@[simp] theorem State.draws_headerRead (s : State) : (s.headerRead).draws = s.draws := rfl
@[simp] theorem State.maxServo_headerRead (s : State) : (s.headerRead).maxServo = s.maxServo := rfl
@[simp] theorem State.hasDirPin_headerRead (s : State) : (s.headerRead).hasDirPin = s.hasDirPin := rfl
@[simp] theorem State.inited_headerRead (s : State) : (s.headerRead).inited = s.inited := rfl
@[simp] theorem State.count_headerRead (s : State) : (s.headerRead).count = s.count := rfl
@[simp] theorem State.tpl_headerRead (s : State) : (s.headerRead).tpl = s.tpl := rfl
@[simp] theorem State.dirty_headerRead (s : State) : (s.headerRead).dirty = s.dirty := rfl
@[simp] theorem State.busy_headerRead (s : State) : (s.headerRead).busy = s.busy := rfl
@[simp] theorem State.pend_headerRead (s : State) : (s.headerRead).pend = s.pend := rfl
@[simp] theorem State.mir_headerRead (s : State) : (s.headerRead).mir = s.mir := rfl
@[simp] theorem State.eng_headerRead (s : State) : (s.headerRead).eng = s.eng := rfl
@[simp] theorem State.lCmd_headerRead (s : State) : (s.headerRead).lCmd = s.lCmd := rfl
@[simp] theorem State.lId_headerRead (s : State) : (s.headerRead).lId = s.lId := rfl
@[simp] theorem State.lOrder_headerRead (s : State) : (s.headerRead).lOrder = s.lOrder := rfl
@[simp] theorem State.lValue_headerRead (s : State) : (s.headerRead).lValue = s.lValue := rfl
@[simp] theorem State.lSize_headerRead (s : State) : (s.headerRead).lSize = s.lSize := rfl
@[simp] theorem State.sentLen_headerRead (s : State) : (s.headerRead).sentLen = s.sentLen := rfl
@[simp] theorem State.rxs_headerRead (s : State) : (s.headerRead).rxs = s.rxs.putBytes 0 (s.busAnswer 2) := rfl
@[simp] theorem State.resCode_headerRead (s : State) : (s.headerRead).resCode = s.resCode := rfl
@[simp] theorem State.resValue_headerRead (s : State) : (s.headerRead).resValue = s.resValue := rfl
@[simp] theorem State.resValid_headerRead (s : State) : (s.headerRead).resValid = s.resValid := rfl
@[simp] theorem State.cidPhase_headerRead (s : State) : (s.headerRead).cidPhase = s.cidPhase := rfl
@[simp] theorem State.lNewid_headerRead (s : State) : (s.headerRead).lNewid = s.lNewid := rfl
@[simp] theorem State.dirLevel_headerRead (s : State) : (s.headerRead).dirLevel = s.dirLevel := rfl
@[simp] theorem State.dirOe_headerRead (s : State) : (s.headerRead).dirOe = s.dirOe := rfl
@[simp] theorem State.wire_headerRead (s : State) : (s.headerRead).wire = s.wire ++ [.read 2 (s.busAnswer 2)] := rfl
@[simp] theorem State.bufCap_headerRead (s : State) : (s.headerRead).bufCap = s.bufCap := rfl

/-! `State.forgetLatches`. -/

@[simp] theorem State.cfg_forgetLatches (s : State) : (s.forgetLatches).cfg = s.cfg := rfl
@[simp] theorem State.turns_forgetLatches (s : State) : (s.forgetLatches).turns = s.turns := rfl
@[simp] theorem State.hostOps_forgetLatches (s : State) : (s.forgetLatches).hostOps = s.hostOps := rfl
@[simp] theorem State.bus_forgetLatches (s : State) : (s.forgetLatches).bus = s.bus := rfl
@[simp] theorem State.draws_forgetLatches (s : State) : (s.forgetLatches).draws = s.draws := rfl
@[simp] theorem State.maxServo_forgetLatches (s : State) : (s.forgetLatches).maxServo = s.maxServo := rfl
@[simp] theorem State.hasDirPin_forgetLatches (s : State) : (s.forgetLatches).hasDirPin = s.hasDirPin := rfl
@[simp] theorem State.inited_forgetLatches (s : State) : (s.forgetLatches).inited = s.inited := rfl
@[simp] theorem State.count_forgetLatches (s : State) : (s.forgetLatches).count = s.count := rfl
@[simp] theorem State.tpl_forgetLatches (s : State) : (s.forgetLatches).tpl = s.tpl := rfl
@[simp] theorem State.dirty_forgetLatches (s : State) : (s.forgetLatches).dirty = s.dirty := rfl
@[simp] theorem State.busy_forgetLatches (s : State) : (s.forgetLatches).busy = s.busy := rfl
@[simp] theorem State.pend_forgetLatches (s : State) : (s.forgetLatches).pend = s.pend := rfl
@[simp] theorem State.mir_forgetLatches (s : State) : (s.forgetLatches).mir = s.mir := rfl
@[simp] theorem State.eng_forgetLatches (s : State) : (s.forgetLatches).eng = s.eng := rfl
@[simp] theorem State.rxs_forgetLatches (s : State) : (s.forgetLatches).rxs = s.rxs := rfl
@[simp] theorem State.resCode_forgetLatches (s : State) : (s.forgetLatches).resCode = s.resCode := rfl
@[simp] theorem State.resValue_forgetLatches (s : State) : (s.forgetLatches).resValue = s.resValue := rfl
@[simp] theorem State.resValid_forgetLatches (s : State) : (s.forgetLatches).resValid = s.resValid := rfl
@[simp] theorem State.cidPhase_forgetLatches (s : State) : (s.forgetLatches).cidPhase = s.cidPhase := rfl
@[simp] theorem State.dirLevel_forgetLatches (s : State) : (s.forgetLatches).dirLevel = s.dirLevel := rfl
@[simp] theorem State.dirOe_forgetLatches (s : State) : (s.forgetLatches).dirOe = s.dirOe := rfl
@[simp] theorem State.wire_forgetLatches (s : State) : (s.forgetLatches).wire = s.wire := rfl
@[simp] theorem State.bufCap_forgetLatches (s : State) : (s.forgetLatches).bufCap = s.bufCap := rfl

/-! `State.initialise`. -/

@[simp] theorem State.cfg_initialise (m : Byte) (p : Bool) (s : State) : (s.initialise m p).cfg = s.cfg := rfl
@[simp] theorem State.turns_initialise (m : Byte) (p : Bool) (s : State) : (s.initialise m p).turns = s.turns := rfl
@[simp] theorem State.hostOps_initialise (m : Byte) (p : Bool) (s : State) :
    (s.initialise m p).hostOps = s.hostOps := rfl
@[simp] theorem State.bus_initialise (m : Byte) (p : Bool) (s : State) : (s.initialise m p).bus = s.bus := rfl
@[simp] theorem State.draws_initialise (m : Byte) (p : Bool) (s : State) : (s.initialise m p).draws = s.draws := rfl
@[simp] theorem State.maxServo_initialise (m : Byte) (p : Bool) (s : State) :
    (s.initialise m p).maxServo = clampCapacity m.toNat := rfl
@[simp] theorem State.hasDirPin_initialise (m : Byte) (p : Bool) (s : State) : (s.initialise m p).hasDirPin = p := rfl
@[simp] theorem State.inited_initialise (m : Byte) (p : Bool) (s : State) : (s.initialise m p).inited = true := rfl
@[simp] theorem State.count_initialise (m : Byte) (p : Bool) (s : State) : (s.initialise m p).count = 0 := rfl
@[simp] theorem State.tpl_initialise (m : Byte) (p : Bool) (s : State) :
    (s.initialise m p).tpl = Memory.ofBytes 0 (initialTemplate s.cfg) := rfl
@[simp] theorem State.dirty_initialise (m : Byte) (p : Bool) (s : State) : (s.initialise m p).dirty = false := rfl
@[simp] theorem State.busy_initialise (m : Byte) (p : Bool) (s : State) : (s.initialise m p).busy = false := rfl
@[simp] theorem State.pend_initialise (m : Byte) (p : Bool) (s : State) : (s.initialise m p).pend = none := rfl
@[simp] theorem State.mir_initialise (m : Byte) (p : Bool) (s : State) : (s.initialise m p).mir = [] := rfl
@[simp] theorem State.eng_initialise (m : Byte) (p : Bool) (s : State) : (s.initialise m p).eng = .idle := rfl
@[simp] theorem State.rxs_initialise (m : Byte) (p : Bool) (s : State) : (s.initialise m p).rxs = [] := rfl
@[simp] theorem State.resCode_initialise (m : Byte) (p : Bool) (s : State) : (s.initialise m p).resCode = .ok := rfl
@[simp] theorem State.resValue_initialise (m : Byte) (p : Bool) (s : State) :
    (s.initialise m p).resValue = Config.freeWord s.draws := rfl
@[simp] theorem State.resValid_initialise (m : Byte) (p : Bool) (s : State) :
    (s.initialise m p).resValid = false := rfl
@[simp] theorem State.cidPhase_initialise (m : Byte) (p : Bool) (s : State) :
    (s.initialise m p).cidPhase = .none := rfl
@[simp] theorem State.dirLevel_initialise (m : Byte) (p : Bool) (s : State) :
    (s.initialise m p).dirLevel = false := rfl
@[simp] theorem State.dirOe_initialise (m : Byte) (p : Bool) (s : State) : (s.initialise m p).dirOe = p := rfl
@[simp] theorem State.wire_initialise (m : Byte) (p : Bool) (s : State) :
    (s.initialise m p).wire = s.wire ++ .opened baud receiveTimeoutMs :: (if p then [.dirOut, .dir false] else []) := rfl

/-! `State.shutDown`. -/

@[simp] theorem State.cfg_shutDown (s : State) : (s.shutDown).cfg = s.cfg := rfl
@[simp] theorem State.turns_shutDown (s : State) : (s.shutDown).turns = s.turns := rfl
@[simp] theorem State.hostOps_shutDown (s : State) : (s.shutDown).hostOps = s.hostOps := rfl
@[simp] theorem State.bus_shutDown (s : State) : (s.shutDown).bus = s.bus := rfl
@[simp] theorem State.draws_shutDown (s : State) : (s.shutDown).draws = s.draws := rfl
@[simp] theorem State.maxServo_shutDown (s : State) : (s.shutDown).maxServo = s.maxServo := rfl
@[simp] theorem State.hasDirPin_shutDown (s : State) : (s.shutDown).hasDirPin = s.hasDirPin := rfl
@[simp] theorem State.inited_shutDown (s : State) : (s.shutDown).inited = false := rfl
@[simp] theorem State.count_shutDown (s : State) : (s.shutDown).count = 0 := rfl
@[simp] theorem State.tpl_shutDown (s : State) : (s.shutDown).tpl = [] := rfl
@[simp] theorem State.dirty_shutDown (s : State) : (s.shutDown).dirty = false := rfl
@[simp] theorem State.busy_shutDown (s : State) : (s.shutDown).busy = s.busy := rfl
@[simp] theorem State.pend_shutDown (s : State) : (s.shutDown).pend = s.pend := rfl
@[simp] theorem State.mir_shutDown (s : State) : (s.shutDown).mir = [] := rfl
@[simp] theorem State.eng_shutDown (s : State) : (s.shutDown).eng = s.eng := rfl
@[simp] theorem State.lCmd_shutDown (s : State) : (s.shutDown).lCmd = s.lCmd := rfl
@[simp] theorem State.lId_shutDown (s : State) : (s.shutDown).lId = s.lId := rfl
@[simp] theorem State.lOrder_shutDown (s : State) : (s.shutDown).lOrder = s.lOrder := rfl
@[simp] theorem State.lValue_shutDown (s : State) : (s.shutDown).lValue = s.lValue := rfl
@[simp] theorem State.lSize_shutDown (s : State) : (s.shutDown).lSize = s.lSize := rfl
@[simp] theorem State.sentLen_shutDown (s : State) : (s.shutDown).sentLen = s.sentLen := rfl
@[simp] theorem State.rxs_shutDown (s : State) : (s.shutDown).rxs = [] := rfl
@[simp] theorem State.resCode_shutDown (s : State) : (s.shutDown).resCode = .ok := rfl
@[simp] theorem State.resValue_shutDown (s : State) : (s.shutDown).resValue = Config.freeWord s.draws := rfl
@[simp] theorem State.resValid_shutDown (s : State) : (s.shutDown).resValid = false := rfl
@[simp] theorem State.cidPhase_shutDown (s : State) : (s.shutDown).cidPhase = s.cidPhase := rfl
@[simp] theorem State.lNewid_shutDown (s : State) : (s.shutDown).lNewid = s.lNewid := rfl
@[simp] theorem State.dirLevel_shutDown (s : State) : (s.shutDown).dirLevel = s.dirLevel := rfl
@[simp] theorem State.dirOe_shutDown (s : State) : (s.shutDown).dirOe = false := rfl
@[simp] theorem State.wire_shutDown (s : State) :
    (s.shutDown).wire = s.wire ++ (if s.hasDirPin then [.dirRelease, .closed] else [.closed]) := rfl
@[simp] theorem State.bufCap_shutDown (s : State) : (s.shutDown).bufCap = s.bufCap := rfl

/-- A forgotten `sent_len` is in its range, 7 or 8 (R20). -/
theorem State.sentLen_forgetLatches (s : State) : s.forgetLatches.sentLen = 7 ∨ s.forgetLatches.sentLen = 8 := by
  unfold State.forgetLatches ValueSize.ofFree
  dsimp only
  split
  · exact .inr rfl
  · exact .inl rfl

end Sys2Proof.Machine
end

