-- ==== Sys2Proof/Laws/Ops.lean ====
section
/-! SUPPORT. One lemma per shared operation: what it can do, for the proofs to cite instead of unfolding it. -/

namespace Sys2Proof.Machine

/-! Gates: what an operation that goes on has passed. -/

theorem State.inBuffer_of_le {s : State} {n : Nat} (h : n ≤ 4 * s.maxServo + 5) (k : Out) : s.inBuffer n k = k := by
  simp [State.inBuffer, State.bufCap, h]

theorem State.inBuffer_next {s t : State} {n : Nat} {k : Out} (h : s.inBuffer n k = .next t) :
    n ≤ 4 * s.maxServo + 5 ∧ k = .next t := by
  unfold State.inBuffer State.bufCap at h
  split at h
  · exact ⟨‹_›, h⟩
  · cases h

theorem State.inBuffer_fault {s : State} {n : Nat} {k : Out} {f : Fault} (h : s.inBuffer n k = .fault f) :
    k = .fault f ∨ (4 * s.maxServo + 5 < n ∧ f = .offsetOutsideBuffer) := by
  unfold State.inBuffer State.bufCap at h
  split at h
  · exact .inl h
  · cases h; exact .inr ⟨by omega, rfl⟩

theorem State.inProgress_eq_false {s : State} :
    s.inProgress = false ↔ s.eng = .idle ∧ s.busy = false ∧ s.cidPhase = .none := by
  simp [State.inProgress, and_assoc]

theorem State.whenReady_of_free {s : State} (hi : s.inited = true) (he : s.eng = .idle) (hb : s.busy = false)
    (hc : s.cidPhase = .none) (k : Out) : s.whenReady k = k := by
  simp [State.whenReady, State.whenFree, hi, State.inProgress_eq_false.2 ⟨he, hb, hc⟩]

theorem State.whenReady_next {s t : State} {k : Out} (h : s.whenReady k = .next t) :
    s.inited = true ∧ s.eng = .idle ∧ s.busy = false ∧ s.cidPhase = .none ∧ k = .next t := by
  unfold State.whenReady State.whenFree at h
  split at h
  · split at h
    · cases h
    · rename_i hi hp
      have := State.inProgress_eq_false.1 (by simpa using hp)
      exact ⟨hi, this.1, this.2.1, this.2.2, h⟩
  · cases h

theorem State.whenReady_fault {s : State} {k : Out} {f : Fault} (h : s.whenReady k = .fault f) :
    (s.inProgress = true ∧ f = .hostOpWhileEngineBusy) ∨ (s.inProgress = false ∧ s.inited = true ∧ k = .fault f) := by
  unfold State.whenReady State.whenFree at h
  split at h
  · split at h
    · cases h; exact .inl ⟨‹_›, rfl⟩
    · rename_i hi hp; exact .inr ⟨by simpa using hp, hi, h⟩
  · cases h

theorem State.emitGate_of_open {s : State} (hi : s.inited = true) (he : s.eng = .idle) (hb : s.busy = false)
    (hc : s.count ≠ 0) (k : Out) : s.emitGate k = k := by
  simp [State.emitGate, hi, he, hb, hc]

theorem State.emitGate_next {s t : State} {k : Out} (h : s.emitGate k = .next t) :
    s.inited = true ∧ s.eng = .idle ∧
      (((s.busy = true ∨ s.count = 0) ∧ t = s) ∨ (s.busy = false ∧ s.count ≠ 0 ∧ k = .next t)) := by
  unfold State.emitGate at h
  split at h
  · split at h
    · split at h
      · cases h; exact ⟨‹_›, ‹_›, .inl ⟨.inl ‹_›, rfl⟩⟩
      · split at h
        · cases h; exact ⟨‹_›, ‹_›, .inl ⟨.inr ‹_›, rfl⟩⟩
        · rename_i hb hc; exact ⟨‹_›, ‹_›, .inr ⟨by simpa using hb, hc, h⟩⟩
    · cases h
  · cases h

theorem State.emitGate_fault {s : State} {k : Out} {f : Fault} (h : s.emitGate k = .fault f) :
    (s.eng ≠ .idle ∧ f = .emitDuringCommand) ∨
      (s.inited = true ∧ s.eng = .idle ∧ s.busy = false ∧ s.count ≠ 0 ∧ k = .fault f) := by
  unfold State.emitGate at h
  split at h
  · split at h
    · split at h
      · cases h
      · split at h
        · cases h
        · rename_i hb hc; exact .inr ⟨‹_›, ‹_›, by simpa using hb, hc, h⟩
    · cases h; exact .inl ⟨‹_›, rfl⟩
  · cases h

/-! Lookup (R101). -/

theorem State.findFrom_some {s : State} {m : Byte} {k : Nat} : ∀ (n i : Nat), s.findFrom m i n = some k ↔
    i ≤ k ∧ k < i + n ∧ s.tplByte .lookup (entryAt k) = m ∧ ∀ j, i ≤ j → j < k → s.tplByte .lookup (entryAt j) ≠ m := by
  intro n
  induction n with
  | zero => intro i; simp [State.findFrom]; omega
  | succ n ih =>
    intro i
    unfold State.findFrom
    split
    · rename_i h
      constructor
      · intro hk; cases hk; exact ⟨Nat.le_refl _, by omega, h, fun j h1 h2 => by omega⟩
      · rintro ⟨h1, _, _, h4⟩
        by_cases hik : i = k
        · rw [hik]
        · exact absurd h (h4 i (Nat.le_refl _) (by omega))
    · rename_i h
      rw [ih]
      constructor
      · rintro ⟨h1, h2, h3, h4⟩
        refine ⟨by omega, by omega, h3, fun j hj1 hj2 => ?_⟩
        by_cases hij : j = i
        · rw [hij]; exact h
        · exact h4 j (by omega) hj2
      · rintro ⟨h1, h2, h3, h4⟩
        have : i ≠ k := fun hik => h (hik ▸ h3)
        exact ⟨by omega, by omega, h3, fun j hj1 hj2 => h4 j (by omega) hj2⟩

theorem State.findFrom_none {s : State} {m : Byte} : ∀ (n i : Nat), s.findFrom m i n = none ↔
    ∀ j, i ≤ j → j < i + n → s.tplByte .lookup (entryAt j) ≠ m := by
  intro n
  induction n with
  | zero => intro i; simp [State.findFrom]; intro j h1 h2; omega
  | succ n ih =>
    intro i
    unfold State.findFrom
    split
    · rename_i h
      constructor
      · intro hk; cases hk
      · intro hj; exact absurd h (hj i (Nat.le_refl _) (by omega))
    · rename_i h
      rw [ih]
      constructor
      · intro hj j h1 h2
        by_cases hij : j = i
        · rw [hij]; exact h
        · exact hj j (by omega) (by omega)
      · intro hj j h1 h2; exact hj j (by omega) (by omega)

theorem State.find_of_cells_ne {s : State} {m : Byte}
    (h : ∀ i < s.count, ∃ b, s.tpl.cell? (entryAt i) = some b ∧ b ≠ m) : s.find m = none := by
  rw [State.find, State.findFrom_none]
  intro j _ hj
  obtain ⟨b, hb, hne⟩ := h j (by omega)
  rwa [State.tplByte, Memory.read_of_cell hb]

/-- An entry whose specified id is `m` is found, at its index or an earlier one. -/
theorem State.find_of_cell {s : State} {m : Byte} {k : Nat} (hk : k < s.count)
    (h : s.tpl.cell? (entryAt k) = some m) : ∃ j ≤ k, s.find m = some j := by
  cases hf : s.find m with
  | none =>
    rw [State.find, State.findFrom_none] at hf
    exact absurd (Memory.read_of_cell h _ _) (hf k (Nat.zero_le _) (by omega))
  | some j =>
    rw [State.find, State.findFrom_some] at hf
    refine ⟨j, ?_, rfl⟩
    by_contra hlt
    exact hf.2.2.2 k (Nat.zero_le _) (by omega) (Memory.read_of_cell h _ _)

/-- A zero-extended byte in a request with one data byte is that byte (R73, R170). -/
@[simp] theorem loByte_zext16 (b : Byte) : loByte (zext16 b) = b := by
  apply BitVec.eq_of_toNat_eq
  have := b.isLt
  simp only [loByte, zext16, BitVec.extractLsb'_toNat, BitVec.toNat_setWidth, Nat.shiftRight_zero]
  omega

end Sys2Proof.Machine
end

