-- ==== Sys2Proof/Laws/Step.lean ====
section
/-! SUPPORT. What a step can do: who moves, which meaning runs, and one inversion lemma per step of the engine. -/

namespace Sys2Proof.Machine

/-! Who moves. -/

theorem State.mover_of_turns {s : State} {t : Turn} {rest : List Turn} (h : s.turns = t :: rest) : s.mover = t := by
  simp [State.mover, h]

theorem State.mover_engine_of_ready {s : State} (h : s.turns = []) (hr : s.engineReady = true) :
    s.mover = .engine := by
  simp [State.mover, h, hr]

theorem State.mover_host_of_not_ready {s : State} (h : s.turns = []) (hr : s.engineReady = false) :
    s.mover = .host := by
  simp [State.mover, h, hr]

theorem State.engineReady_eq_false {s : State} :
    s.engineReady = false ↔ s.busy = false ∧ s.eng = .idle ∧ s.cidPhase ≠ .second := by
  simp [State.engineReady, and_assoc]

/-- A step is one of four: HOST's, an EMIT, ENGINE's, a reset. -/
theorem step_eq (s : State) :
    (s.mover = .host ∧ step s = hostStep s.turnTaken) ∨ (s.mover = .tick ∧ step s = execEmit s.turnTaken) ∨
    (s.mover = .engine ∧ step s = engineStep s.turnTaken) ∨
    (s.mover = .reset ∧ step s = .next s.turnTaken.resetBlock) := by
  unfold step
  cases h : s.mover
  · exact .inl ⟨rfl, rfl⟩
  · exact .inr (.inl ⟨rfl, rfl⟩)
  · exact .inr (.inr (.inl ⟨rfl, rfl⟩))
  · exact .inr (.inr (.inr ⟨rfl, rfl⟩))

theorem step_of_engine {s : State} (h : s.mover = .engine) : step s = engineStep s.turnTaken := by
  simp [step, h, turnStep]

theorem step_of_tick {s : State} (h : s.mover = .tick) : step s = execEmit s.turnTaken := by
  simp [step, h, turnStep, exec]

theorem step_of_host {s : State} (h : s.mover = .host) : step s = hostStep s.turnTaken := by
  simp [step, h, turnStep]

/-- HOST's step that goes on: nothing to do, or the meaning of the decoded operation. -/
theorem hostStep_next {s t : State} (h : hostStep s = .next t) :
    (s.hostOps = [] ∧ t = s) ∨ ∃ word rest i junk, s.hostOps = word :: rest ∧ decode .host word = .ok (i, junk) ∧
      exec i { s with hostOps := rest } = .next t := by
  unfold hostStep at h
  split at h
  · cases h; exact .inl ⟨‹_›, rfl⟩
  · split at h
    · exact .inr ⟨_, _, _, _, ‹_›, ‹_›, h⟩
    · cases h

/-- HOST's step that faults: the meaning of the decoded operation does. -/
theorem hostStep_fault {s : State} {f : Fault} (h : hostStep s = .fault f) :
    ∃ word rest i junk, s.hostOps = word :: rest ∧ decode .host word = .ok (i, junk) ∧
      exec i { s with hostOps := rest } = .fault f := by
  unfold hostStep at h
  split at h
  · cases h
  · split at h
    · exact ⟨_, _, _, _, ‹_›, ‹_›, h⟩
    · cases h

/-! ENGINE's step, by the state it reads. -/

theorem engineStep_commit {s : State} {p : Pending} (hb : s.busy = true) (hp : s.pend = some p) :
    engineStep s = commitMutation p s := by
  simp [engineStep, hb, hp]

theorem engineStep_sending {s : State} (hb : s.busy = false) (he : s.eng = .sending) :
    engineStep s = transmitStep s := by
  simp [engineStep, hb, he]

theorem engineStep_echo {s : State} (hb : s.busy = false) (he : s.eng = .awaitingEcho) :
    engineStep s = echoStage s := by
  simp [engineStep, hb, he]

theorem engineStep_header {s : State} (hb : s.busy = false) (he : s.eng = .awaitingResponseHeader) :
    engineStep s = headerStage s := by
  simp [engineStep, hb, he]

theorem engineStep_body {s : State} (hb : s.busy = false) (he : s.eng = .awaitingResponseBody) :
    engineStep s = bodyStage s := by
  simp [engineStep, hb, he]

theorem engineStep_validate {s : State} (hb : s.busy = false) (he : s.eng = .validating) :
    engineStep s = .next s.validated := by
  simp [engineStep, hb, he, validateStep]

theorem engineStep_second {s : State} (hb : s.busy = false) (he : s.eng = .idle) (hc : s.cidPhase = .second) :
    engineStep s = startSecondExchange s := by
  simp [engineStep, hb, he, hc]

theorem engineStep_idle {s : State} (hb : s.busy = false) (he : s.eng = .idle) (hc : s.cidPhase ≠ .second) :
    engineStep s = .next s := by
  simp [engineStep, hb, he, hc]

/-- Everything ENGINE's step can be. -/
theorem engineStep_cases (s : State) :
    (s.busy = true ∧ ∃ p, s.pend = some p ∧ engineStep s = commitMutation p s) ∨
    (s.busy = true ∧ s.pend = none ∧ engineStep s = .next s) ∨
    (s.busy = false ∧ s.eng = .sending ∧ engineStep s = transmitStep s) ∨
    (s.busy = false ∧ s.eng = .awaitingEcho ∧ engineStep s = echoStage s) ∨
    (s.busy = false ∧ s.eng = .awaitingResponseHeader ∧ engineStep s = headerStage s) ∨
    (s.busy = false ∧ s.eng = .awaitingResponseBody ∧ engineStep s = bodyStage s) ∨
    (s.busy = false ∧ s.eng = .validating ∧ engineStep s = .next s.validated) ∨
    (s.busy = false ∧ s.eng = .idle ∧ s.cidPhase = .second ∧ engineStep s = startSecondExchange s) ∨
    (s.busy = false ∧ s.eng = .idle ∧ s.cidPhase ≠ .second ∧ engineStep s = .next s) := by
  cases hb : s.busy
  · cases he : s.eng
    · by_cases hc : s.cidPhase = .second
      · simp [hc, engineStep_second hb he hc]
      · simp [hc, engineStep_idle hb he hc]
    · simp [engineStep_sending hb he]
    · simp [engineStep_echo hb he]
    · simp [engineStep_header hb he]
    · simp [engineStep_body hb he]
    · simp [engineStep_validate hb he]
  · cases hp : s.pend
    · simp [engineStep, hb, hp]
    · simp [engineStep_commit hb hp]

/-! The engine's stages: what each leaves when it goes on. -/

theorem transmitStep_next {s t : State} (h : transmitStep s = .next t) :
    s.sentLen ≤ 4 * s.maxServo + 5 ∧
    ((s.lId = 0 ∧ t = s.requestSent.restorePin.endExchange .ok none) ∨
     (s.lId ≠ 0 ∧ t = { s.requestSent with eng := .awaitingEcho })) := by
  obtain ⟨h1, h2⟩ := State.inBuffer_next h
  refine ⟨h1, ?_⟩
  split at h2 <;> cases h2
  · exact .inl ⟨‹_›, rfl⟩
  · exact .inr ⟨‹_›, rfl⟩

theorem echoStage_next {s t : State} (h : echoStage s = .next t) :
    (s.busAnswer s.sentLen = [] ∧ t = (s.readBus s.sentLen).restorePin.failExchange .timeout) ∨
    (s.busAnswer s.sentLen ≠ [] ∧ t = { s.readBus s.sentLen with eng := .awaitingResponseHeader }) := by
  unfold echoStage at h
  split at h <;> cases h
  · exact .inl ⟨‹_›, rfl⟩
  · exact .inr ⟨‹_›, rfl⟩

theorem headerStage_next {s t : State} (h : headerStage s = .next t) :
    (s.busAnswer 2 = [] ∧ t = (s.readBus 2).restorePin.failExchange .timeout) ∨
    (s.busAnswer 2 ≠ [] ∧ (s.headerRead.rxsByte .headerLen 1).toNat + 3 ≤ s.bufCap ∧
      t = { s.headerRead with eng := .awaitingResponseBody }) := by
  unfold headerStage at h
  split at h
  · cases h; exact .inl ⟨‹_›, rfl⟩
  · split at h
    · cases h
    · cases h; exact .inr ⟨‹_›, by omega, rfl⟩

theorem headerStage_fault {s : State} {f : Fault} (h : headerStage s = .fault f) :
    s.busAnswer 2 ≠ [] ∧ s.bufCap < (s.headerRead.rxsByte .headerLen 1).toNat + 3 ∧
      f = .rxOverrun { s.headerRead.restorePin with eng := .idle } := by
  unfold headerStage at h
  split at h
  · cases h
  · split at h
    · cases h; exact ⟨‹_›, ‹_›, rfl⟩
    · cases h

/-- The number of bytes the body stage asks for (R136). -/
theorem bodyStage_next {s t : State} (h : bodyStage s = .next t) :
    ∃ n, n = (s.rxsByte .bodyLen 1).toNat + 1 ∧
    ((s.busAnswer n = [] ∧ t = (s.readBus n).restorePin.failExchange .timeout) ∨
     (s.busAnswer n ≠ [] ∧ t = { ({ s.readBus n with rxs := s.rxs.putBytes 2 (s.busAnswer n) } : State).restorePin with
        eng := .validating })) := by
  refine ⟨_, rfl, ?_⟩
  unfold bodyStage at h
  dsimp only at h
  split at h <;> cases h
  · exact .inl ⟨‹_›, rfl⟩
  · exact .inr ⟨‹_›, rfl⟩

theorem State.validated_cases (s : State) :
    (crc8 s.cfg s.checkedSpan ≠ 0 ∧ s.validated = s.failExchange .crcError) ∨
    (crc8 s.cfg s.checkedSpan = 0 ∧ s.rxsByte .validateOrder 4 = s.cfg.orderUnsupported ∧
      s.validated = s.failExchange .unsupported) ∨
    (crc8 s.cfg s.checkedSpan = 0 ∧ s.rxsByte .validateOrder 4 ≠ s.cfg.orderUnsupported ∧
      s.validated = s.endExchange .ok (some s.replyValue)) := by
  unfold State.validated
  split
  · exact .inl ⟨‹_›, rfl⟩
  · split
    · exact .inr (.inl ⟨by simpa using ‹¬ crc8 s.cfg s.checkedSpan ≠ 0›, ‹_›, rfl⟩)
    · exact .inr (.inr ⟨by simpa using ‹¬ crc8 s.cfg s.checkedSpan ≠ 0›, ‹_›, rfl⟩)

theorem startExchange_next {cmd id order : Byte} {value : Word} {size : ValueSize} {s t : State}
    (h : startExchange cmd id order value size s = .next t) :
    size.bytes + 6 ≤ 4 * s.maxServo + 5 ∧ t = s.requestBuilt cmd id order value size := by
  obtain ⟨h1, h2⟩ := State.inBuffer_next h
  cases h2
  exact ⟨h1, rfl⟩

theorem startExchange_eq {s : State} (h : 1 ≤ s.maxServo) (cmd id order : Byte) (value : Word) (size : ValueSize) :
    startExchange cmd id order value size s = .next (s.requestBuilt cmd id order value size) :=
  State.inBuffer_of_le (by cases size <;> simp [ValueSize.bytes] <;> omega) _

/-! Commit steps: what each leaves when it goes on. -/

theorem commitMutation_next {p : Pending} {s t : State} (h : commitMutation p s = .next t) :
    (∃ id value k, p = .add id value k ∧ t = (s.appendEntry id value).seal.finishMutation.complete .ok none) ∨
    (∃ id k, p = .remove id k ∧ t = (s.removeEntry k).seal.finishMutation.complete .ok none) ∨
    (∃ id value k, p = .set id value k ∧
      t = (s.setPosition value k).sealChecksum.finishMutation.complete .ok none) := by
  cases p with
  | add id value k =>
    obtain ⟨_, h2⟩ := State.inBuffer_next h
    cases h2; exact .inl ⟨_, _, _, rfl, rfl⟩
  | remove id k =>
    obtain ⟨_, h2⟩ := State.inBuffer_next h
    cases h2; exact .inr (.inl ⟨_, _, rfl, rfl⟩)
  | set id value k =>
    obtain ⟨_, h2⟩ := State.inBuffer_next h
    cases h2; exact .inr (.inr ⟨_, _, _, rfl, rfl⟩)

/-! Emission. -/

theorem transmitMirror_next {s t : State} (h : s.transmitMirror = .next t) :
    (s.mirByte .frameLen 1).toNat + 3 ≤ 4 * s.maxServo + 5 ∧
      t = s.log [.tx (s.mirBytes .frame 0 ((s.mirByte .frameLen 1).toNat + 3))] := by
  obtain ⟨h1, h2⟩ := State.inBuffer_next h
  cases h2
  exact ⟨h1, rfl⟩

/-- EMIT that goes on: it skips, or it transmits after a snapshot or without one. -/
theorem execEmit_next {s t : State} (h : execEmit s = .next t) :
    s.inited = true ∧ s.eng = .idle ∧
    (((s.busy = true ∨ s.count = 0) ∧ t = s) ∨
     (s.busy = false ∧ s.count ≠ 0 ∧
      ((s.dirty = true ∧ (s.tplByte .snapshotLen 1).toNat + 3 ≤ 4 * s.maxServo + 5 ∧
          (s.snapshot ((s.tplByte .snapshotLen 1).toNat + 3)).transmitMirror = .next t) ∨
       (s.dirty = false ∧ s.transmitMirror = .next t)))) := by
  obtain ⟨h1, h2, h3⟩ := State.emitGate_next h
  refine ⟨h1, h2, ?_⟩
  rcases h3 with h3 | ⟨hb, hc, h3⟩
  · exact .inl h3
  · refine .inr ⟨hb, hc, ?_⟩
    split at h3
    · obtain ⟨h4, h5⟩ := State.inBuffer_next h3
      exact .inl ⟨‹_›, h4, h5⟩
    · exact .inr ⟨by simpa using ‹¬ s.dirty = true›, h3⟩

/-- A whole frame in the mirror is what the emitter hands over (R120, R123). -/
theorem transmitMirror_eq {s : State} {f : List Byte} {l : Byte} (h1 : s.mir.cell? 1 = some l)
    (hl : f.length = l.toNat + 3) (hc : ∀ a < f.length, s.mir.cell? a = f[a]?) (hcap : f.length ≤ 4 * s.maxServo + 5) :
    s.transmitMirror = .next (s.log [.tx f]) := by
  have e1 : s.mirByte .frameLen 1 = l := Memory.read_of_cell h1 _ _
  have e2 : s.mirBytes .frame 0 (l.toNat + 3) = f := by
    rw [State.mirBytes, ← hl]
    exact Memory.readBytes_eq (fun i hi => by simpa using hc i hi) _ _
  rw [State.transmitMirror, e1, State.inBuffer_of_le (by omega), e2]

/-! HOST's operations: what each leaves when it goes on. -/

theorem execAdd_next {c : Byte} {v : Word} {s t : State} (h : execAdd c v s = .next t) :
    (s.inited = true ∧ s.eng = .idle ∧ s.busy = false ∧ s.cidPhase = .none) ∧
    ((s.maxServo ≤ s.count ∧ t = s.complete .capacityExceeded none) ∨
     (s.count < s.maxServo ∧ s.find (maskId c) ≠ none ∧ t = s.complete .duplicateChannel none) ∨
     (s.count < s.maxServo ∧ s.find (maskId c) = none ∧ t = s.beginMutation (.add (maskId c) v s.count))) := by
  obtain ⟨h1, h2, h3, h4, h⟩ := State.whenReady_next h
  refine ⟨⟨h1, h2, h3, h4⟩, ?_⟩
  split at h
  · cases h; exact .inl ⟨‹_›, rfl⟩
  · have hc : s.count < s.maxServo := by omega
    split at h <;> cases h
    · rename_i hf; exact .inr (.inl ⟨hc, by rw [hf]; nofun, rfl⟩)
    · exact .inr (.inr ⟨hc, ‹_›, rfl⟩)

theorem execRemove_next {c : Byte} {s t : State} (h : execRemove c s = .next t) :
    (s.inited = true ∧ s.eng = .idle ∧ s.busy = false ∧ s.cidPhase = .none) ∧
    ((s.count = 0 ∧ t = s.complete .emptyRegistry none) ∨
     (s.find (maskId c) = none ∧ t = s.complete .channelNotFound none) ∨
     ∃ k, s.find (maskId c) = some k ∧ t = s.beginMutation (.remove (maskId c) k)) := by
  obtain ⟨h1, h2, h3, h4, h⟩ := State.whenReady_next h
  refine ⟨⟨h1, h2, h3, h4⟩, ?_⟩
  split at h
  · cases h; exact .inl ⟨‹_›, rfl⟩
  · split at h <;> cases h
    · exact .inr (.inl ⟨‹_›, rfl⟩)
    · exact .inr (.inr ⟨_, ‹_›, rfl⟩)

theorem execSet_next {c : Byte} {v : Word} {s t : State} (h : execSet c v s = .next t) :
    (s.inited = true ∧ s.eng = .idle ∧ s.busy = false ∧ s.cidPhase = .none) ∧
    ((s.find (maskId c) = none ∧ t = s.complete .channelNotFound none) ∨
     ∃ k, s.find (maskId c) = some k ∧ t = s.beginMutation (.set (maskId c) v k)) := by
  obtain ⟨h1, h2, h3, h4, h⟩ := State.whenReady_next h
  refine ⟨⟨h1, h2, h3, h4⟩, ?_⟩
  split at h <;> cases h
  · exact .inl ⟨‹_›, rfl⟩
  · exact .inr ⟨_, ‹_›, rfl⟩

theorem execInit_next {m : Byte} {p : Bool} {s t : State} (h : execInit m p s = .next t) :
    s.inited = false ∧ t = s.initialise m p := by
  unfold execInit State.whenFree at h
  split at h
  · cases h
  · split at h <;> cases h
    exact ⟨by simpa using ‹¬ s.inited = true›, rfl⟩

theorem execShutdown_next {s t : State} (h : execShutdown s = .next t) :
    (s.inited = true ∧ s.eng = .idle ∧ s.busy = false ∧ s.cidPhase = .none) ∧ t = s.shutDown := by
  obtain ⟨h1, h2, h3, h4, h⟩ := State.whenReady_next h
  cases h
  exact ⟨⟨h1, h2, h3, h4⟩, rfl⟩

theorem execSendCommand_next {k c o : Byte} {v : Word} {z : Byte} {s t : State}
    (h : execSendCommand k c o v z s = .next t) :
    (s.inited = true ∧ s.eng = .idle ∧ s.busy = false ∧ s.cidPhase = .none) ∧ commandOk k = true ∧
    ∃ size : ValueSize, size.bytes + 6 ≤ 4 * s.maxServo + 5 ∧ t = s.requestBuilt k c o v size := by
  obtain ⟨h1, h2, h3, h4, h⟩ := State.whenReady_next h
  refine ⟨⟨h1, h2, h3, h4⟩, ?_⟩
  split at h
  · split at h
    · exact ⟨‹_›, _, startExchange_next h⟩
    · cases h
  · cases h

theorem startFirstExchange_next {a b : Byte} {s t : State} (h : startFirstExchange a b s = .next t) :
    7 ≤ 4 * s.maxServo + 5 ∧
    t = { s.requestBuilt cmdSet a s.cfg.orderMode (zext16 s.cfg.modeIdset) .one with
      lNewid := b, cidPhase := .first } := by
  obtain ⟨h1, rfl⟩ := startExchange_next h
  exact ⟨h1, rfl⟩

theorem execSetChannelId_next {a b : Byte} {s t : State} (h : execSetChannelId a b s = .next t) :
    (s.inited = true ∧ s.eng = .idle ∧ s.busy = false ∧ s.cidPhase = .none) ∧ startFirstExchange a b s = .next t := by
  obtain ⟨h1, h2, h3, h4, h⟩ := State.whenReady_next h
  exact ⟨⟨h1, h2, h3, h4⟩, h⟩

theorem execSetChannelIdSingle_next {b : Byte} {s t : State} (h : execSetChannelIdSingle b s = .next t) :
    (s.inited = true ∧ s.eng = .idle ∧ s.busy = false ∧ s.cidPhase = .none) ∧
    ((s.hasDirPin = true ∧ t = s.complete .restrictedTopology none) ∨
     (s.hasDirPin = false ∧ startFirstExchange 0 b s = .next t)) := by
  obtain ⟨h1, h2, h3, h4, h⟩ := State.whenReady_next h
  refine ⟨⟨h1, h2, h3, h4⟩, ?_⟩
  split at h
  · cases h; exact .inl ⟨‹_›, rfl⟩
  · exact .inr ⟨by simpa using ‹¬ s.hasDirPin = true›, h⟩

/-- The operation HOST's word decodes to is one of the nine host operations (R84). -/
theorem decodeHost_port {bs rest : List Byte} {i : Instr} (h : decode .host bs = .ok (i, rest)) : i.port = .host := by
  change decodeHost bs = _ at h
  unfold decodeHost at h
  repeat' split at h
  all_goals first | (cases h; done) | (cases h; rfl)

/-! Frames. -/

/-- A byte of bytes written is the byte read back (R10). -/
theorem Memory.read_putBytes {f : List Byte} {a : Nat} {v : Byte} (h : f[a]? = some v) (m : Memory) (d : Nat) (u : Use) :
    (m.putBytes 0 f).read d u a = v := by
  apply Memory.read_of_cell
  rw [Memory.cell?_putBytes]
  obtain ⟨hl, h⟩ := List.getElem?_eq_some_iff.1 h
  simp [hl, h]

/-- A byte of a placed frame is the byte read back (R10). -/
theorem Memory.read_ofBytes {f : List Byte} {a : Nat} {v : Byte} (h : f[a]? = some v) (d : Nat) (u : Use) :
    (Memory.ofBytes 0 f).read d u a = v :=
  Memory.read_of_cell (by simpa [Memory.cell?_ofBytes] using h) _ _

/-- The checked span of a placed response is the response, whole (R74, R138). -/
theorem checkedSpan_of_frame {s : State} {cmd len crc : Byte} {payload : List Byte}
    (hw : (Instr.resp cmd len payload crc).wellFormed = true)
    (hr : s.rxs = Memory.ofBytes 0 (encode (.resp cmd len payload crc))) :
    s.checkedSpan = encode (.resp cmd len payload crc) := by
  simp only [Instr.wellFormed, respLenOk, beq_iff_eq] at hw
  have hl : (encode (.resp cmd len payload crc)).length = len.toNat + 3 := by simp [encode, hw]
  have h1 : s.rxsByte .validateLen 1 = len := by
    rw [State.rxsByte, hr]; exact Memory.read_ofBytes rfl _ _
  rw [State.checkedSpan, State.rxsBytes, h1, hr, ← hl, Memory.readBytes_ofBytes]

/-- RESP in turn: the validate step over the placed frame, its three outcomes (R138). -/
theorem execResp_eq {s : State} {cmd len crc : Byte} {payload : List Byte}
    (hw : (Instr.resp cmd len payload crc).wellFormed = true) (he : s.eng = .validating) :
    ∃ s' : State, s' = { s with rxs := Memory.ofBytes 0 (encode (.resp cmd len payload crc)) } ∧
      execResp cmd len payload crc s = .next (
        if crc8 s.cfg (encode (.resp cmd len payload crc)) ≠ 0 then s'.failExchange .crcError
        else if s'.rxsByte .validateOrder 4 = s.cfg.orderUnsupported then s'.failExchange .unsupported
        else s'.endExchange .ok (some s'.replyValue)) := by
  refine ⟨_, rfl, ?_⟩
  rw [execResp, if_pos he, validateStep, State.validated, checkedSpan_of_frame hw rfl]

/-- A request frame in turn: what the transmit step leaves (R132, R133). -/
theorem transmitRequest_eq {s : State} {c : Byte} {f : List Byte} (he : s.eng = .sending) (hm : 1 ≤ s.maxServo)
    (hf : f.length ≤ 8) :
    ∃ s' : State, s' = { s with mir := Memory.ofBytes 0 f, sentLen := f.length, lId := c } ∧
      s'.mirBytes .frame 0 s'.sentLen = f ∧
      transmitRequest c f s = .next (if c = 0 then s'.requestSent.restorePin.endExchange .ok none
        else { s'.requestSent with eng := .awaitingEcho }) := by
  refine ⟨_, rfl, Memory.readBytes_ofBytes _ _ _, ?_⟩
  rw [transmitRequest, if_pos he, transmitStep, State.inBuffer_of_le]
  show f.length ≤ 4 * s.maxServo + 5
  omega

end Sys2Proof.Machine
end

