-- ==== Sys2Proof/Laws/Effects.lean ====
section
/-! SUPPORT. What a step that goes on can do, said once: one constructor per effect, for HOST's operations, EMIT and the
engine. Statements about every step are case splits over these. -/

namespace Sys2Proof.Machine

/-- HOST waits for nothing (R107, R130). -/
structure State.Free (s : State) : Prop where
  inited : s.inited = true
  eng    : s.eng = .idle
  busy   : s.busy = false
  phase  : s.cidPhase = .none

/-- What EMIT does to `s` when it goes on. -/
inductive EmitEffect (s : State) : State → Prop
  | skip : s.inited = true → s.eng = .idle → s.busy = true ∨ s.count = 0 → EmitEffect s s
  | refresh (n k : Nat) (b : List Byte) : s.inited = true → s.eng = .idle → s.busy = false → s.count ≠ 0 →
      s.dirty = true → n = (s.tplByte .snapshotLen 1).toNat + 3 → n ≤ s.bufCap →
      k = ((s.snapshot n).mirByte .frameLen 1).toNat + 3 → b = (s.snapshot n).mirBytes .frame 0 k →
      EmitEffect s ((s.snapshot n).log [.tx b])
  | again (k : Nat) (b : List Byte) : s.inited = true → s.eng = .idle → s.busy = false → s.count ≠ 0 →
      s.dirty = false → k = (s.mirByte .frameLen 1).toNat + 3 → b = s.mirBytes .frame 0 k →
      EmitEffect s (s.log [.tx b])

theorem execEmit_effect {s t : State} (h : execEmit s = .next t) : EmitEffect s t := by
  obtain ⟨hi, he, h⟩ := execEmit_next h
  rcases h with ⟨hs, rfl⟩ | ⟨hb, hc, ⟨hd, h1, h2⟩ | ⟨hd, h2⟩⟩
  · exact .skip hi he hs
  · obtain ⟨h3, rfl⟩ := transmitMirror_next h2
    exact .refresh _ _ _ hi he hb hc hd rfl h1 rfl rfl
  · obtain ⟨h3, rfl⟩ := transmitMirror_next h2
    exact .again _ _ hi he hb hc hd rfl rfl

/-- What a host operation does to `s` when it goes on. -/
inductive HostEffect (s : State) : Instr → State → Prop
  | init (m : Byte) (p : Bool) : s.inited = false → HostEffect s (.init m p) (s.initialise m p)
  | shutdown : s.Free → HostEffect s .shutdown s.shutDown
  | addFail (c : Byte) (v : Word) (k : ResCode) : s.Free → k ∈ [ResCode.capacityExceeded, .duplicateChannel] →
      HostEffect s (.add c v) (s.complete k none)
  | removeFail (c : Byte) (k : ResCode) : s.Free → k ∈ [ResCode.emptyRegistry, .channelNotFound] →
      HostEffect s (.remove c) (s.complete k none)
  | setFail (c : Byte) (v : Word) : s.Free → HostEffect s (.set c v) (s.complete .channelNotFound none)
  | singleFail (b : Byte) : s.Free → s.hasDirPin = true →
      HostEffect s (.setChannelIdSingle b) (s.complete .restrictedTopology none)
  | add (c : Byte) (v : Word) : s.Free → s.count < s.maxServo → s.find (maskId c) = none →
      HostEffect s (.add c v) (s.beginMutation (.add (maskId c) v s.count))
  | remove (c : Byte) (k : Nat) : s.Free → s.find (maskId c) = some k →
      HostEffect s (.remove c) (s.beginMutation (.remove (maskId c) k))
  | set (c : Byte) (v : Word) (k : Nat) : s.Free → s.find (maskId c) = some k →
      HostEffect s (.set c v) (s.beginMutation (.set (maskId c) v k))
  | emit (t : State) : EmitEffect s t → HostEffect s .emit t
  | command (k c o : Byte) (v : Word) (z : Byte) (size : ValueSize) : s.Free → commandOk k = true →
      HostEffect s (.sendCommand k c o v z) (s.requestBuilt k c o v size)
  | channelId (a b : Byte) : s.Free → HostEffect s (.setChannelId a b)
      { s.requestBuilt cmdSet a s.cfg.orderMode (zext16 s.cfg.modeIdset) .one with lNewid := b, cidPhase := .first }
  | single (b : Byte) : s.Free → s.hasDirPin = false → HostEffect s (.setChannelIdSingle b)
      { s.requestBuilt cmdSet 0 s.cfg.orderMode (zext16 s.cfg.modeIdset) .one with lNewid := b, cidPhase := .first }

theorem exec_effect {i : Instr} {s t : State} (hp : i.port = .host) (h : exec i s = .next t) : HostEffect s i t := by
  cases i with
  | init m p => obtain ⟨h1, rfl⟩ := execInit_next h; exact .init _ _ h1
  | add c v =>
    obtain ⟨⟨h1, h2, h3, h4⟩, ⟨_, rfl⟩ | ⟨_, _, rfl⟩ | ⟨_, _, rfl⟩⟩ := execAdd_next h
    · exact .addFail _ _ _ ⟨h1, h2, h3, h4⟩ (by simp)
    · exact .addFail _ _ _ ⟨h1, h2, h3, h4⟩ (by simp)
    · exact .add _ _ ⟨h1, h2, h3, h4⟩ ‹_› ‹_›
  | remove c =>
    obtain ⟨⟨h1, h2, h3, h4⟩, ⟨_, rfl⟩ | ⟨_, rfl⟩ | ⟨k, _, rfl⟩⟩ := execRemove_next h
    · exact .removeFail _ _ ⟨h1, h2, h3, h4⟩ (by simp)
    · exact .removeFail _ _ ⟨h1, h2, h3, h4⟩ (by simp)
    · exact .remove _ _ ⟨h1, h2, h3, h4⟩ ‹_›
  | set c v =>
    obtain ⟨⟨h1, h2, h3, h4⟩, ⟨_, rfl⟩ | ⟨k, _, rfl⟩⟩ := execSet_next h
    · exact .setFail _ _ ⟨h1, h2, h3, h4⟩
    · exact .set _ _ _ ⟨h1, h2, h3, h4⟩ ‹_›
  | emit => exact .emit _ (execEmit_effect h)
  | sendCommand k c o v z =>
    obtain ⟨⟨h1, h2, h3, h4⟩, h5, size, _, rfl⟩ := execSendCommand_next h
    exact .command _ _ _ _ _ _ ⟨h1, h2, h3, h4⟩ h5
  | setChannelId a b =>
    obtain ⟨⟨h1, h2, h3, h4⟩, h5⟩ := execSetChannelId_next h
    obtain ⟨_, rfl⟩ := startFirstExchange_next h5
    exact .channelId _ _ ⟨h1, h2, h3, h4⟩
  | setChannelIdSingle b =>
    obtain ⟨⟨h1, h2, h3, h4⟩, ⟨h5, rfl⟩ | ⟨hp, h5⟩⟩ := execSetChannelIdSingle_next h
    · exact .singleFail _ ⟨h1, h2, h3, h4⟩ h5
    · obtain ⟨_, rfl⟩ := startFirstExchange_next h5
      exact .single _ ⟨h1, h2, h3, h4⟩ hp
  | shutdown =>
    obtain ⟨⟨h1, h2, h3, h4⟩, rfl⟩ := execShutdown_next h
    exact .shutdown ⟨h1, h2, h3, h4⟩
  | _ => cases hp

/-- What ENGINE does to `s` when it goes on. -/
inductive EngineEffect (s : State) : State → Prop
  | idle : (s.busy = true ∧ s.pend = none) ∨ (s.busy = false ∧ s.eng = .idle ∧ s.cidPhase ≠ .second) →
      EngineEffect s s
  | add (id : Byte) (v : Word) (k : Nat) : s.busy = true → s.pend = some (.add id v k) →
      EngineEffect s ((s.appendEntry id v).seal.finishMutation.complete .ok none)
  | remove (id : Byte) (k : Nat) : s.busy = true → s.pend = some (.remove id k) →
      EngineEffect s ((s.removeEntry k).seal.finishMutation.complete .ok none)
  | set (id : Byte) (v : Word) (k : Nat) : s.busy = true → s.pend = some (.set id v k) →
      EngineEffect s ((s.setPosition v k).sealChecksum.finishMutation.complete .ok none)
  | noReply : s.busy = false → s.eng = .sending → s.lId = 0 →
      EngineEffect s (s.requestSent.restorePin.endExchange .ok none)
  | sent : s.busy = false → s.eng = .sending → s.lId ≠ 0 → EngineEffect s { s.requestSent with eng := .awaitingEcho }
  | timeout (n : Nat) : s.busy = false →
      s.eng ∈ [Eng.awaitingEcho, .awaitingResponseHeader, .awaitingResponseBody] → s.busAnswer n = [] →
      EngineEffect s ((s.readBus n).restorePin.failExchange .timeout)
  | echo : s.busy = false → s.eng = .awaitingEcho →
      EngineEffect s { s.readBus s.sentLen with eng := .awaitingResponseHeader }
  | header : s.busy = false → s.eng = .awaitingResponseHeader →
      EngineEffect s { s.headerRead with eng := .awaitingResponseBody }
  | body (n : Nat) : s.busy = false → s.eng = .awaitingResponseBody → n ≤ 256 →
      EngineEffect s { ({ s.readBus n with rxs := s.rxs.putBytes 2 (s.busAnswer n) } : State).restorePin with
        eng := .validating }
  | reject (k : ResCode) : s.busy = false → s.eng = .validating → k ∈ [ResCode.unsupported, .crcError] →
      EngineEffect s (s.failExchange k)
  | accept : s.busy = false → s.eng = .validating → EngineEffect s (s.endExchange .ok (some s.replyValue))
  | second : s.busy = false → s.eng = .idle → s.cidPhase = .second →
      EngineEffect s (s.requestBuilt cmdSet s.lId s.cfg.orderId (zext16 s.lNewid) .one)

theorem engineStep_effect {s t : State} (h : engineStep s = .next t) : EngineEffect s t := by
  rcases engineStep_cases s with ⟨hb, p, hp, h1⟩ | ⟨hb, hp, h1⟩ | ⟨hb, he, h1⟩ | ⟨hb, he, h1⟩ | ⟨hb, he, h1⟩ |
    ⟨hb, he, h1⟩ | ⟨hb, he, h1⟩ | ⟨hb, he, hc, h1⟩ | ⟨hb, he, hc, h1⟩ <;> rw [h1] at h
  · rcases commitMutation_next h with ⟨_, _, _, rfl, rfl⟩ | ⟨_, _, rfl, rfl⟩ | ⟨_, _, _, rfl, rfl⟩
    · exact .add _ _ _ hb hp
    · exact .remove _ _ hb hp
    · exact .set _ _ _ hb hp
  · cases h; exact .idle (.inl ⟨hb, hp⟩)
  · obtain ⟨_, ⟨h2, rfl⟩ | ⟨h2, rfl⟩⟩ := transmitStep_next h
    · exact .noReply hb he h2
    · exact .sent hb he h2
  · obtain ⟨h2, rfl⟩ | ⟨_, rfl⟩ := echoStage_next h
    · exact .timeout _ hb (by simp [he]) h2
    · exact .echo hb he
  · obtain ⟨h2, rfl⟩ | ⟨_, _, rfl⟩ := headerStage_next h
    · exact .timeout _ hb (by simp [he]) h2
    · exact .header hb he
  · obtain ⟨n, hn, ⟨h2, rfl⟩ | ⟨_, rfl⟩⟩ := bodyStage_next h
    · exact .timeout _ hb (by simp [he]) h2
    · exact .body _ hb he (by have := (s.rxsByte .bodyLen 1).isLt; omega)
  · cases h
    rcases s.validated_cases with ⟨_, h2⟩ | ⟨_, _, h2⟩ | ⟨_, _, h2⟩ <;> rw [h2]
    · exact .reject _ hb he (by simp)
    · exact .reject _ hb he (by simp)
    · exact .accept hb he
  · obtain ⟨_, rfl⟩ := startExchange_next h
    exact .second hb he hc
  · cases h; exact .idle (.inr ⟨hb, he, hc⟩)

end Sys2Proof.Machine
end

