-- ==== Sys2Proof/Laws/PerInstr.lean ====
section
/-! SUPPORT. Per-instruction family TableRow: an instruction's encoding has the fixed bits of its row of
spec/opcode_table.json. -/

namespace Sys2Proof.Laws.TableRow

/-- The encoding has the row's fixed bits. -/
def Statement (i : Instr) : Prop := i.wellFormed = true → i.rowBits.matched (encode i) = true

theorem init (m : Byte) (p : Bool) : Statement (.init m p) := fun _ => rfl
theorem add (c : Byte) (v : Word) : Statement (.add c v) := fun _ => rfl
theorem remove (c : Byte) : Statement (.remove c) := fun _ => rfl
theorem set (c : Byte) (v : Word) : Statement (.set c v) := fun _ => rfl
theorem emit : Statement .emit := fun _ => rfl
theorem sendCommand (k c o : Byte) (v : Word) (z : Byte) : Statement (.sendCommand k c o v z) := fun _ => rfl
theorem setChannelId (a b : Byte) : Statement (.setChannelId a b) := fun _ => rfl
theorem setChannelIdSingle (b : Byte) : Statement (.setChannelIdSingle b) := fun _ => rfl
theorem shutdown : Statement .shutdown := fun _ => rfl
theorem reqSet1 (c o d k : Byte) : Statement (.reqSet1 c o d k) := fun _ => rfl
theorem reqSet2 (c o : Byte) (d : Word) (k : Byte) : Statement (.reqSet2 c o d k) := fun _ => rfl
theorem reqGet1 (c o d k : Byte) : Statement (.reqGet1 c o d k) := fun _ => rfl
theorem reqGet2 (c o : Byte) (d : Word) (k : Byte) : Statement (.reqGet2 c o d k) := fun _ => rfl
theorem reqStatus1 (c o d k : Byte) : Statement (.reqStatus1 c o d k) := fun _ => rfl
theorem reqStatus2 (c o : Byte) (d : Word) (k : Byte) : Statement (.reqStatus2 c o d k) := fun _ => rfl
theorem reqModeA1 (c o d k : Byte) : Statement (.reqModeA1 c o d k) := fun _ => rfl
theorem reqModeA2 (c o : Byte) (d : Word) (k : Byte) : Statement (.reqModeA2 c o d k) := fun _ => rfl
theorem bcast (l t : Byte) (es : List Entry) (k : Byte) : Statement (.bcast l t es k) := fun _ => by
  simp [Instr.rowBits, encode, cmdModeA, keyByte]
theorem resp (m l : Byte) (p : List Byte) (k : Byte) : Statement (.resp m l p k) := fun _ => rfl

end Sys2Proof.Laws.TableRow
end

