-- ==== Sys2Proof/Laws/Template.lean ====
section
/-! SUPPORT. The template, byte by byte: what `seal` and the three mutations leave at each offset, and what the invariant
says of the cells. -/

namespace Sys2Proof.Machine

/-! The invariant's cells. -/

theorem State.TemplateInv.cell_some {s : State} (h : s.TemplateInv) {a : Nat} (ha : a < entryAt s.count + 1) :
    ∃ v, s.tpl.cell? a = some v :=
  Memory.cell?_of_mem_fst (by rw [h.support]; exact List.mem_range.2 ha)

theorem State.TemplateInv.cell_none {s : State} (h : s.TemplateInv) {a : Nat} (ha : entryAt s.count + 1 ≤ a) :
    s.tpl.cell? a = none := by
  cases hc : s.tpl.cell? a with
  | none => rfl
  | some v =>
    have := List.mem_map_of_mem (f := Prod.fst) (Memory.mem_of_cell? hc)
    rw [h.support, List.mem_range] at this
    omega

/-- The template's bytes, whole. -/
theorem State.TemplateInv.eq_ofBytes {s : State} (h : s.TemplateInv) :
    s.tpl = Memory.ofBytes 0 (s.tpl.map Prod.snd) ∧ (s.tpl.map Prod.snd).length = entryAt s.count + 1 := by
  have hl : s.tpl.length = entryAt s.count + 1 := by
    have := congrArg List.length h.support
    simpa using this
  refine ⟨Memory.eq_ofBytes_of_support _ 0 (entryAt s.count + 1) (by rw [h.support, List.range_eq_range']), by simpa using hl⟩

/-! `seal`. -/

theorem State.cell?_seal (s : State) (a : Nat) : s.seal.tpl.cell? a =
    if a < entryAt s.count + 1 then
      if a = entryAt s.count then some (crc8 s.cfg (s.sealLength.tplBytes .checksum 0 (entryAt s.count)))
      else if a = 1 then some (lengthByte (2 + 4 * s.count)) else s.tpl.cell? a
    else none := by
  simp only [State.seal, State.dropDead, State.sealChecksum, State.sealLength, Memory.cell?_keepBelow,
    Memory.cell?_put]

theorem State.cell?_sealChecksum (s : State) (a : Nat) : s.sealChecksum.tpl.cell? a =
    if a = entryAt s.count then some (crc8 s.cfg (s.tplBytes .checksum 0 (entryAt s.count))) else s.tpl.cell? a := by
  simp only [State.sealChecksum, Memory.cell?_put]

/-- The bytes a checksum covers, where they are specified. -/
theorem State.getElem?_tplBytes (s : State) (u : Use) {n a : Nat} (ha : a < n) (h : (s.tpl.cell? a).isSome) :
    (s.tplBytes u 0 n)[a]? = s.tpl.cell? a := by
  obtain ⟨v, hv⟩ := Option.isSome_iff_exists.1 h
  rw [State.tplBytes, Memory.getElem?_readBytes, if_pos ha, Nat.zero_add, Memory.read_of_cell hv, hv]

@[simp] theorem State.length_tplBytes (s : State) (u : Use) (a n : Nat) : (s.tplBytes u a n).length = n := by
  simp [State.tplBytes]

/-! The mutations, before they are sealed. -/

theorem State.cell?_appendEntry (id : Byte) (v : Word) (s : State) (a : Nat) :
    (s.appendEntry id v).tpl.cell? a =
      if a < entryAt s.count then s.tpl.cell? a
      else if a = entryAt s.count then some id
      else if a = entryAt s.count + 1 then some s.cfg.rsvByte
      else if a = entryAt s.count + 2 then some (hiByte v)
      else if a = entryAt s.count + 3 then some (loByte v)
      else s.tpl.cell? a := by
  rw [State.appendEntry, Memory.cell?_putBytes]
  by_cases h0 : a < entryAt s.count
  · rw [if_pos h0, if_neg (by omega)]
  · rw [if_neg h0]
    obtain ⟨d, rfl⟩ : ∃ d, a = entryAt s.count + d := ⟨a - entryAt s.count, by omega⟩
    rw [Nat.add_sub_cancel_left]
    match d with
    | 0 => simp
    | 1 => simp
    | 2 => simp
    | 3 => simp
    | d + 4 => simp

theorem State.cell?_removeEntry {k : Nat} {s : State} (hk : k < s.count)
    (hs : ∀ a < entryAt s.count, (s.tpl.cell? a).isSome) (a : Nat) :
    (s.removeEntry k).tpl.cell? a =
      if entryAt k ≤ a ∧ a < entryAt (s.count - 1) then s.tpl.cell? (a + 4) else s.tpl.cell? a := by
  rw [State.removeEntry, Memory.cell?_putBytes, State.length_tplBytes]
  have e : entryAt k + 4 * (s.count - 1 - k) = entryAt (s.count - 1) := by simp only [entryAt]; omega
  rw [e]
  by_cases h : entryAt k ≤ a ∧ a < entryAt (s.count - 1)
  · rw [if_pos h, if_pos h, State.tplBytes, Memory.getElem?_readBytes, if_pos (by omega)]
    have e2 : entryAt (k + 1) + (a - entryAt k) = a + 4 := by simp only [entryAt] at *; omega
    rw [e2]
    obtain ⟨v, hv⟩ := Option.isSome_iff_exists.1 (hs (a + 4) (by simp only [entryAt] at *; omega))
    rw [Memory.read_of_cell hv, hv]
  · rw [if_neg h, if_neg h]

theorem State.cell?_setPosition (v : Word) (k : Nat) (s : State) (a : Nat) :
    (s.setPosition v k).tpl.cell? a =
      if a = entryAt k + 2 then some (hiByte v) else if a = entryAt k + 3 then some (loByte v) else s.tpl.cell? a := by
  rw [State.setPosition, Memory.cell?_putBytes]
  by_cases h2 : a = entryAt k + 2
  · subst h2; simp
  · rw [if_neg h2]
    by_cases h3 : a = entryAt k + 3
    · subst h3; simp
    · rw [if_neg h3, if_neg (by simp; omega)]

/-! How a state comes to meet the invariant. -/

/-- `seal` keeps the canonical form. -/
theorem State.wf_seal {s : State} (h : s.tpl.wf) : s.seal.tpl.wf :=
  Memory.keepBelow_wf (Memory.put_wf (Memory.put_wf h _ _) _ _) _

/-- A template whose bytes are a frame `f` and its checksum meets the template invariants, if its entries do (R36). -/
theorem State.templateInv_of_cells {s : State} (hwf : s.tpl.wf) (f : List Byte) (hl : f.length = entryAt s.count)
   (hc : ∀ a, s.tpl.cell? a = (f ++ [crc8 s.cfg f])[a]?)
   (h0 : f[0]? = some 0xA4) (h1 : f[1]? = some (lengthByte (2 + 4 * s.count))) (h2 : f[2]? = some 0) (h3 : f[3]? = some s.cfg.typeByte)
   (hr : ∀ i < s.count, ∀ b ∈ s.tpl.cell? (entryAt i), b.toNat ≤ 0x3F)
   (hd : ∀ i < s.count, ∀ j < s.count, s.tpl.cell? (entryAt i) = s.tpl.cell? (entryAt j) → i = j)
   (hv : ∀ i < s.count, s.tpl.cell? (entryAt i + 1) = some s.cfg.rsvByte) : s.TemplateInv := by
  have he : s.tpl = Memory.ofBytes 0 (f ++ [crc8 s.cfg f]) := Memory.eq_ofBytes hwf hc
  have hg : ∀ a < 4, s.tpl.cell? a = f[a]? := by
    intro a ha
    rw [hc, List.getElem?_append_left (by rw [hl]; simp [entryAt]; omega)]
  refine ⟨?_, ?_, ?_, ?_, ?_, ?_, hr, hd, hv⟩
  · rw [he, Memory.ofBytes_map_fst, List.range_eq_range']; simp [hl]
  · rw [hg 0 (by omega), h0]
  · rw [hg 1 (by omega), h1]
  · rw [hg 2 (by omega), h2]
  · rw [hg 3 (by omega), h3]
  · rw [he, Memory.ofBytes_take, Memory.ofBytes_map_snd, Memory.cell?_ofBytes, ← hl]
    simp

/-- Sealing a template whose header and entries are in order gives the template invariants (R36, R105). -/
theorem State.templateInv_seal {w : State} (hwf : w.tpl.wf) (hs : ∀ a < entryAt w.count, a ≠ 1 → (w.tpl.cell? a).isSome)
   (h0 : w.tpl.cell? 0 = some 0xA4) (h2 : w.tpl.cell? 2 = some 0) (h3 : w.tpl.cell? 3 = some w.cfg.typeByte)
   (hr : ∀ i < w.count, ∀ b ∈ w.tpl.cell? (entryAt i), b.toNat ≤ 0x3F)
   (hd : ∀ i < w.count, ∀ j < w.count, w.tpl.cell? (entryAt i) = w.tpl.cell? (entryAt j) → i = j)
   (hv : ∀ i < w.count, w.tpl.cell? (entryAt i + 1) = some w.cfg.rsvByte) : w.seal.TemplateInv := by
  have e0 : entryAt w.count = 4 + 4 * w.count := rfl
  have hcell : ∀ a < entryAt w.count, a ≠ 1 → w.seal.tpl.cell? a = w.tpl.cell? a := by
    intro a ha h1
    rw [State.cell?_seal, if_pos (by omega), if_neg (by omega), if_neg h1]
  let f := w.sealLength.tplBytes .checksum 0 (entryAt w.count)
  have hl : f.length = entryAt w.count := by simp [f]
  have hf : ∀ a < entryAt w.count, f[a]? = w.seal.tpl.cell? a := by
    intro a ha
    have : (w.sealLength.tpl.cell? a).isSome := by
      simp only [State.sealLength, Memory.cell?_put]
      split
      · rfl
      · exact hs a ha ‹_›
    rw [State.getElem?_tplBytes _ _ ha this, State.cell?_seal, if_pos (by omega), if_neg (by omega)]
    simp only [State.sealLength, Memory.cell?_put]
  refine State.templateInv_of_cells (s := w.seal) (State.wf_seal hwf) f hl ?_ ?_ ?_ ?_ ?_ ?_ ?_ ?_
  · intro a
    by_cases ha : a < entryAt w.count
    · rw [List.getElem?_append_left (by omega), hf a ha]
    · rw [State.cell?_seal]
      by_cases h : a = entryAt w.count
      · subst h; rw [if_pos (by omega), if_pos rfl, ← hl]; simp [f]
      · rw [if_neg (by omega)]; symm; rw [List.getElem?_eq_none_iff]; simp [hl]; omega
  · rw [hf 0 (by omega), hcell 0 (by omega) (by omega), h0]
  · rw [hf 1 (by omega), State.cell?_seal, if_pos (by omega), if_neg (by omega), if_pos rfl]; rfl
  · rw [hf 2 (by omega), hcell 2 (by omega) (by omega), h2]
  · rw [hf 3 (by omega), hcell 3 (by omega) (by omega), h3]; rfl
  · intro i hi b hb
    have hi : i < w.count := hi
    have e : entryAt i = 4 + 4 * i := rfl
    rw [hcell _ (by omega) (by omega)] at hb
    exact hr i hi b hb
  · intro i hi j hj h
    have hi : i < w.count := hi
    have hj : j < w.count := hj
    have e : entryAt i = 4 + 4 * i := rfl
    have e' : entryAt j = 4 + 4 * j := rfl
    rw [hcell _ (by omega) (by omega), hcell _ (by omega) (by omega)] at h
    exact hd i hi j hj h
  · intro i hi
    have hi : i < w.count := hi
    have e : entryAt i = 4 + 4 * i := rfl
    rw [hcell _ (by omega) (by omega)]; exact hv i hi

/-- The template invariants see `tpl`, `count` and the parameters only. -/
theorem State.templateInv_congr {s t : State} (h : s.TemplateInv) (h1 : t.tpl = s.tpl) (h2 : t.count = s.count) (h3 : t.cfg = s.cfg) : t.TemplateInv := by
  obtain ⟨a, b, c, d, e, f, g, i, j⟩ := h
  exact ⟨by rwa [h1, h2], by rwa [h1], by rwa [h1, h2], by rwa [h1], by rwa [h1, h3], by rwa [h1, h2, h3], by rwa [h1, h2], by rwa [h1, h2], by rwa [h1, h2, h3]⟩

/-- The invariant does not see the agents' inputs, the step's number or the log. -/
theorem State.inv_congr {s t : State} (h : s.Inv) (e : t = { s with turns := t.turns, hostOps := t.hostOps, draws := t.draws, bus := t.bus, wire := t.wire }) : t.Inv := by
  rw [e]
  obtain ⟨a1, a2, a3, a4, a5, a6, a7, a8, a9, a10, a11, a12, a13, a14, a15, a16, a17, a18, a19⟩ := h
  exact ⟨a1, a2, a3, a4, a5, a6, fun h => State.templateInv_congr (a7 h) rfl rfl rfl, a8, fun p hp => by have := a9 p hp; cases p <;> exact this, a10, a11, a12, a13, a14, a15, a16, a17, a18, a19⟩

/-! Emission from a state that meets the invariant. -/

/-- The snapshot of a template that meets the invariant is the template (R51, R63, R120). -/
theorem State.TemplateInv.mir_snapshot {s : State} (h : s.TemplateInv) :
    (s.snapshot (entryAt s.count + 1)).mir = s.tpl := by
  obtain ⟨h1, h2⟩ := h.eq_ofBytes
  have h3 : s.tplBytes .snapshot 0 (entryAt s.count + 1) = s.tpl.map Prod.snd := by
    rw [State.tplBytes, ← h2]
    conv_lhs => rw [h1]
    rw [Memory.ofBytes_map_snd]
    exact Memory.readBytes_ofBytes _ _ _
  rw [State.mir_snapshot, h3, ← h1]

/-- What EMIT transmits from a state that meets the invariant: the live template, which then stands in a clean mirror
(R61, R62, R120). -/
theorem State.Inv.execEmit_eq {s : State} (h : s.Inv) (hi : s.inited = true) (he : s.eng = .idle) (hb : s.busy = false)
    (hc : s.count ≠ 0) :
    execEmit s = .next { s with mir := s.tpl, dirty := false, wire := s.wire ++ [.tx (s.tpl.map Prod.snd)] } := by
  have hT := h.template hi
  have hcap := h.capacity hi
  obtain ⟨h1, h2⟩ := hT.eq_ofBytes
  have hn : (lengthByte (2 + 4 * s.count)).toNat + 3 = entryAt s.count + 1 := by
    simp [lengthByte, entryAt]; omega
  have ht : ∀ u : State, u.mir = s.tpl → u.maxServo = s.maxServo →
      u.transmitMirror = .next (u.log [.tx (s.tpl.map Prod.snd)]) := by
    intro u hu hm
    refine transmitMirror_eq (l := lengthByte (2 + 4 * s.count)) (by rw [hu, hT.length]) (by rw [hn, h2]) ?_ ?_
    · intro a _
      rw [hu]
      conv_lhs => rw [h1, Memory.cell?_ofBytes]
      simp
    · rw [h2, hm]; simp only [entryAt]; omega
  have hl : s.tplByte .snapshotLen 1 = lengthByte (2 + 4 * s.count) := Memory.read_of_cell hT.length _ _
  simp only [execEmit, State.emitGate_of_open hi he hb hc, hl, hn]
  split
  · rw [State.inBuffer_of_le (by simp only [entryAt]; omega), ht _ hT.mir_snapshot rfl]
    have hs : s.snapshot (entryAt s.count + 1) =
        { s with mir := (s.snapshot (entryAt s.count + 1)).mir, dirty := false } := rfl
    rw [hT.mir_snapshot] at hs
    rw [hs]
    rfl
  · have hd : s.dirty = false := by simpa using ‹¬ s.dirty = true›
    have hm := h.mirror hi hd hc
    rw [ht s hm rfl]
    simp only [State.log, ← hm, ← hd]

end Sys2Proof.Machine
end

