-- ==== Sys2Proof/Tests/Slice0.lean ====
section
/-! SUPPORT. The model's own tests: ill-formed terms, words written out from the spec's encodings, one step each on the
spec's vectors (spec/95_test_vectors.md; the concrete checksums assume U11's candidate table), and for every statement with
hypotheses a state and operands that meet them. -/

namespace Sys2Proof.Tests

open Sys2Proof Sys2Proof.Machine

/-! WellFormed: a term each check refuses. -/

theorem test_bcast_length_must_fit : (Instr.bcast 7 0 [⟨5, 0, 1⟩] 0).wellFormed = false := by decide
theorem test_bcast_needs_an_entry : (Instr.bcast 2 0 [] 0).wellFormed = false := by decide
theorem test_bcast_at_most_fifty : (Instr.bcast 206 0 (List.replicate 51 ⟨1, 0, 0⟩) 0).wellFormed = false := by decide
theorem test_bcast_fifty : (Instr.bcast 202 0 (List.replicate 50 ⟨1, 0, 0⟩) 0).wellFormed = true := by decide
theorem test_resp_payload_must_fit : (Instr.resp 0x21 5 [0, 1, 4, 1] 0).wellFormed = false := by decide

/-! Decode: every constructor, from a word written out from 30_encoding.md. -/

theorem test_decode_init : decode .host [0b0000_0000, 50, 0b0000_0001] = .ok (.init 50 true, []) := by decide
theorem test_decode_add : decode .host [0b0000_0001, 0x45, 0x12, 0x34] = .ok (.add 0x45 0x1234, []) := by decide
theorem test_decode_remove : decode .host [0b0000_0010, 0x85] = .ok (.remove 0x85, []) := by decide
theorem test_decode_set : decode .host [0b0000_0011, 0x0A, 0xED, 0xB6] = .ok (.set 10 0xEDB6, []) := by decide
theorem test_decode_emit : decode .host [0b0000_0100] = .ok (.emit, []) := by decide
theorem test_decode_send_command :
    decode .host [0b0000_0101, 0x20, 2, 0x10, 0x12, 0x34, 2] = .ok (.sendCommand 0x20 2 0x10 0x1234 2, []) := by decide
theorem test_decode_set_channel_id : decode .host [0b0000_0110, 1, 9] = .ok (.setChannelId 1 9, []) := by decide
theorem test_decode_set_channel_id_single : decode .host [0b0000_0111, 9] = .ok (.setChannelIdSingle 9, []) := by decide
theorem test_decode_shutdown : decode .host [0b0000_1000] = .ok (.shutdown, []) := by decide
theorem test_decode_req_set_1 : decode .transmit [0b0010_0000, 4, 0, 0x02, 0x10, 0x34, 0xD5] =
    .ok (.reqSet1 2 0x10 0x34 0xD5, []) := by decide
theorem test_decode_req_set_2 : decode .transmit [0b0010_0000, 5, 0, 0x02, 0x10, 0x12, 0x34, 0xEB] =
    .ok (.reqSet2 2 0x10 0x1234 0xEB, []) := by decide
theorem test_decode_req_get_1 : decode .transmit [0b0010_0001, 4, 0, 0x01, 0x16, 0x00, 0x73] =
    .ok (.reqGet1 1 0x16 0 0x73, []) := by decide
theorem test_decode_req_get_2 : decode .transmit [0b0010_0001, 5, 0, 0x01, 0x04, 0x00, 0x00, 0x28] =
    .ok (.reqGet2 1 4 0 0x28, []) := by decide
theorem test_decode_req_status_1 : decode .transmit [0b0010_0010, 4, 0, 0x41, 0x05, 0x00, 0xA2] =
    .ok (.reqStatus1 0x41 5 0 0xA2, []) := by decide
theorem test_decode_req_status_2 : decode .transmit [0b0010_0010, 5, 0, 0x01, 0x06, 0xAB, 0xCD, 0x11] =
    .ok (.reqStatus2 1 6 0xABCD 0x11, []) := by decide
theorem test_decode_req_modea_1 : decode .transmit [0b1010_0100, 4, 0, 0x02, 0x20, 0x7F, 0x22] =
    .ok (.reqModeA1 2 0x20 0x7F 0x22, []) := by decide
theorem test_decode_req_modea_2 : decode .transmit [0b1010_0100, 5, 0, 0x02, 0x20, 0x00, 0x00, 0xF4] =
    .ok (.reqModeA2 2 0x20 0 0xF4, []) := by decide
theorem test_decode_bcast :
    decode .transmit [0b1010_0100, 10, 0, 0x00, 0x05, 0x00, 0x7F, 0xFF, 0x0A, 0x00, 0x12, 0x49, 0x38] =
    .ok (.bcast 10 0 [⟨5, 0, 0x7FFF⟩, ⟨10, 0, 0x1249⟩] 0x38, []) := by decide
theorem test_decode_resp : decode .receive [0x21, 4, 0x00, 0x01, 0x04, 0x55, 0xEA, 0x77] =
    .ok (.resp 0x21 4 [0x00, 0x01, 0x04, 0x55] 0xEA, [0x77]) := by decide

/-! Decode: words that are no instruction. -/

theorem test_selector_nine : decode .host [9] = .error .badOperation := by decide
theorem test_selector_sixteen : decode .host [16, 0] = .error .reservedBits := by decide
theorem test_init_pin_two : decode .host [0, 3, 2] = .error .reservedBits := by decide
theorem test_add_truncated : decode .host [1, 5, 0] = .error .truncated := by decide
theorem test_request_key : decode .transmit [0x20, 4, 1, 2, 0x10, 0x34, 0xD5] = .error .reservedBits := by decide
theorem test_request_command : decode .transmit [0x23, 4, 0, 2, 0x10, 0x34, 0xD5] = .error .unknownCommand := by decide
theorem test_bcast_id_bit_six : decode .transmit [0xA4, 6, 0, 0, 0x45, 0, 0, 1, 0] = .error .reservedBits := by decide

/-! The host's words of table rows. -/

theorem test_table_add : decodeTableWord 4 1 = some (.add 0 0) := by decide
theorem test_table_req_get_2 : decodeTableWord 64 0x2105_0001_0400_0028 = some (.reqGet2 1 4 0 0x28) := by decide
theorem test_table_fetch_runs : step (State.reset.withFetchWord 4 1) = .refused .notInitialised := by rfl

/-! States of the vectors. -/

/-- A template frame. -/
def frame1 : List Byte := [0xA4, 0x06, 0x00, 0x00, 0x05, 0x00, 0x7F, 0xFF, 0xBB]

/-- Vector G5's template frame. -/
def frame3 : List Byte :=
  [0xA4, 0x0E, 0, 0, 0x01, 0, 0x7F, 0xFF, 0x02, 0, 0, 0, 0x03, 0, 0xFF, 0xFF, 0xE6]

/-- Reset, with the candidate parameters. -/
def bare : State := { State.reset with cfg := candidateConfig }

/-- After INIT(3, 1), ADD(5, 0x7FFF). -/
def one : State := { bare with
  maxServo := 3, hasDirPin := true, inited := true, count := 1, dirOe := true, dirty := true
  tpl := Memory.ofBytes 0 frame1 }

/-- `one`, and the mirror holds the frame. -/
def clean : State := { one with dirty := false, mir := Memory.ofBytes 0 frame1 }

/-- After INIT(3, 0) and the three ADDs of G5. -/
def three : State := { one with hasDirPin := false, dirOe := false, count := 3, tpl := Memory.ofBytes 0 frame3 }

/-- After INIT(3, 1). -/
def empty : State := { one with
  count := 0, dirty := false, tpl := Memory.ofBytes 0 [0xA4, 0x02, 0x00, 0x00, 0xE8] }

/-- `one`, with request Q1 built. -/
def sending : State := { one with
  eng := .sending, lCmd := 0x21, lId := 1, lOrder := 4, lSize := .two, sentLen := 8
  mir := Memory.ofBytes 0 [0x21, 5, 0, 1, 4, 0, 0, 0x28] }

/-- A read stage of Q1's exchange; ENGINE moves next. -/
def stage (e : Eng) (rx : List Byte) (bus : List (List Byte)) : State := { sending with
  eng := e, dirLevel := e.receiving, mir := [], rxs := Memory.ofBytes 0 rx, bus := bus, turns := [.engine] }

/-- The response of Q1 or Q2 stands to be validated. -/
def validating (z : ValueSize) : State := { sending with eng := .validating, mir := [], lSize := z, sentLen := z.bytes + 6 }

/-- SET_CHANNEL_ID(1, 9) between its exchanges. -/
def between : State := { one with
  cidPhase := .second, lCmd := 0x20, lId := 1, lOrder := 1, lValue := 2, lNewid := 9, turns := [.engine] }

/-- An accepted mutation of `s`; ENGINE moves next. -/
def busyWith (p : Pending) (s : State) : State := { s with busy := true, pend := some p, turns := [.engine] }

/-- The checksum of a response of length byte 3. -/
def crcOf3 : Byte := crc8 candidateConfig [0x21, 3, 0, 1, 4]

/-- The step goes on, and the next state is as `p` says. -/
def holds (o : Out) (p : State → Bool) : Bool :=
  match o with
  | .next t => p t
  | .fault _ => false
  | .refused _ => false

/-! One step each: the spec's vectors. -/

/-- L3, and L1's lower end of the clamp. -/
theorem test_init_clamps : holds (exec (.init 255 true) bare) (fun t => t.maxServo == 50 && t.dirOe && !t.dirLevel) &&
    holds (exec (.init 0 false) bare) (fun t => t.maxServo == 1) = true := by decide
/-- L4. -/
theorem test_init_template : holds (exec (.init 3 true) bare) (fun t =>
    t.tpl == Memory.ofBytes 0 [0xA4, 2, 0, 0, 0xE8] && t.wire == [.opened 250000 300, .dirOut, .dir false]) = true := by
  decide
/-- G1: the id is masked. -/
theorem test_add_masks : holds (exec (.add 0x45 1) empty) (fun t => t.busy && t.pend == some (.add 5 1 0)) = true := by
  decide
/-- 1.1 step 2, the commit. -/
theorem test_add_commit : holds (step (busyWith (.add 10 0x1249 1) one)) (fun t => t.count == 2 && !t.busy &&
    t.tpl == Memory.ofBytes 0 [0xA4, 10, 0, 0, 5, 0, 0x7F, 0xFF, 10, 0, 0x12, 0x49, 0x38]) = true := by decide
/-- G9. -/
theorem test_remove_empty : holds (exec (.remove 5) empty) (fun t => t.resCode == .emptyRegistry && t.tpl == empty.tpl) =
    true := by decide
/-- G13, the commit. -/
theorem test_remove_commit : holds (step (busyWith (.remove 2 1) three)) (fun t => t.count == 2 &&
    t.tpl == Memory.ofBytes 0 [0xA4, 10, 0, 0, 1, 0, 0x7F, 0xFF, 3, 0, 0xFF, 0xFF, 0xAD]) = true := by decide
/-- G16: the id is masked. -/
theorem test_set_masks : holds (exec (.set 0xC5 0) one) (fun t => t.pend == some (.set 5 0 0)) = true := by decide
/-- G16, the commit. -/
theorem test_set_commit : holds (step (busyWith (.set 5 0 0) one)) (fun t => t.count == 1 &&
    t.tpl == Memory.ofBytes 0 [0xA4, 6, 0, 0, 5, 0, 0, 0, 0x20]) = true := by decide
/-- M2; and a longer frame that stood in the mirror before leaves nothing there (R63). -/
theorem test_emit_snapshot : holds (exec .emit { one with mir := Memory.ofBytes 0 frame3 }) (fun t =>
    t.wire == [.tx frame1] && !t.dirty && t.mir == Memory.ofBytes 0 frame1) = true := by decide
/-- M4. -/
theorem test_emit_skips : holds (exec .emit (busyWith (.set 5 0 0) clean)) (fun t => t.wire == [] && !t.dirty) = true := by
  decide
/-- Q4: the upper byte of the value is dropped. -/
theorem test_send_command : holds (exec (.sendCommand 0x20 2 0x10 0x1234 1) one) (fun t =>
    t.mir == Memory.ofBytes 0 [0x20, 4, 0, 2, 0x10, 0x34, 0xD5] && t.sentLen == 7 && t.eng == .sending) = true := by decide
/-- Section 2.3, refusals. -/
theorem test_send_command_refuses : exec (.sendCommand 0x23 1 4 0 2) one = .refused .badCommand ∧
    exec (.sendCommand 0x21 1 4 0 3) one = .refused .badValueSize := ⟨by rfl, by rfl⟩
/-- I1, the first request. -/
theorem test_set_channel_id : holds (exec (.setChannelId 1 9) one) (fun t => t.cidPhase == .first && t.lNewid == 9 &&
    t.mir == Memory.ofBytes 0 [0x20, 4, 0, 1, 1, 2, 0x7A]) = true := by decide
/-- I1, the second request. -/
theorem test_second_exchange : holds (step between) (fun t => t.eng == .sending &&
    t.mir == Memory.ofBytes 0 [0x20, 4, 0, 1, 3, 9, 0xCB]) = true := by decide
/-- I8. -/
theorem test_single_with_pin : holds (exec (.setChannelIdSingle 9) clean) (fun t =>
    t.resCode == .restrictedTopology && !t.dirty && t.wire == []) = true := by decide
/-- I7, the first request. -/
theorem test_single_without_pin : holds (exec (.setChannelIdSingle 9) three) (fun t =>
    t.mir == Memory.ofBytes 0 [0x20, 4, 0, 0, 1, 2, 0xD1]) = true := by decide
/-- L8. -/
theorem test_shutdown : holds (exec .shutdown one) (fun t => t.wire == [.dirRelease, .closed] && !t.inited && !t.dirOe) =
    true := by decide
/-- Q2's and Q1's frames: `TX`, `TXDRAIN`, `DIR(1)`. -/
theorem test_requests_transmit : holds (exec (.reqGet1 1 0x16 0 0x73) sending) (fun t => t.eng == .awaitingEcho &&
      t.wire == [.tx [0x21, 4, 0, 1, 0x16, 0, 0x73], .txDrain, .dir true]) &&
    holds (exec (.reqGet2 1 4 0 0x28) sending) (fun t => t.dirLevel && t.sentLen == 8) = true := by decide
/-- Q7 (E2): channel 0 completes at once. -/
theorem test_channel_zero : holds (exec (.reqSet2 0 0x11 0x1234 0x47) sending) (fun t => t.eng == .idle && !t.resValid &&
    t.wire == [.tx [0x20, 5, 0, 0, 0x11, 0x12, 0x34, 0x47], .txDrain, .dir true, .dir false]) = true := by decide
/-- M2's frame as an instruction. -/
theorem test_bcast_transmits : holds (exec (.bcast 6 0 [⟨5, 0, 0x7FFF⟩] 0xBB) clean) (fun t => t.wire == [.tx frame1]) =
    true := by decide
/-- E9: sign extension. -/
theorem test_resp_sign : holds (exec (.resp 0x21 4 [0, 1, 0x16, 0x80] 0xFF) (validating .one)) (fun t =>
    t.resCode == .ok && t.resValid && t.resValue == 0xFF80) = true := by decide
/-- E7 and E8: the CRC is tested before the sentinel. -/
theorem test_resp_order_of_checks :
    holds (exec (.resp 0x21 4 [0, 1, 6, 0] 0x9F) (validating .one)) (fun t => t.resCode == .unsupported) &&
    holds (exec (.resp 0x21 4 [0, 1, 6, 0] 0x60) (validating .one)) (fun t => t.resCode == .crcError) = true := by decide
/-- E3. -/
theorem test_echo_timeout : holds (step (stage .awaitingEcho [] [[]])) (fun t =>
    t.resCode == .timeout && t.wire == [.read 8 [], .dir false] && !t.dirLevel) = true := by decide
/-- E18 and E17: 0x0E + 3 fits 17 bytes, 0x0F + 3 does not. -/
theorem test_header_fits : holds (step (stage .awaitingResponseHeader [] [[0x21, 0x0E]])) (fun t =>
    t.eng == .awaitingResponseBody && t.rxs == [(0, 0x21), (1, 0x0E)]) = true := by decide
theorem test_header_overruns : (match step (stage .awaitingResponseHeader [] [[0x21, 0x0F]]) with
    | .fault (.rxOverrun left) => left.eng == .idle && !left.dirLevel
    | .fault _ => false
    | .next _ => false
    | .refused _ => false) = true := by decide
/-- E16: the body of a response shorter than the request's layout. -/
theorem test_body_fills : holds (step (stage .awaitingResponseBody [0x21, 4] [[0, 1, 4, 0x55, 0xEA]])) (fun t =>
    t.rxs == Memory.ofBytes 0 [0x21, 4, 0, 1, 4, 0x55, 0xEA] && t.wire == [.read 5 [0, 1, 4, 0x55, 0xEA], .dir false]) =
    true := by decide
/-- K13, K17. -/
theorem test_crc8 : crc8 candidateConfig [0xA4, 2, 0, 0] = 0xE8 ∧
    crc8 candidateConfig [0x21, 5, 0, 1, 4, 0x81, 0x23, 0x2D] = 0x62 := by decide
/-- The bits above the table's are zero, and a response row runs. -/
theorem test_table_response : holds (step (State.withFetchWord (validating .one) 16 0x2100)) (fun t => t.eng == .idle) =
    true := by decide

/-! States that meet the invariant. -/

theorem reset_buffers_wf : State.reset.tpl.wf ∧ State.reset.mir.wf ∧ State.reset.rxs.wf := by decide
theorem one_template : one.TemplateInv := by constructor <;> decide
theorem one_inv : one.Inv := by constructor <;> first | decide | exact fun _ => one_template
theorem clean_inv : clean.Inv := by constructor <;> first | decide | (intro _; constructor <;> decide)
theorem sending_inv : sending.Inv := by constructor <;> first | decide | (intro _; constructor <;> decide)
theorem header_inv : State.Inv { stage .awaitingResponseHeader [] [[0x21, 0x0F]] with turns := [] } := by
  constructor <;> first | decide | (intro _; constructor <;> decide)
theorem candidate_zero : candidateConfig.TableZero := by unfold Config.TableZero; decide
theorem candidate_nonzero : candidateConfig.TableNonzero := by unfold Config.TableNonzero; decide

/-! For every statement with hypotheses, a state and operands that meet all of them together; for a statement of several
clauses, one for each clause, at the bounds where it has a range. -/

/-- The outcome is a next state. -/
def goesOn (o : Out) : Prop := ∃ t, o = .next t

theorem witness_ResetTurnAbandonsEverything : State.turns { sending with turns := [.reset, .host] } = .reset :: [.host] :=
  rfl
theorem witness_InitCompletes :
    bare.inited = false ∧ bare.eng = .idle ∧ bare.busy = false ∧ bare.cidPhase = .none := by decide
theorem witness_ShutdownCompletes :
    one.inited = true ∧ one.eng = .idle ∧ one.busy = false ∧ one.cidPhase = .none := by decide
theorem witness_OperationsOutsideTheirLifetimeAreRefused :
    (Instr.shutdown.port = .host ∧ (∀ m p, Instr.shutdown ≠ .init m p) ∧ bare.inited = false) ∧ one.inited = true :=
  ⟨⟨rfl, nofun, rfl⟩, rfl⟩
theorem witness_OverlappingHostOperationFaults :
    (Instr.add 1 2).port = .host ∧ Instr.add 1 2 ≠ .emit ∧ (∀ m p, Instr.add 1 2 ≠ .init m p) ∧
    (sending.inited = true ∧ sending.eng ≠ .idle) ∧
    (State.inited (busyWith (.add 1 2 1) one) = true ∧ State.busy (busyWith (.add 1 2 1) one) = true) ∧
    (between.inited = true ∧ between.cidPhase ≠ .none) :=
  ⟨rfl, nofun, nofun, by decide, by decide, by decide⟩
theorem witness_BroadcastDuringExchangeFaults : sending.inited = true ∧ sending.eng ≠ .idle := by decide
theorem witness_LookupFindsTheLeastIndex : one.find 5 = some 0 ∧ one.find 6 = none ∧
    (one.tpl = clean.tpl ∧ one.count = clean.count ∧ one.draws = clean.draws) ∧
    (one.TemplateInv ∧ 0 < one.count ∧ one.tplByte .lookup (4 + 4 * 0) = 5) :=
  ⟨by decide, by decide, by decide, one_template, by decide, by decide⟩
theorem witness_SealRecomputesLengthAndChecksum :
    ∀ a < 4 + 4 * one.count, a ≠ 1 → (one.tpl.cell? a).isSome := by decide
theorem witness_AddAppendsTheEntry : one.Inv ∧ one.inited = true ∧ one.eng = .idle ∧ one.busy = false ∧
    one.cidPhase = .none ∧ one.count < one.maxServo ∧
    (∀ i < one.count, one.tpl.cell? (4 + 4 * i) ≠ some ((0x4A : Byte) &&& 0x3F)) :=
  ⟨one_inv, by decide, by decide, by decide, by decide, by decide, by decide⟩
theorem witness_RemoveClosesTheGap : one.Inv ∧ one.inited = true ∧ one.eng = .idle ∧ one.busy = false ∧
    one.cidPhase = .none ∧ 0 < one.count ∧ one.tpl.cell? (4 + 4 * 0) = some ((0x85 : Byte) &&& 0x3F) :=
  ⟨one_inv, by decide, by decide, by decide, by decide, by decide, by decide⟩
theorem witness_SetReplacesThePosition : one.Inv ∧ one.inited = true ∧ one.eng = .idle ∧ one.busy = false ∧
    one.cidPhase = .none ∧ 0 < one.count ∧ one.tpl.cell? (4 + 4 * 0) = some ((0xC5 : Byte) &&& 0x3F) :=
  ⟨one_inv, by decide, by decide, by decide, by decide, by decide, by decide⟩
/-- Full at the bound `count = MAX_SERVO`; a duplicate one below it; empty; an absent id. -/
theorem witness_FailingMutatorsChangeNothing :
    (three.inited = true ∧ three.eng = .idle ∧ three.busy = false ∧ three.cidPhase = .none ∧
      three.maxServo ≤ three.count) ∧
    (one.inited = true ∧ one.eng = .idle ∧ one.busy = false ∧ one.cidPhase = .none ∧
      0 < one.count ∧ one.count < one.maxServo ∧ one.tpl.cell? (4 + 4 * 0) = some ((5 : Byte) &&& 0x3F)) ∧
    (empty.inited = true ∧ empty.eng = .idle ∧ empty.busy = false ∧ empty.cidPhase = .none ∧ empty.count = 0) ∧
    (one.count ≠ 0 ∧ ∀ i < one.count, ∃ b, one.tpl.cell? (4 + 4 * i) = some b ∧ b ≠ (6 : Byte) &&& 0x3F) :=
  ⟨by decide, by decide, by decide, by decide, fun i hi => ⟨5, by
    obtain rfl : i = 0 := by change i < 1 at hi; omega
    decide⟩⟩
theorem witness_AddThenRemoveRestoresTheTemplate :
    let s : State := { one with hostOps := encode (.add 10 1) :: encode (.remove 10) :: [[4]] }
    s.Inv ∧ s.inited = true ∧ s.eng = .idle ∧ s.busy = false ∧ s.cidPhase = .none ∧ s.turns = [] ∧
    s.count < s.maxServo ∧ (∀ i < s.count, s.tpl.cell? (4 + 4 * i) ≠ some ((10 : Byte) &&& 0x3F)) ∧
    s.hostOps = encode (.add 10 1) :: encode (.remove 10) :: [[4]] := by
  refine ⟨?_, by decide, by decide, by decide, by decide, by decide, by decide, by decide, by decide⟩
  constructor <;> first | decide | (intro _; constructor <;> decide)
theorem witness_RegistryKeepsOffTheWire : goesOn (exec (.add 10 1) one) ∧ goesOn (exec (.remove 5) one) ∧
    goesOn (exec (.set 5 1) one) ∧ (State.busy (busyWith (.set 5 0 0) one) = true ∧
      goesOn (engineStep (busyWith (.set 5 0 0) one))) :=
  ⟨⟨_, rfl⟩, ⟨_, rfl⟩, ⟨_, rfl⟩, rfl, ⟨_, rfl⟩⟩
theorem witness_OnlyTheRegistryWritesTheTemplate :
    (goesOn (step { one with turns := [.tick] }) ∧ State.mover { one with turns := [.tick] } = .tick) ∧
    (goesOn (step (stage .awaitingEcho [] [[1]])) ∧ State.mover (stage .awaitingEcho [] [[1]]) = .engine ∧
      State.busy (stage .awaitingEcho [] [[1]]) = false) ∧
    (goesOn (step { one with hostOps := [[2, 5]] }) ∧ State.mover { one with hostOps := [[2, 5]] } = .host ∧
      decode .host [2, 5] = .ok (.remove 5, []) ∧ (∀ m p, Instr.remove 5 ≠ .init m p) ∧ Instr.remove 5 ≠ .shutdown) :=
  ⟨⟨⟨_, rfl⟩, rfl⟩, ⟨⟨_, rfl⟩, rfl, rfl⟩, ⟨_, rfl⟩, rfl, rfl, nofun, nofun⟩
theorem witness_EmitSnapshotsAndTransmits : one.inited = true ∧ one.eng = .idle ∧ one.busy = false ∧ one.count ≠ 0 ∧
    one.dirty = true ∧ one.tpl.cell? 1 = some 6 ∧ frame1.length = (6 : Byte).toNat + 3 ∧
    (∀ a < frame1.length, one.tpl.cell? a = frame1[a]?) ∧ frame1.length ≤ 4 * one.maxServo + 5 := by decide
theorem witness_EmitRepeatsTheMirror : clean.inited = true ∧ clean.eng = .idle ∧ clean.busy = false ∧ clean.count ≠ 0 ∧
    clean.dirty = false ∧ clean.mir.cell? 1 = some 6 ∧ frame1.length = (6 : Byte).toNat + 3 ∧
    (∀ a < frame1.length, clean.mir.cell? a = frame1[a]?) ∧ frame1.length ≤ 4 * clean.maxServo + 5 := by decide
theorem witness_EmitSkipsWhenBusyOrEmpty :
    (empty.inited = true ∧ empty.eng = .idle ∧ empty.count = 0) ∧
    (State.inited (busyWith (.set 5 0 0) one) = true ∧ State.eng (busyWith (.set 5 0 0) one) = .idle ∧
      State.busy (busyWith (.set 5 0 0) one) = true) := by decide
theorem witness_EmitEmitsAtMostOneTx : goesOn (exec .emit one) ∧ one.Inv := ⟨⟨_, rfl⟩, one_inv⟩
theorem witness_BroadcastsAreWellFormedFrames :
    one.Inv ∧ one.cfg.TableZero ∧ ∃ t, exec .emit one = .next t ∧ t.wire ≠ one.wire :=
  ⟨one_inv, candidate_zero, _, rfl, by decide⟩
theorem witness_BroadcastFrameIsTransmitted : (Instr.bcast 6 0 [⟨5, 0, 0x7FFF⟩] 0xBB).wellFormed = true ∧
    one.inited = true ∧ one.eng = .idle ∧ one.busy = false ∧ one.count ≠ 0 ∧
    (encode (.bcast 6 0 [⟨5, 0, 0x7FFF⟩] 0xBB)).length ≤ 4 * one.maxServo + 5 := by decide
theorem witness_SendCommandStartsTheExchange : one.inited = true ∧ one.eng = .idle ∧ one.busy = false ∧
    one.cidPhase = .none ∧ 1 ≤ one.maxServo ∧ (0x20 : Byte) ∈ [(0x20 : Byte), 0x21, 0x22, 0xA4] ∧
    (0xA4 : Byte) ∈ [(0x20 : Byte), 0x21, 0x22, 0xA4] := by decide
theorem witness_SendCommandRefusesOtherOperands : one.inited = true ∧ one.eng = .idle ∧ one.busy = false ∧
    one.cidPhase = .none ∧ (0x23 : Byte) ∉ [(0x20 : Byte), 0x21, 0x22, 0xA4] ∧
    (0x22 : Byte) ∈ [(0x20 : Byte), 0x21, 0x22, 0xA4] ∧ (0 : Byte) ≠ 1 ∧ (0 : Byte) ≠ 2 ∧ (3 : Byte) ≠ 1 ∧
    (3 : Byte) ≠ 2 := by decide
theorem witness_RequestBuiltIsARequestFrame :
    (0xA4 : Byte) ∈ [(0x20 : Byte), 0x21, 0x22, 0xA4] ∧ candidateConfig.TableZero := ⟨by decide, candidate_zero⟩
theorem witness_RequestFrameAwaitsItsEcho : sending.eng = .sending ∧ 1 ≤ sending.maxServo ∧ (1 : Byte) ≠ 0 := by decide
theorem witness_RequestFrameOfChannelZeroCompletes : sending.eng = .sending ∧ 1 ≤ sending.maxServo := by decide
theorem witness_FramesOutOfTurnAreRefused : (requestChannel (.reqSet1 1 2 3 4) = some 1 ∧ one.eng ≠ .sending) ∧
    ((Instr.resp 0 0 [] 0).port = .receive ∧ one.eng ≠ .validating) := by decide
theorem witness_SilentStageTimesOut :
    let e := stage .awaitingEcho [] []
    let h := stage .awaitingResponseHeader [] [[]]
    let b := stage .awaitingResponseBody [0x21, 0xFF] []
    (e.turns = .engine :: [] ∧ e.busy = false ∧ e.bus.headD [] = [] ∧ e.eng = .awaitingEcho) ∧
    (h.turns = .engine :: [] ∧ h.busy = false ∧ h.bus.headD [] = [] ∧ h.eng = .awaitingResponseHeader) ∧
    (b.turns = .engine :: [] ∧ b.busy = false ∧ b.bus.headD [] = [] ∧ b.eng = .awaitingResponseBody ∧
      b.rxs.cell? 1 = some 0xFF) := by decide
theorem witness_EchoIsDiscarded :
    let s := stage .awaitingEcho [] [[0, 0, 0]]
    s.turns = .engine :: [] ∧ s.busy = false ∧ s.eng = .awaitingEcho ∧ (s.bus.headD []).take s.sentLen ≠ [] := by decide
/-- Both sides of the bound (E18, E17). -/
theorem witness_HeaderStageReadsTheLength :
    let fits := stage .awaitingResponseHeader [] [[0x21, 0x0E]]
    let big := stage .awaitingResponseHeader [] [[0x21, 0x0F, 0]]
    (fits.turns = .engine :: [] ∧ fits.busy = false ∧ fits.eng = .awaitingResponseHeader ∧
      fits.bus.headD [] = 0x21 :: 0x0E :: [] ∧ (0x0E : Byte).toNat + 3 ≤ 4 * fits.maxServo + 5) ∧
    (big.turns = .engine :: [] ∧ big.busy = false ∧ big.eng = .awaitingResponseHeader ∧
      big.bus.headD [] = 0x21 :: 0x0F :: [0] ∧ 4 * big.maxServo + 5 < (0x0F : Byte).toNat + 3) := by decide
theorem witness_HeaderStageWithoutALength :
    let s := stage .awaitingResponseHeader [] [[0x21]]
    s.turns = .engine :: [] ∧ s.busy = false ∧ s.eng = .awaitingResponseHeader ∧ s.bus.headD [] = [0x21] ∧
    s.rxs = [] := by decide
/-- A short answer, a length of 0, and no length (E15). -/
theorem witness_BodyStageFillsTheScratch :
    let s := stage .awaitingResponseBody [0x21, 5] [[0, 1, 4]]
    let z := stage .awaitingResponseBody [0x21, 0] [[5]]
    let u := stage .awaitingResponseBody [0x21] [[0, 1, 4]]
    (s.turns = .engine :: [] ∧ s.busy = false ∧ s.eng = .awaitingResponseBody ∧ s.bus.headD [] ≠ [] ∧
      s.rxs.cell? 1 = some 5) ∧
    (z.turns = .engine :: [] ∧ z.busy = false ∧ z.eng = .awaitingResponseBody ∧ z.bus.headD [] ≠ [] ∧
      z.rxs.cell? 1 = some 0) ∧
    (u.turns = .engine :: [] ∧ u.busy = false ∧ u.eng = .awaitingResponseBody ∧ u.bus.headD [] ≠ [] ∧
      u.rxs.cell? 1 = none) := by decide
theorem witness_CorruptedResponseIsCrcError : (Instr.resp 0x21 5 [0, 1, 4, 1, 0x23] 0x2C).wellFormed = true ∧
    (validating .two).eng = .validating ∧
    crc8 (validating .two).cfg (encode (.resp 0x21 5 [0, 1, 4, 1, 0x23] 0x2C)) ≠ 0 ∧
    ((validating .two).cfg.TableZero ∧ (validating .two).cfg.TableNonzero ∧
      (0x2C : Byte) ≠ crc8 (validating .two).cfg (0x21 :: 5 :: [0, 1, 4, 1, 0x23])) :=
  ⟨by decide, by decide, by decide, candidate_zero, candidate_nonzero, by decide⟩
theorem witness_ResponseWithSentinelIsUnsupported : (Instr.resp 0x21 4 [0, 1, 6, 0] 0x9F).wellFormed = true ∧
    (validating .one).eng = .validating ∧ crc8 (validating .one).cfg (encode (.resp 0x21 4 [0, 1, 6, 0] 0x9F)) = 0 ∧
    (encode (.resp 0x21 4 [0, 1, 6, 0] 0x9F))[4]? = some (validating .one).cfg.orderUnsupported := by decide
/-- Size 2; size 1 with no byte at offset 6, the data byte being the frame's own checksum (length byte 3). -/
theorem witness_ValidResponseIsDecoded :
    ((Instr.resp 0x21 5 [0, 1, 4, 1, 0x23] 0x2D).wellFormed = true ∧ (validating .two).eng = .validating ∧
      crc8 (validating .two).cfg (encode (.resp 0x21 5 [0, 1, 4, 1, 0x23] 0x2D)) = 0 ∧
      (encode (.resp 0x21 5 [0, 1, 4, 1, 0x23] 0x2D))[4]? = some 4 ∧ (4 : Byte) ≠ (validating .two).cfg.orderUnsupported ∧
      (encode (.resp 0x21 5 [0, 1, 4, 1, 0x23] 0x2D))[5]? = some 1 ∧
      ((validating .two).lSize = .two → (encode (.resp 0x21 5 [0, 1, 4, 1, 0x23] 0x2D))[6]? = some 0x23)) ∧
    ((Instr.resp 0x21 3 [0, 1, 4] crcOf3).wellFormed = true ∧ (validating .one).eng = .validating ∧
      crc8 (validating .one).cfg (encode (.resp 0x21 3 [0, 1, 4] crcOf3)) = 0 ∧
      (encode (.resp 0x21 3 [0, 1, 4] crcOf3))[4]? = some 4 ∧ (4 : Byte) ≠ (validating .one).cfg.orderUnsupported ∧
      (encode (.resp 0x21 3 [0, 1, 4] crcOf3))[5]? = some crcOf3 ∧ (validating .one).lSize ≠ .two) := by decide
/-- E20 (no order byte), and the largest length below the layout's, with the sentinel and with another order byte. -/
theorem witness_ShortResponseStillCompletes :
    ((Instr.resp 0x21 0 [] (crc8 candidateConfig [0x21, 0])).wellFormed = true ∧ (validating .two).eng = .validating ∧
      (0 : Byte).toNat < 4 ∧
      crc8 (validating .two).cfg (encode (.resp 0x21 0 [] (crc8 candidateConfig [0x21, 0]))) = 0) ∧
    ((Instr.resp 0x21 3 [0, 1, 4] crcOf3).wellFormed = true ∧ (validating .one).eng = .validating ∧
      (3 : Byte).toNat < 4 ∧ crc8 (validating .one).cfg (encode (.resp 0x21 3 [0, 1, 4] crcOf3)) = 0 ∧
      (encode (.resp 0x21 3 [0, 1, 4] crcOf3))[4]? ≠ some (validating .one).cfg.orderUnsupported) ∧
    ((Instr.resp 0x21 3 [0, 1, 6] (crc8 candidateConfig [0x21, 3, 0, 1, 6])).wellFormed = true ∧
      crc8 (validating .one).cfg (encode (.resp 0x21 3 [0, 1, 6] (crc8 candidateConfig [0x21, 3, 0, 1, 6]))) = 0 ∧
      (encode (.resp 0x21 3 [0, 1, 6] (crc8 candidateConfig [0x21, 3, 0, 1, 6])))[4]? =
        some (validating .one).cfg.orderUnsupported) := by decide
theorem witness_ExchangeEndsWithinFiveSteps : sending.Inv ∧ sending.turns = [] ∧ sending.eng ≠ .idle :=
  ⟨sending_inv, by decide, by decide⟩
theorem witness_SetChannelIdStartsItsFirstExchange : one.inited = true ∧ one.eng = .idle ∧ one.busy = false ∧
    one.cidPhase = .none ∧ 1 ≤ one.maxServo := by decide
theorem witness_SetChannelIdSingleNeedsNoPin :
    (one.inited = true ∧ one.eng = .idle ∧ one.busy = false ∧ one.cidPhase = .none ∧ one.hasDirPin = true) ∧
    (three.inited = true ∧ three.eng = .idle ∧ three.busy = false ∧ three.cidPhase = .none ∧ three.hasDirPin = false ∧
      1 ≤ three.maxServo) := by decide
theorem witness_SecondExchangeWritesTheNewId : between.turns = .engine :: [] ∧ between.busy = false ∧
    between.eng = .idle ∧ between.cidPhase = .second ∧ 1 ≤ between.maxServo := by decide
/-- An exchange that ends, in each phase (in the first with Timeout and with Ok), and one that goes on. -/
theorem witness_FirstFailureEndsSetChannelId :
    let f : State := { stage .awaitingEcho [] [] with cidPhase := .first }
    let k : State := { sending with cidPhase := .first, lId := 0 }
    let g : State := { stage .awaitingEcho [] [] with cidPhase := .second }
    let n : State := stage .awaitingEcho [] []
    let c : State := { stage .awaitingEcho [] [[1]] with cidPhase := .first }
    (f.mover = .engine ∧ f.busy = false ∧ f.eng ≠ .idle ∧ ∃ t, step f = .next t ∧ t.eng = .idle ∧ f.cidPhase = .first) ∧
    (k.mover = .engine ∧ k.busy = false ∧ k.eng ≠ .idle ∧ ∃ t, step k = .next t ∧ t.eng = .idle ∧ k.cidPhase = .first ∧
      t.resCode = .ok) ∧
    (g.mover = .engine ∧ g.busy = false ∧ g.eng ≠ .idle ∧ ∃ t, step g = .next t ∧ t.eng = .idle ∧ g.cidPhase = .second) ∧
    (n.mover = .engine ∧ n.busy = false ∧ n.eng ≠ .idle ∧ ∃ t, step n = .next t ∧ t.eng = .idle ∧ n.cidPhase = .none) ∧
    (c.mover = .engine ∧ c.busy = false ∧ c.eng ≠ .idle ∧ ∃ t, step c = .next t ∧ t.eng ≠ .idle) :=
  ⟨⟨rfl, rfl, by decide, _, rfl, rfl, rfl⟩, ⟨rfl, rfl, by decide, _, rfl, rfl, rfl, rfl⟩,
    ⟨rfl, rfl, by decide, _, rfl, rfl, rfl⟩, ⟨rfl, rfl, by decide, _, rfl, rfl, rfl⟩, ⟨rfl, rfl, by decide, _, rfl, by decide⟩⟩
/-- One step of U11's recurrence, backwards. -/
def unstep (c : Byte) : Byte := if c.msb then ((c ^^^ 0x8C) <<< 1) ||| 1 else c <<< 1

set_option maxRecDepth 8000 in
theorem unstep_candidate : ∀ x : Byte, unstep (unstep (unstep (unstep (unstep (unstep (unstep (unstep
    (candidateConfig.crcTable.get x.toFin)))))))) = x := by decide
theorem candidate_injective : candidateConfig.TableInjective := fun x y h => by
  rw [← unstep_candidate x, ← unstep_candidate y, h]
theorem witness_TablePropertiesDecideDetection :
    candidateConfig.TableZero ∧ candidateConfig.TableInjective ∧ (0x2C : Byte) ≠ 0x2D :=
  ⟨candidate_zero, candidate_injective, by decide⟩
theorem witness_DecodeInvertsEncode : (Instr.bcast 6 0 [⟨5, 0, 0x7FFF⟩] 0xBB).wellFormed = true := by decide
theorem witness_EncodeInvertsDecode :
    decode .receive [0x21, 1, 0, 0x55, 9] = .ok (.resp 0x21 1 [0] 0x55, [9]) ∧
    decode .host [2, 5, 7] = .ok (.remove 5, [7]) ∧
    decode .transmit [0x20, 4, 0, 2, 0x10, 0x34, 0xD5] = .ok (.reqSet1 2 0x10 0x34 0xD5, []) := by decide
theorem witness_EncodingsHaveTheirRowsFixedBits : (Instr.resp 0x21 1 [0] 0x55).wellFormed = true := by decide
theorem witness_UnassignedSelectorsAreRefused :
    let s : State := { one with hostOps := [[9], [15, 1]] }
    let r : State := { one with hostOps := [[15, 1]] }
    (s.mover = .host ∧ s.hostOps = (9 :: []) :: [[15, 1]] ∧ 9 ≤ (9 : Byte).toNat ∧ (9 : Byte).toNat ≤ 15) ∧
    (r.mover = .host ∧ r.hostOps = (15 :: [1]) :: [] ∧ 9 ≤ (15 : Byte).toNat ∧ (15 : Byte).toNat ≤ 15) := by decide
theorem witness_StepRunsTheDecodedOperation :
    let s : State := { one with hostOps := [[2, 5, 0]] }
    (s.mover = .host ∧ s.hostOps = [2, 5, 0] :: [] ∧ decode .host [2, 5, 0] = .ok (.remove 5, [0])) ∧
    State.mover { one with turns := [.tick] } = .tick := by decide
theorem witness_StepRunsTheFrameInItsBuffer :
    let r : State := { validating .two with rxs := Memory.ofBytes 0 [0x21, 1, 0, 0x55] }
    let b : State := { clean with turns := [.tick] }
    (sending.mover = .engine ∧ sending.busy = false ∧ sending.eng = .sending ∧
      sending.mir = Memory.ofBytes 0 [0x21, 5, 0, 1, 4, 0, 0, 0x28] ∧ sending.sentLen = 8 ∧
      decode .transmit [0x21, 5, 0, 1, 4, 0, 0, 0x28] = .ok (.reqGet2 1 4 0 0x28, []) ∧
      requestChannel (.reqGet2 1 4 0 0x28) = some sending.lId) ∧
    (r.mover = .engine ∧ r.busy = false ∧ r.eng = .validating ∧ r.rxs = Memory.ofBytes 0 [0x21, 1, 0, 0x55] ∧
      decode .receive [0x21, 1, 0, 0x55] = .ok (.resp 0x21 1 [0] 0x55, [])) ∧
    (b.mover = .tick ∧ b.dirty = false ∧ b.mir = Memory.ofBytes 0 frame1 ∧
      decode .transmit frame1 = .ok (.bcast 6 0 [⟨5, 0, 0x7FFF⟩] 0xBB, []) ∧
      (Instr.bcast 6 0 [⟨5, 0, 0x7FFF⟩] 0xBB).wellFormed = true) := by decide
theorem witness_EveryStepKeepsTheInvariant : sending.Inv ∧ goesOn (step sending) := ⟨sending_inv, _, rfl⟩
theorem witness_NoOffsetLeavesItsBuffer : sending.Inv := sending_inv
theorem witness_WaitingHostNeverOverlaps :
    let s : State := { stage .awaitingResponseHeader [] [[0x21, 0x0F]] with turns := [] }
    s.Inv ∧ s.turns = [] ∧ ∃ f, step s = .fault f := ⟨header_inv, rfl, _, rfl⟩
theorem witness_StepsOnlyAppendToTheLog :
    (goesOn (step { one with turns := [.tick] }) ∧ State.mover { one with turns := [.tick] } ≠ .reset) ∧
    (goesOn (step { one with hostOps := [[8]] }) ∧ State.mover { one with hostOps := [[8]] } = .host) ∧
    (goesOn (step sending) ∧ sending.mover = .engine) :=
  ⟨⟨⟨_, rfl⟩, by decide⟩, ⟨⟨_, rfl⟩, rfl⟩, ⟨_, rfl⟩, rfl⟩
theorem witness_CapacityAndPinAreFixedByInit :
    let s : State := { bare with hostOps := [[0, 3, 1]] }
    s.mover ≠ .reset ∧ ∃ t, step s = .next t ∧ t.maxServo ≠ s.maxServo ∧ t.hasDirPin ≠ s.hasDirPin :=
  ⟨by decide, _, rfl, by decide, by decide⟩
/-- Each way `dirty` is cleared. -/
theorem witness_OnlyAnEmissionClearsDirty :
    (∃ t, step { one with turns := [.reset] } = .next t ∧ one.dirty = true ∧ t.dirty = false) ∧
    (∃ t, step { one with hostOps := [[8]] } = .next t ∧ one.dirty = true ∧ t.dirty = false) ∧
    (∃ t, step { one with turns := [.tick] } = .next t ∧ one.dirty = true ∧ t.dirty = false) :=
  ⟨⟨_, rfl, rfl, rfl⟩, ⟨_, rfl, rfl, rfl⟩, ⟨_, rfl, rfl, rfl⟩⟩
theorem witness_OperationsAnswerTheirResultKinds :
    (goesOn (step { one with hostOps := [[2, 6]] }) ∧ State.mover { one with hostOps := [[2, 6]] } ≠ .reset) ∧
    goesOn (step (busyWith (.set 5 0 0) one)) ∧ goesOn (step (stage .awaitingEcho [] [])) ∧
    goesOn (step { validating .two with rxs := Memory.ofBytes 0 [0x21, 5, 0, 1, 4, 1, 0x23, 0x2D] }) :=
  ⟨⟨⟨_, rfl⟩, by decide⟩, ⟨_, rfl⟩, ⟨_, rfl⟩, ⟨_, rfl⟩⟩

end Sys2Proof.Tests
end

section
/-! PROOFS. The registry's lookup (R101) and `seal()` (R105): what `find` answers, and the cells `seal` leaves. -/

namespace Sys2Proof.Machine

/-! Lookup. -/

theorem State.find_eq_some_iff {s : State} {m : Byte} {k : Nat} : s.find m = some k ↔
    k < s.count ∧ s.tplByte .lookup (entryAt k) = m ∧ ∀ j < k, s.tplByte .lookup (entryAt j) ≠ m := by
  simp [State.find, State.findFrom_some]

theorem State.find_eq_none_iff {s : State} {m : Byte} :
    s.find m = none ↔ ∀ j < s.count, s.tplByte .lookup (entryAt j) ≠ m := by
  simp [State.find, State.findFrom_none]

theorem State.tplByte_congr {s t : State} (htpl : s.tpl = t.tpl) (hdraws : s.draws = t.draws) (u : Use) (a : Nat) :
    s.tplByte u a = t.tplByte u a := by
  rw [State.tplByte, State.tplByte, htpl, hdraws]

/-- `find` is determined by the count and the id bytes it reads. -/
theorem State.find_congr {s t : State} (htpl : s.tpl = t.tpl) (hcount : s.count = t.count) (hdraws : s.draws = t.draws)
    (m : Byte) : s.find m = t.find m :=
  Option.ext fun k => by
    simp only [State.find_eq_some_iff, State.tplByte_congr htpl hdraws, hcount]

/-- Under the invariant the id byte of a live entry is specified, so a lookup reads it from its cell. -/
theorem State.TemplateInv.cell?_id {s : State} (h : s.TemplateInv) {i : Nat} (hi : i < s.count) :
    s.tpl.cell? (entryAt i) = some (s.tplByte .lookup (entryAt i)) := by
  obtain ⟨v, hv⟩ := h.cell_some (a := entryAt i) (by simp only [entryAt]; omega)
  rw [State.tplByte, Memory.read_of_cell hv, hv]

/-- R36 (I-d): two live entries with the same id byte are one entry. -/
theorem State.TemplateInv.index_eq_of_tplByte_eq {s : State} (h : s.TemplateInv) {j k : Nat} (hj : j < s.count)
    (hk : k < s.count) (hid : s.tplByte .lookup (entryAt j) = s.tplByte .lookup (entryAt k)) : j = k :=
  h.idsDistinct j hj k hk (by rw [h.cell?_id hj, h.cell?_id hk, hid])

/-- Settles O9: the least-index search over the id bytes, read through their cells for uniqueness. -/
theorem lookupFindsTheLeastIndex : Obligations.LookupFindsTheLeastIndex :=
  ⟨fun _ _ _ => State.find_eq_some_iff,
    fun _ _ => State.find_eq_none_iff,
    fun _ _ m htpl hcount hdraws => State.find_congr htpl hcount hdraws m,
    fun _ _ _ _ h hj hk hjm hkm => h.index_eq_of_tplByte_eq hj hk (hjm.trans hkm.symm)⟩

/-! `seal`. -/

/-- The bytes `seal()` takes the checksum of: those below the checksum slot, once the length byte is new (R105). -/
def State.checkedBytes (s : State) : List Byte := s.sealLength.tplBytes .checksum 0 (entryAt s.count)

@[simp] theorem State.length_checkedBytes (s : State) : s.checkedBytes.length = entryAt s.count :=
  State.length_tplBytes ..

theorem State.cell?_seal_checksum (s : State) : s.seal.tpl.cell? (entryAt s.count) = some (crc8 s.cfg s.checkedBytes) := by
  rw [State.cell?_seal, if_pos (Nat.lt_succ_self _), if_pos rfl, State.checkedBytes]

/-- Below the checksum slot, `seal` leaves what writing the length byte leaves. -/
theorem State.cell?_seal_of_lt {s : State} {a : Nat} (ha : a < entryAt s.count) :
    s.seal.tpl.cell? a = s.sealLength.tpl.cell? a := by
  rw [State.cell?_seal, if_pos (by omega), if_neg (by omega), State.tpl_sealLength, Memory.cell?_put]

theorem State.cell?_seal_length (s : State) : s.seal.tpl.cell? 1 = some (lengthByte (2 + 4 * s.count)) := by
  rw [State.cell?_seal_of_lt (by simp only [entryAt]; omega), State.tpl_sealLength, Memory.cell?_put_self]

theorem State.cell?_seal_of_ne_length {s : State} {a : Nat} (ha : a < entryAt s.count) (h1 : a ≠ 1) :
    s.seal.tpl.cell? a = s.tpl.cell? a := by
  rw [State.cell?_seal_of_lt ha, State.tpl_sealLength, Memory.cell?_put, if_neg h1]

/-- Where the live bytes are specified, the bytes the checksum covers are those `seal` leaves below its slot. -/
theorem State.cell?_seal_eq_checkedBytes {s : State} (hs : ∀ a < entryAt s.count, a ≠ 1 → (s.tpl.cell? a).isSome)
    {a : Nat} (ha : a < entryAt s.count) : s.seal.tpl.cell? a = s.checkedBytes[a]? := by
  have hsome : (s.seal.tpl.cell? a).isSome := by
    by_cases h1 : a = 1
    · rw [h1, State.cell?_seal_length]; rfl
    · rw [State.cell?_seal_of_ne_length ha h1]; exact hs a ha h1
  rw [State.cell?_seal_of_lt ha] at hsome ⊢
  exact (State.getElem?_tplBytes _ _ ha hsome).symm

/-- Settles O10: the bytes the checksum covers are those below its slot after the length byte is written. -/
theorem sealRecomputesLengthAndChecksum : Obligations.SealRecomputesLengthAndChecksum :=
  fun s hs => ⟨s.checkedBytes, s.length_checkedBytes,
    fun _ => State.cell?_seal_eq_checkedBytes hs,
    s.cell?_seal_length,
    s.cell?_seal_checksum,
    fun _ => State.cell?_seal_of_ne_length,
    s.count_seal⟩

end Sys2Proof.Machine
end

section
/-! PROOFS. EMIT's events and frame (R121): what each of its three effects does to the log, `dirty` and the rest. -/

namespace Sys2Proof.Machine

/-- R31: the pin is in transmit mode while the engine is idle. -/
theorem State.Inv.dirLevel_of_idle {s : State} (h : s.Inv) (he : s.eng = .idle) : s.dirLevel = false := by
  simp [h.pinLevel, he, Eng.receiving]

theorem EmitEffect.eng_idle {s t : State} (h : EmitEffect s t) : s.eng = .idle := by
  cases h <;> assumption

theorem EmitEffect.wire_eq_or_tx {s t : State} (h : EmitEffect s t) :
    t.wire = s.wire ∨ ∃ bytes, t.wire = s.wire ++ [.tx bytes] := by
  cases h with
  | skip => exact .inl rfl
  | refresh _ _ b => exact .inr ⟨b, rfl⟩
  | again _ b => exact .inr ⟨b, rfl⟩

theorem EmitEffect.dirty_of_dirty {s t : State} (h : EmitEffect s t) (ht : t.dirty = true) : s.dirty = true := by
  cases h with
  | skip => exact ht
  | refresh _ _ _ _ _ _ _ hd => exact hd
  | again => exact ht

theorem EmitEffect.eq_mir_dirty_wire {s t : State} (h : EmitEffect s t) :
    t = { s with mir := t.mir, dirty := t.dirty, wire := t.wire } := by
  cases h <;> rfl

theorem EmitEffect.dirLevel_eq {s t : State} (h : EmitEffect s t) : t.dirLevel = s.dirLevel := by
  rw [h.eq_mir_dirty_wire]

/-- Settles O21: each clause holds of each of EMIT's effects; the pin is low because EMIT goes on only with the engine
idle. -/
theorem emitEmitsAtMostOneTx : Obligations.EmitEmitsAtMostOneTx := fun _ _ h =>
  have he : EmitEffect _ _ := execEmit_effect h
  ⟨he.wire_eq_or_tx,
    he.dirLevel_eq,
    fun hinv => he.dirLevel_eq.trans (hinv.dirLevel_of_idle he.eng_idle),
    he.dirty_of_dirty,
    he.eq_mir_dirty_wire⟩

end Sys2Proof.Machine
end

section
/-! PROOFS. CRC-8 is the fold of `crcStep` from 0x00 (R160, R161). -/

namespace Sys2Proof.Machine

/-- Settles O44: the fold's two equations are the model's laws of `crc8`; the look-up is `crcStep`'s definition (R160). -/
theorem crcFoldsTheTable : Obligations.CrcFoldsTheTable := fun c p b =>
  ⟨crc8_nil c, crc8_concat c p b, fun _ => rfl⟩

end Sys2Proof.Machine
end

section
/-! PROOFS. What the steps of an exchange leave (R132 to R138), written out as one record update each. -/

namespace Sys2Proof.Machine

/-- R170: only a first exchange that succeeded is followed by a second. -/
theorem CidPhase.after_ok (ph : CidPhase) : ph.after .ok = if ph = .first then .second else .none := by
  cases ph <;> rfl

theorem CidPhase.after_of_ne_ok {k : ResCode} (hk : k ≠ .ok) (ph : CidPhase) : ph.after k = .none := by
  cases ph <;> simp [CidPhase.after, hk]

theorem CidPhase.after_ne_first (k : ResCode) (ph : CidPhase) : ph.after k ≠ .first := by
  by_cases hk : k = .ok
  · rw [hk, CidPhase.after_ok]; split <;> nofun
  · rw [CidPhase.after_of_ne_ok hk]; nofun

theorem State.requestSent_eq (s : State) : s.requestSent = { s with
    mir := [], dirLevel := if s.hasDirPin then true else s.dirLevel
    wire := s.wire ++ [.tx (s.mirBytes .frame 0 s.sentLen), .txDrain] ++ (if s.hasDirPin then [.dir true] else []) } :=
  rfl

/-- The transmit step of channel 0 (R133): receive mode and back, and the exchange is over. -/
theorem State.noReply_eq (s : State) : s.requestSent.restorePin.endExchange .ok none = { s with
    mir := [], eng := .idle, dirLevel := if s.hasDirPin then false else s.dirLevel
    wire := s.wire ++ [.tx (s.mirBytes .frame 0 s.sentLen), .txDrain] ++
      (if s.hasDirPin then [.dir true, .dir false] else [])
    resCode := .ok, resValue := Config.freeWord s.draws, resValid := false
    cidPhase := if s.cidPhase = .first then .second else .none } := by
  rw [State.requestSent_eq, ← CidPhase.after_ok]
  cases hp : s.hasDirPin <;> simp [State.restorePin, State.endExchange]

theorem State.failExchange_eq {k : ResCode} (hk : k ≠ .ok) (s : State) : s.failExchange k = { s with
    rxs := [], eng := .idle, cidPhase := .none, resCode := k, resValue := Config.freeWord s.draws, resValid := false } := by
  rw [← CidPhase.after_of_ne_ok hk s.cidPhase]
  rfl

/-- A read stage that no byte answers (R134 to R137). -/
theorem State.timeout_eq (s : State) (n : Nat) : (s.readBus n).restorePin.failExchange .timeout = { s with
    bus := s.bus.tail, dirLevel := if s.hasDirPin then false else s.dirLevel
    wire := s.wire ++ [.read n (s.busAnswer n)] ++ (if s.hasDirPin then [.dir false] else [])
    rxs := [], eng := .idle, cidPhase := .none
    resCode := .timeout, resValue := Config.freeWord s.draws, resValid := false } := by
  rw [State.failExchange_eq (k := .timeout) nofun]
  rfl

/-- The header stage that goes on (R135). -/
theorem State.headerKept_eq (s : State) : ({ s.headerRead with eng := .awaitingResponseBody } : State) = { s with
    bus := s.bus.tail, wire := s.wire ++ [.read 2 (s.busAnswer 2)], rxs := s.rxs.putBytes 0 (s.busAnswer 2)
    eng := .awaitingResponseBody } :=
  rfl

/-- The state RxOverrun carries (R143). -/
theorem State.headerOverrun_eq (s : State) : ({ s.headerRead.restorePin with eng := .idle } : State) = { s with
    bus := s.bus.tail, dirLevel := if s.hasDirPin then false else s.dirLevel
    wire := s.wire ++ [.read 2 (s.busAnswer 2)] ++ (if s.hasDirPin then [.dir false] else [])
    rxs := s.rxs.putBytes 0 (s.busAnswer 2), eng := .idle } :=
  rfl

/-- The body stage that goes on (R136). -/
theorem State.bodyKept_eq (s : State) (n : Nat) :
    ({ ({ s.readBus n with rxs := s.rxs.putBytes 2 (s.busAnswer n) } : State).restorePin with
      eng := .validating } : State) = { s with
    bus := s.bus.tail, dirLevel := if s.hasDirPin then false else s.dirLevel
    wire := s.wire ++ [.read n (s.busAnswer n)] ++ (if s.hasDirPin then [.dir false] else [])
    rxs := s.rxs.putBytes 2 (s.busAnswer n), eng := .validating } :=
  rfl

end Sys2Proof.Machine
end

section
/-! PROOFS. Every step keeps the block invariant (R36): HOST's operations, EMIT, the commit steps, the engine's stages. -/

namespace Sys2Proof.Machine

/-! What the invariant says of lengths and offsets. -/

theorem ValueSize.bytes_le (z : ValueSize) : z.bytes ≤ 2 := by cases z <;> decide

theorem length_requestBytes (c : Config) (cmd id order : Byte) (value : Word) (size : ValueSize) :
    (requestBytes c cmd id order value size).length = size.bytes + 6 := by
  cases size <;> rfl

/-- The frame's length as EMIT reads it from the template (R36, R120). -/
theorem State.Inv.snapshotLength {s : State} (h : s.Inv) (hi : s.inited = true) :
    (s.tplByte .snapshotLen 1).toNat + 3 = entryAt s.count + 1 := by
  obtain ⟨_, hmax, hcount⟩ := h.capacity hi
  rw [State.tplByte, Memory.read_of_cell (h.template hi).length]
  simp only [lengthByte, BitVec.toNat_ofNat, entryAt]
  omega

theorem State.Inv.tplBound {s : State} (h : s.Inv) (hi : s.inited = true) : ∀ c ∈ s.tpl, c.1 < s.bufCap := by
  intro c hc
  have hmem : c.1 ∈ s.tpl.map Prod.fst := List.mem_map_of_mem hc
  rw [(h.template hi).support, List.mem_range] at hmem
  have hcount := (h.capacity hi).2.2
  simp only [entryAt] at hmem
  simp only [State.bufCap]
  omega

/-- An index found is a live entry that holds the id (R101). -/
theorem State.TemplateInv.cell?_of_find {s : State} (h : s.TemplateInv) {m : Byte} {k : Nat} (hk : s.find m = some k) :
    k < s.count ∧ s.tpl.cell? (entryAt k) = some m := by
  obtain ⟨hlt, hid, _⟩ := State.find_eq_some_iff.1 hk
  exact ⟨hlt, by rw [h.cell?_id hlt, hid]⟩

/-- Whether a mutation is one its checks admitted depends on the template, the count and the capacity alone. -/
theorem Pending.accepted_congr {s t : State} (ht : t.tpl = s.tpl) (hc : t.count = s.count) (hm : t.maxServo = s.maxServo)
    (p : Pending) : p.accepted t = p.accepted s := by
  cases p <;> simp only [Pending.accepted, ht, hc, hm]

/-! Reset and the host operations. -/

/-- The reset registers meet the invariant with any parameters and inputs. -/
theorem State.inv_resetBlock (s : State) : s.resetBlock.Inv := by
  constructor <;> simp [State.resetBlock, State.reset, Memory.wf, Eng.receiving]

/-- Settles O2: the reset state is a reset block. -/
theorem resetStateMeetsInvariant : Obligations.ResetStateMeetsInvariant := State.inv_resetBlock State.reset

theorem State.inv_turnTaken {s : State} (h : s.Inv) : s.turnTaken.Inv := State.inv_congr h rfl

theorem State.inv_withHostOps {s : State} (h : s.Inv) (ops : List (List Byte)) : State.Inv { s with hostOps := ops } :=
  State.inv_congr h rfl

/-- The template INIT leaves: no entry, so only the header and the checksum are to be checked (R180). -/
theorem State.templateInv_initialise (m : Byte) (p : Bool) (s : State) : (s.initialise m p).TemplateInv := by
  refine State.templateInv_of_cells (Memory.ofBytes_wf _ _) [0xA4, 2, 0x00, s.cfg.typeByte] rfl
    (fun a => ?_) rfl rfl rfl rfl ?_ ?_ ?_
  · simp [Memory.cell?_ofBytes, initialTemplate]
  all_goals intro i hi; simp at hi

theorem clampCapacity_bounds (n : Nat) : 1 ≤ clampCapacity n ∧ clampCapacity n ≤ 50 := by
  simp only [clampCapacity, maxFloor, maxCeiling]; omega

theorem State.inv_initialise {s : State} (m : Byte) (p : Bool) : (s.initialise m p).Inv where
  tplWf := Memory.ofBytes_wf _ _
  mirWf := .nil
  rxsWf := .nil
  mirBound := by simp
  rxsBound := by simp
  capacity _ := ⟨(clampCapacity_bounds _).1, (clampCapacity_bounds _).2, Nat.zero_le _⟩
  template _ := State.templateInv_initialise m p s
  pendIff := rfl
  pendOk := by simp
  window := by simp
  quiet := by simp
  pinLevel := by simp [Eng.receiving]
  pinOutput := by simp
  mirror := by simp
  exchange := by simp
  request := by simp
  firstPhase := by simp
  phase := by simp
  resultValid := by simp

theorem State.Inv.shutDown {s : State} (h : s.Inv) (hf : s.Free) : s.shutDown.Inv :=
  { h with
    tplWf := .nil
    mirWf := .nil
    rxsWf := .nil
    mirBound := by simp
    rxsBound := by simp
    capacity := by simp
    template := by simp
    pendOk := by
      have : s.pend = none := by simpa [hf.busy] using h.pendIff.symm
      simp [this]
    window := by simp [hf.busy]
    quiet := fun _ => ⟨hf.eng, hf.phase⟩
    pinOutput := by simp
    mirror := by simp
    exchange := by simp [hf.eng]
    request := by simp [hf.eng]
    resultValid := by simp }

/-- Writing the result latches keeps the invariant, if a value comes with Ok only (R30). -/
theorem State.Inv.complete {s : State} (h : s.Inv) {k : ResCode} {v : Option Word} (hk : v.isSome = true → k = .ok) :
    (s.complete k v).Inv :=
  { h with
    template := fun hi => State.templateInv_congr (h.template hi) rfl rfl rfl
    pendOk := fun p hp => (Pending.accepted_congr rfl rfl rfl p).trans (h.pendOk p hp)
    resultValid := hk }

/-- The begin step of a mutation its checks admitted (R106). -/
theorem State.Inv.beginMutation {s : State} (h : s.Inv) (hf : s.Free) {p : Pending} (hp : p.accepted s = true) :
    (s.beginMutation p).Inv :=
  { h with
    template := fun hi => State.templateInv_congr (h.template hi) rfl rfl rfl
    pendIff := rfl
    pendOk := fun q hq => by
      obtain rfl : p = q := by simpa using hq
      exact (Pending.accepted_congr rfl rfl rfl p).trans hp
    window := fun _ => ⟨hf.inited, hf.eng, hf.phase⟩ }

/-- The start step of an exchange whose command the block has (R131), with the phase of SET_CHANNEL_ID it belongs to. -/
theorem State.Inv.requestBuilt {s : State} (h : s.Inv) (hi : s.inited = true) (he : s.eng = .idle) (hb : s.busy = false)
    {cmd id order : Byte} {value : Word} {size : ValueSize} (hc : commandOk cmd = true) {ph : CidPhase} {n : Byte}
    (hp : ph ≠ .none → cmd = cmdSet ∧ size = .one) :
    State.Inv { s.requestBuilt cmd id order value size with lNewid := n, cidPhase := ph } :=
  { h with
    mirWf := Memory.ofBytes_wf _ _
    rxsWf := .nil
    mirBound := fun _ c hm => by
      have hlt := (Memory.mem_ofBytes _ hm).2
      have hcap := (h.capacity hi).1
      simp only [length_requestBytes] at hlt
      simp only [State.bufCap]
      have := size.bytes_le
      show c.1 < 4 * s.maxServo + 5
      omega
    rxsBound := by simp
    template := fun hi => State.templateInv_congr (h.template hi) rfl rfl rfl
    pendOk := fun p hp => (Pending.accepted_congr rfl rfl rfl p).trans (h.pendOk p hp)
    window := by simp [hb]
    quiet := by simp [hi]
    pinLevel := by simp [h.pinLevel, he, Eng.receiving]
    mirror := by simp
    exchange := fun _ => ⟨rfl, hc, rfl⟩
    request := fun _ => rfl
    firstPhase := by simp
    phase := hp }

/-! EMIT. -/

theorem State.Inv.emitEffect {s t : State} (h : s.Inv) (he : EmitEffect s t) : t.Inv := by
  cases he with
  | skip => exact h
  | again => exact State.inv_congr h rfl
  | refresh n k b hi heng hb hc hd hn =>
    have hT := h.template hi
    obtain rfl : n = entryAt s.count + 1 := by rw [hn, h.snapshotLength hi]
    have hm : (s.snapshot (entryAt s.count + 1)).mir = s.tpl := hT.mir_snapshot
    exact { h with
      mirWf := by rw [State.mir_log, hm]; exact h.tplWf
      mirBound := fun _ c hcell => by
        rw [State.mir_log, hm] at hcell
        exact h.tplBound hi c hcell
      template := fun _ => State.templateInv_congr hT rfl rfl rfl
      pendOk := fun p hp => (Pending.accepted_congr rfl rfl rfl p).trans (h.pendOk p hp)
      mirror := fun _ _ _ => hm
      exchange := fun hne => absurd heng hne
      request := fun hs => by simp [heng] at hs }

/-! HOST's operations. -/

/-- A masked id has its two high bits clear (R78). -/
theorem maskId_le (b : Byte) : (maskId b).toNat ≤ 0x3F := by
  simp only [maskId, idMask, BitVec.toNat_and]
  exact Nat.and_le_right

theorem State.Inv.hostEffect {i : Instr} {s t : State} (h : s.Inv) (he : HostEffect s i t) : t.Inv := by
  cases he with
  | init m p => exact State.inv_initialise m p
  | shutdown hf => exact h.shutDown hf
  | addFail => exact h.complete nofun
  | removeFail => exact h.complete nofun
  | setFail => exact h.complete nofun
  | singleFail => exact h.complete nofun
  | add c v hf hlt hnone =>
    refine h.beginMutation hf ?_
    have hfresh : ∀ i < s.count, s.tpl.cell? (entryAt i) ≠ some (maskId c) := fun i hi hcell =>
      State.find_eq_none_iff.1 hnone i hi (Memory.read_of_cell hcell _ _)
    simpa [Pending.accepted, maskId_le, hlt] using hfresh
  | remove c k hf hk =>
    obtain ⟨hlt, hcell⟩ := (h.template hf.inited).cell?_of_find hk
    exact h.beginMutation hf (by simp [Pending.accepted, hlt, hcell])
  | set c v k hf hk =>
    obtain ⟨hlt, hcell⟩ := (h.template hf.inited).cell?_of_find hk
    exact h.beginMutation hf (by simp [Pending.accepted, hlt, hcell])
  | emit t he => exact h.emitEffect he
  | command k c o v z size hf hk =>
    exact h.requestBuilt hf.inited hf.eng hf.busy hk (fun hp => absurd hf.phase hp)
  | channelId a b hf => exact h.requestBuilt hf.inited hf.eng hf.busy rfl (fun _ => ⟨rfl, rfl⟩)
  | single b hf => exact h.requestBuilt hf.inited hf.eng hf.busy rfl (fun _ => ⟨rfl, rfl⟩)

/-! The commit steps. -/

theorem entryAt_add_lt {i n d : Nat} (hi : i < n) (hd : d < 4) : entryAt i + d < entryAt n := by
  simp only [entryAt]; omega

theorem lt_entryAt_of_lt_four {a : Nat} (ha : a < 4) (n : Nat) : a < entryAt n := by
  simp only [entryAt]; omega

theorem State.cell?_appendEntry_of_lt {s : State} {id : Byte} {v : Word} {a : Nat} (ha : a < entryAt s.count) :
    (s.appendEntry id v).tpl.cell? a = s.tpl.cell? a := by
  rw [State.cell?_appendEntry, if_pos ha]

@[simp] theorem State.cell?_appendEntry_id {s : State} {id : Byte} {v : Word} :
    (s.appendEntry id v).tpl.cell? (entryAt s.count) = some id := by
  simp [State.cell?_appendEntry]

/-- The live bytes of a template in order are specified. -/
theorem State.TemplateInv.isSome {s : State} (h : s.TemplateInv) : ∀ a < entryAt s.count, (s.tpl.cell? a).isSome :=
  fun _ ha => Option.isSome_iff_exists.2 (h.cell_some (by omega))

theorem State.TemplateInv.isSome_appendEntry {s : State} (h : s.TemplateInv) (id : Byte) (v : Word) :
    ∀ a < entryAt (s.count + 1), ((s.appendEntry id v).tpl.cell? a).isSome := by
  intro a ha
  have hlt : a < entryAt s.count + 4 := ha
  rw [State.cell?_appendEntry]
  split
  · exact h.isSome a ‹_›
  · obtain ⟨d, rfl⟩ : ∃ d, a = entryAt s.count + d := ⟨a - entryAt s.count, by omega⟩
    match d with
    | 0 => simp
    | 1 => simp
    | 2 => simp
    | 3 => simp
    | d + 4 => omega

theorem State.TemplateInv.isSome_removeEntry {s : State} (h : s.TemplateInv) {k : Nat} (hk : k < s.count) :
    ∀ a < entryAt (s.count - 1), ((s.removeEntry k).tpl.cell? a).isSome := by
  intro a ha
  simp only [entryAt] at ha
  rw [State.cell?_removeEntry hk h.isSome]
  split <;> exact h.isSome _ (by simp only [entryAt]; omega)

theorem State.TemplateInv.isSome_setPosition {s : State} (h : s.TemplateInv) (v : Word) (k : Nat) :
    ∀ a < entryAt s.count, ((s.setPosition v k).tpl.cell? a).isSome := by
  intro a ha
  rw [State.cell?_setPosition]
  repeat' split
  · rfl
  · rfl
  · exact h.isSome a ha

/-- ADD's sealed template: the old entries are as they were, and the new one has an id of 6 bits that no other has. -/
theorem State.TemplateInv.seal_appendEntry {s : State} (h : s.TemplateInv) (hwf : s.tpl.wf) {id : Byte} (v : Word)
    (hid : id.toNat ≤ 0x3F) (hfresh : ∀ i < s.count, s.tpl.cell? (entryAt i) ≠ some id) :
    (s.appendEntry id v).seal.TemplateInv := by
  have hhead : ∀ a < 4, (s.appendEntry id v).tpl.cell? a = s.tpl.cell? a := fun a ha =>
    State.cell?_appendEntry_of_lt (lt_entryAt_of_lt_four ha _)
  have hold : ∀ i < s.count, (s.appendEntry id v).tpl.cell? (entryAt i) = s.tpl.cell? (entryAt i) := fun i hi =>
    State.cell?_appendEntry_of_lt (entryAt_add_lt (d := 0) hi (by omega))
  refine State.templateInv_seal (Memory.putBytes_wf _ _ hwf) (fun a ha _ => h.isSome_appendEntry id v a ha) ?_ ?_ ?_
    (fun i hi b hb => ?_) (fun i hi j hj hij => ?_) (fun i hi => ?_)
  · rw [hhead 0 (by omega), h.command]
  · rw [hhead 2 (by omega), h.key]
  · rw [hhead 3 (by omega), h.type]; rfl
  · rcases Nat.lt_succ_iff_lt_or_eq.1 hi with hlt | rfl
    · exact h.idRange i hlt b (hold i hlt ▸ hb)
    · obtain rfl : id = b := by simpa using hb
      exact hid
  · rcases Nat.lt_succ_iff_lt_or_eq.1 hi with hi | rfl <;> rcases Nat.lt_succ_iff_lt_or_eq.1 hj with hj | rfl
    · exact h.idsDistinct i hi j hj (by rw [← hold i hi, ← hold j hj, hij])
    · exact absurd (by rw [← hold i hi, hij, State.cell?_appendEntry_id]) (hfresh i hi)
    · exact absurd (by rw [← hold j hj, ← hij, State.cell?_appendEntry_id]) (hfresh j hj)
    · rfl
  · rcases Nat.lt_succ_iff_lt_or_eq.1 hi with hlt | rfl
    · rw [State.cell?_appendEntry_of_lt (entryAt_add_lt hlt (by omega)), h.reserved i hlt]; rfl
    · simp [State.cell?_appendEntry]

/-- Where entry `i` stood before entry `k` was removed. -/
def indexBeforeRemoval (k i : Nat) : Nat := if i < k then i else i + 1

theorem indexBeforeRemoval_lt {k i n : Nat} (hk : k < n) (hi : i < n - 1) : indexBeforeRemoval k i < n := by
  unfold indexBeforeRemoval; split <;> omega

theorem indexBeforeRemoval_injective {k i j : Nat} (h : indexBeforeRemoval k i = indexBeforeRemoval k j) : i = j := by
  unfold indexBeforeRemoval at h; split at h <;> split at h <;> omega

/-- REMOVE's move, entry by entry (R103). -/
theorem State.TemplateInv.cell?_removeEntry_entry {s : State} (h : s.TemplateInv) {k i d : Nat} (hk : k < s.count)
    (hi : i < s.count - 1) (hd : d < 4) :
    (s.removeEntry k).tpl.cell? (entryAt i + d) = s.tpl.cell? (entryAt (indexBeforeRemoval k i) + d) := by
  rw [State.cell?_removeEntry hk h.isSome]
  unfold indexBeforeRemoval
  by_cases hik : i < k
  · rw [if_pos hik, if_neg (by simp only [entryAt]; omega)]
  · rw [if_neg hik, if_pos (by simp only [entryAt]; omega)]
    congr 1
    simp only [entryAt]; omega

theorem State.TemplateInv.seal_removeEntry {s : State} (h : s.TemplateInv) (hwf : s.tpl.wf) {k : Nat} (hk : k < s.count) :
    (s.removeEntry k).seal.TemplateInv := by
  have hcell := State.cell?_removeEntry hk h.isSome
  have hhead : ∀ a < 4, (s.removeEntry k).tpl.cell? a = s.tpl.cell? a := fun a ha => by
    rw [hcell, if_neg (by simp only [entryAt]; omega)]
  refine State.templateInv_seal (Memory.putBytes_wf _ _ hwf) (fun a ha _ => h.isSome_removeEntry hk a ha) ?_ ?_ ?_
    (fun i hi b hb => ?_) (fun i hi j hj hij => ?_) (fun i hi => ?_)
  · rw [hhead 0 (by omega), h.command]
  · rw [hhead 2 (by omega), h.key]
  · rw [hhead 3 (by omega), h.type]; rfl
  · rw [← Nat.add_zero (entryAt i), h.cell?_removeEntry_entry hk hi (by omega)] at hb
    exact h.idRange _ (indexBeforeRemoval_lt hk hi) b hb
  · rw [← Nat.add_zero (entryAt i), ← Nat.add_zero (entryAt j), h.cell?_removeEntry_entry hk hi (by omega),
      h.cell?_removeEntry_entry hk hj (by omega)] at hij
    exact indexBeforeRemoval_injective
      (h.idsDistinct _ (indexBeforeRemoval_lt hk hi) _ (indexBeforeRemoval_lt hk hj) hij)
  · rw [h.cell?_removeEntry_entry hk hi (by omega)]
    exact h.reserved _ (indexBeforeRemoval_lt hk hi)

/-- On a template whose length byte is right and that has nothing above its checksum slot, `seal` only recomputes the
checksum. -/
theorem State.seal_eq_sealChecksum {s : State} (hwf : s.tpl.wf) (hlen : s.tpl.cell? 1 = some (lengthByte (2 + 4 * s.count)))
    (hend : ∀ a, entryAt s.count + 1 ≤ a → s.tpl.cell? a = none) : s.seal = s.sealChecksum := by
  have hl : s.sealLength = s := by
    have : s.tpl.put 1 (lengthByte (2 + 4 * s.count)) = s.tpl :=
      Memory.ext_cells (Memory.put_wf hwf _ _) hwf fun a => by
        rw [Memory.cell?_put]; split
        · subst_vars; exact hlen.symm
        · rfl
    simp only [State.sealLength, this]
  have hd : s.sealChecksum.dropDead = s.sealChecksum := by
    have hwf' : s.sealChecksum.tpl.wf := Memory.put_wf hwf _ _
    have : s.sealChecksum.tpl.keepBelow (entryAt s.count + 1) = s.sealChecksum.tpl :=
      Memory.ext_cells (Memory.keepBelow_wf hwf' _) hwf' fun a => by
        rw [Memory.cell?_keepBelow]; split
        · rfl
        · rw [State.cell?_sealChecksum, if_neg (by omega), hend a (by omega)]
    rw [State.dropDead, State.count_sealChecksum, this]
    rfl
  rw [State.seal, hl, hd]

/-- SET changes two position bytes, neither of which the invariants speak of. -/
theorem State.cell?_setPosition_of_ne {s : State} {v : Word} {k a : Nat} (h2 : a ≠ entryAt k + 2)
    (h3 : a ≠ entryAt k + 3) : (s.setPosition v k).tpl.cell? a = s.tpl.cell? a := by
  rw [State.cell?_setPosition, if_neg h2, if_neg h3]

theorem State.TemplateInv.seal_setPosition {s : State} (h : s.TemplateInv) (hwf : s.tpl.wf) {k : Nat} (hk : k < s.count)
    (v : Word) : (s.setPosition v k).seal = (s.setPosition v k).sealChecksum := by
  refine State.seal_eq_sealChecksum (Memory.putBytes_wf _ _ hwf) ?_ (fun a ha => ?_)
  · rw [State.cell?_setPosition_of_ne (by simp only [entryAt]; omega) (by simp only [entryAt]; omega), h.length]; rfl
  · simp only [State.count_setPosition] at ha
    rw [State.cell?_setPosition_of_ne (by simp only [entryAt] at *; omega) (by simp only [entryAt] at *; omega), h.cell_none ha]

theorem State.TemplateInv.sealChecksum_setPosition {s : State} (h : s.TemplateInv) (hwf : s.tpl.wf) {k : Nat}
    (hk : k < s.count) (v : Word) : (s.setPosition v k).sealChecksum.TemplateInv := by
  have hid : ∀ i d, d < 2 → (s.setPosition v k).tpl.cell? (entryAt i + d) = s.tpl.cell? (entryAt i + d) := fun i d hd =>
    State.cell?_setPosition_of_ne (by simp only [entryAt]; omega) (by simp only [entryAt]; omega)
  have hhead : ∀ a < 4, (s.setPosition v k).tpl.cell? a = s.tpl.cell? a := fun a ha =>
    State.cell?_setPosition_of_ne (by simp only [entryAt]; omega) (by simp only [entryAt]; omega)
  rw [← h.seal_setPosition hwf hk]
  refine State.templateInv_seal (Memory.putBytes_wf _ _ hwf) (fun a ha _ => h.isSome_setPosition v k a ha) ?_ ?_ ?_
    (fun i hi b hb => ?_) (fun i hi j hj hij => ?_) (fun i hi => ?_)
  · rw [hhead 0 (by omega), h.command]
  · rw [hhead 2 (by omega), h.key]
  · rw [hhead 3 (by omega), h.type]; rfl
  · exact h.idRange i hi b (hid i 0 (by omega) ▸ hb)
  · exact h.idsDistinct i hi j hj (by
      rw [← Nat.add_zero (entryAt i), ← Nat.add_zero (entryAt j), ← hid i 0 (by omega), ← hid j 0 (by omega)]
      exact hij)
  · rw [hid i 1 (by omega)]; exact h.reserved i hi

/-- A commit step that leaves a template in order closes the window (R106). -/
theorem State.Inv.commit {s : State} (h : s.Inv) (hb : s.busy = true) {m : Memory} {n : Nat} (hwf : m.wf)
    (hT : State.TemplateInv { s with tpl := m, count := n }) (hn : n ≤ s.maxServo) :
    State.Inv ((({ s with tpl := m, count := n } : State).finishMutation).complete .ok none) := by
  obtain ⟨hi, he, hc⟩ := h.window hb
  obtain ⟨hmin, hmax, _⟩ := h.capacity hi
  exact { h with
    tplWf := hwf
    capacity := fun _ => ⟨hmin, hmax, hn⟩
    template := fun _ => State.templateInv_congr hT rfl rfl rfl
    pendIff := rfl
    pendOk := by simp
    window := by simp
    mirror := by simp
    exchange := fun hne => absurd he hne
    request := fun hs => by simp [he] at hs
    resultValid := fun _ => rfl }

/-! The stages of an exchange. -/

theorem State.Inv.inited_of_exchange {s : State} (h : s.Inv) (he : s.eng ≠ .idle) : s.inited = true := by
  by_contra hi
  exact he (h.quiet (by simpa using hi)).1

/-- Whatever the stage, the pin is low once it is restored (R137). -/
theorem State.Inv.dirLevel_restored {s : State} (h : s.Inv) : (if s.hasDirPin then false else s.dirLevel) = false := by
  split
  · rfl
  · simp [h.pinLevel, *]

/-- What keeps the invariant at a step of an exchange: the mirror is left or forgotten, the scratch stays canonical and in
bounds, the pin is high in the read stages, and the phase is the old one or none, or a second after the exchange. -/
theorem State.Inv.stage {s : State} (h : s.Inv) (he : s.eng ≠ .idle) (hb : s.busy = false) {bus : List (List Byte)}
    {wire : List Event} {mir rxs : Memory} {eng : Eng} {level : Bool} {code : ResCode} {value : Word} {valid : Bool}
    {ph : CidPhase} (hmir : mir = s.mir ∨ mir = []) (hrxs : rxs.wf) (hbound : ∀ c ∈ rxs, c.1 < 258)
    (hsend : eng ≠ .sending) (hpin : level = (s.hasDirPin && eng.receiving)) (hfirst : ph = .first → eng ≠ .idle)
    (hphase : ph ≠ .none → s.cidPhase ≠ .none) (hres : valid = true → code = .ok) :
    State.Inv { s with
      bus := bus, wire := wire, mir := mir, rxs := rxs, eng := eng, dirLevel := level
      resCode := code, resValue := value, resValid := valid, cidPhase := ph } := by
  have hi := h.inited_of_exchange he
  obtain ⟨hdirty, hcmd, hlen⟩ := h.exchange he
  exact { h with
    mirWf := by
      rcases hmir with rfl | rfl
      · exact h.mirWf
      · exact .nil
    rxsWf := hrxs
    mirBound := fun _ => by
      rcases hmir with rfl | rfl
      · exact h.mirBound hi
      · nofun
    rxsBound := hbound
    template := fun _ => State.templateInv_congr (h.template hi) rfl rfl rfl
    pendOk := fun p hp => (Pending.accepted_congr rfl rfl rfl p).trans (h.pendOk p hp)
    window := by simp [hb]
    quiet := by simp [hi]
    pinLevel := hpin
    mirror := by simp [hdirty]
    exchange := fun _ => ⟨hdirty, hcmd, hlen⟩
    request := fun hs => absurd hs hsend
    firstPhase := hfirst
    phase := fun hp => h.phase (hphase hp)
    resultValid := hres }

theorem State.length_busAnswer_le (s : State) (n : Nat) : (s.busAnswer n).length ≤ n := by
  simp [State.busAnswer]

/-- Bytes received stay within the scratch's 258 bytes (R29). -/
theorem State.Inv.rxsBound_putBytes {s : State} (h : s.Inv) {a : Nat} {bs : List Byte} (hl : a + bs.length ≤ 258) :
    ∀ c ∈ s.rxs.putBytes a bs, c.1 < 258 := fun c hc => by
  rcases Memory.mem_putBytes _ hc with hc | ⟨_, hlt⟩
  · exact h.rxsBound c hc
  · omega

/-- The end of an exchange in the validate step (R138): the scratch as it is or forgotten. -/
theorem State.Inv.exchangeEnd {s : State} (h : s.Inv) (he : s.eng = .validating) (hb : s.busy = false) {k : ResCode}
    {v : Option Word} (hv : v.isSome = true → k = .ok) {rxs : Memory} (hrxs : rxs.wf) (hbound : ∀ c ∈ rxs, c.1 < 258) :
    State.Inv { s with
      rxs := rxs, eng := .idle, resCode := k, resValue := v.getD (Config.freeWord s.draws), resValid := v.isSome
      cidPhase := s.cidPhase.after k } :=
  h.stage (by simp [he]) hb (.inl rfl) hrxs hbound nofun (by simp [h.pinLevel, he, Eng.receiving])
    (fun hf => absurd hf (CidPhase.after_ne_first _ _)) (fun hp h0 => hp (by rw [h0]; rfl)) hv

/-! What an accepted mutation says of the registry (R32). -/

theorem Pending.accepted_add {s : State} {id : Byte} {v : Word} {k : Nat} (h : (Pending.add id v k).accepted s = true) :
    id.toNat ≤ 0x3F ∧ s.count < s.maxServo ∧ ∀ i < s.count, s.tpl.cell? (entryAt i) ≠ some id := by
  simp only [Pending.accepted, Bool.and_eq_true, decide_eq_true_eq] at h
  obtain ⟨⟨⟨hid, _⟩, hlt⟩, hfresh⟩ := h
  exact ⟨hid, hlt, hfresh⟩

theorem Pending.lt_of_accepted_remove {s : State} {id : Byte} {k : Nat} (h : (Pending.remove id k).accepted s = true) :
    k < s.count := by
  simp only [Pending.accepted, Bool.and_eq_true, decide_eq_true_eq] at h
  exact h.1

theorem Pending.lt_of_accepted_set {s : State} {id : Byte} {v : Word} {k : Nat}
    (h : (Pending.set id v k).accepted s = true) : k < s.count := by
  simp only [Pending.accepted, Bool.and_eq_true, decide_eq_true_eq] at h
  exact h.1

theorem State.Inv.engineEffect {s t : State} (h : s.Inv) (he : EngineEffect s t) : t.Inv := by
  cases he with
  | idle => exact h
  | add id v k hb hp =>
    obtain ⟨hid, hlt, hfresh⟩ := Pending.accepted_add (h.pendOk _ hp)
    exact h.commit hb (State.wf_seal (Memory.putBytes_wf _ _ h.tplWf))
      ((h.template (h.window hb).1).seal_appendEntry h.tplWf v hid hfresh) hlt
  | remove id k hb hp =>
    have hk := Pending.lt_of_accepted_remove (h.pendOk _ hp)
    have hi := (h.window hb).1
    exact h.commit hb (State.wf_seal (Memory.putBytes_wf _ _ h.tplWf))
      ((h.template hi).seal_removeEntry h.tplWf hk) ((Nat.sub_le _ _).trans (h.capacity hi).2.2)
  | set id v k hb hp =>
    have hk := Pending.lt_of_accepted_set (h.pendOk _ hp)
    have hi := (h.window hb).1
    exact h.commit hb (Memory.put_wf (Memory.putBytes_wf _ _ h.tplWf) _ _)
      ((h.template hi).sealChecksum_setPosition h.tplWf hk v) (h.capacity hi).2.2
  | noReply hb he _ =>
    rw [State.noReply_eq]
    refine h.stage (by simp [he]) hb (.inr rfl) h.rxsWf h.rxsBound nofun ?_ ?_ ?_ (fun _ => rfl)
    · simpa [Eng.receiving] using h.dirLevel_restored
    · split <;> nofun
    · intro hp h0; simp [h0] at hp
  | sent hb he _ =>
    rw [State.requestSent_eq]
    refine h.stage (by simp [he]) hb (.inr rfl) h.rxsWf h.rxsBound nofun ?_ (fun _ => nofun) id h.resultValid
    cases hp : s.hasDirPin <;> simp [h.pinLevel, hp, Eng.receiving]
  | timeout n hb he _ =>
    have hne : s.eng ≠ .idle := by rintro h0; simp [h0] at he
    rw [State.timeout_eq]
    exact h.stage hne hb (.inl rfl) .nil nofun nofun
      (by simpa [Eng.receiving] using h.dirLevel_restored) nofun (fun hp => absurd rfl hp) nofun
  | echo hb he =>
    exact h.stage (by simp [he]) hb (.inl rfl) h.rxsWf h.rxsBound nofun
      (by simp [h.pinLevel, he, Eng.receiving]) (fun _ => nofun) id h.resultValid
  | header hb he =>
    have hl := s.length_busAnswer_le 2
    rw [State.headerKept_eq]
    exact h.stage (by simp [he]) hb (.inl rfl) (Memory.putBytes_wf _ _ h.rxsWf) (h.rxsBound_putBytes (by omega)) nofun
      (by simp [h.pinLevel, he, Eng.receiving]) (fun _ => nofun) id h.resultValid
  | body n hb he hn =>
    have hl := s.length_busAnswer_le n
    rw [State.bodyKept_eq]
    exact h.stage (by simp [he]) hb (.inl rfl) (Memory.putBytes_wf _ _ h.rxsWf) (h.rxsBound_putBytes (by omega)) nofun
      (by simpa [Eng.receiving] using h.dirLevel_restored) (fun _ => nofun) id h.resultValid
  | reject k hb he _ => exact h.exchangeEnd he hb (v := none) nofun .nil nofun
  | accept hb he => exact h.exchangeEnd he hb (v := some s.replyValue) (fun _ => rfl) h.rxsWf h.rxsBound
  | second hb he hc =>
    have hi : s.inited = true := by
      by_contra hi
      simp [(h.quiet (by simpa using hi)).2] at hc
    exact h.requestBuilt (n := s.lNewid) hi he hb rfl (fun _ => ⟨rfl, rfl⟩)

/-! The step. -/

theorem State.Inv.step {s t : State} (h : s.Inv) (hst : Machine.step s = .next t) : t.Inv := by
  have hs : s.turnTaken.Inv := State.inv_turnTaken h
  rcases step_eq s with ⟨_, he⟩ | ⟨_, he⟩ | ⟨_, he⟩ | ⟨_, he⟩ <;> rw [he] at hst
  · rcases hostStep_next hst with ⟨_, rfl⟩ | ⟨_, ops, i, _, _, hd, hx⟩
    · exact hs
    · exact (State.inv_withHostOps hs ops).hostEffect (exec_effect (decodeHost_port hd) hx)
  · exact hs.emitEffect (execEmit_effect hst)
  · exact hs.engineEffect (engineStep_effect hst)
  · obtain rfl : s.turnTaken.resetBlock = t := by cases hst; rfl
    exact State.inv_resetBlock _

/-- Settles O54: HOST's operations, EMIT, ENGINE's steps and a reset each keep the invariant. -/
theorem everyStepKeepsTheInvariant : Obligations.EveryStepKeepsTheInvariant := fun _ _ => State.Inv.step

end Sys2Proof.Machine
end

section
/-! PROOFS. The encoding in both directions, row by row: host words, requests, broadcasts, responses. -/

namespace Sys2Proof

open Sys2Proof.Machine

/-! Decoding an encoding. -/

theorem decodeTransmitted_requestFrame1 {cmd i o d c : Byte} {r : Instr} (h : request1 cmd i o d c = .ok r)
    (rest : List Byte) : decodeTransmitted (requestFrame1 cmd i o d c ++ rest) = .ok (r, rest) := by
  simp [decodeTransmitted, requestFrame1, h]

theorem decodeTransmitted_requestFrame2 {cmd i o c : Byte} {d : Word} {r : Instr} (h : request2 cmd i o d c = .ok r)
    (rest : List Byte) : decodeTransmitted (requestFrame2 cmd i o d c ++ rest) = .ok (r, rest) := by
  simp [decodeTransmitted, requestFrame2, h]

/-- A broadcast's length byte is that of no request (R81). -/
theorem decodeTransmitted_bcast {len typ crc : Byte} {es : List Entry} (hw : (Instr.bcast len typ es crc).wellFormed = true)
    (rest : List Byte) : decodeTransmitted (encode (.bcast len typ es crc) ++ rest) = .ok (.bcast len typ es crc, rest) := by
  simp only [Instr.wellFormed, bcastLenOk, Bool.and_eq_true, beq_iff_eq] at hw
  have h4 : len ≠ 4 := by rintro rfl; have := hw.1; simp at this; omega
  have h5 : len ≠ 5 := by rintro rfl; have := hw.1; simp at this; omega
  have hn : (len.toNat - 2) / 4 = es.length := by omega
  have hd := decodeEntries_encode es (crc :: rest)
  simp only [encode, List.cons_append, List.append_assoc, List.nil_append, decodeTransmitted, ne_eq, not_true_eq_false,
    if_false, if_true, if_neg h4, if_neg h5, hn, hd]

theorem decodeReceived_resp {cmd len crc : Byte} {payload : List Byte} (hw : (Instr.resp cmd len payload crc).wellFormed = true)
    (rest : List Byte) : decodeReceived (encode (.resp cmd len payload crc) ++ rest) = .ok (.resp cmd len payload crc, rest) := by
  simp only [Instr.wellFormed, respLenOk, beq_iff_eq] at hw
  simp [encode, decodeReceived, ← hw]

/-- Settles O47: a case for each row; requests and the two frames of variable length by the lemmas above. -/
theorem decodeInvertsEncode : Obligations.DecodeInvertsEncode := by
  intro i rest hw
  cases i with
  | init m p => cases p <;> rfl
  | add c v => simp [Instr.port, decode, decodeHost, encode]
  | remove c => rfl
  | set c v => simp [Instr.port, decode, decodeHost, encode]
  | emit => rfl
  | sendCommand k c o v z => simp [Instr.port, decode, decodeHost, encode]
  | setChannelId a b => rfl
  | setChannelIdSingle b => rfl
  | shutdown => rfl
  | reqSet1 => exact decodeTransmitted_requestFrame1 (cmd := cmdSet) rfl rest
  | reqSet2 => exact decodeTransmitted_requestFrame2 (cmd := cmdSet) rfl rest
  | reqGet1 => exact decodeTransmitted_requestFrame1 (cmd := cmdGet) rfl rest
  | reqGet2 => exact decodeTransmitted_requestFrame2 (cmd := cmdGet) rfl rest
  | reqStatus1 => exact decodeTransmitted_requestFrame1 (cmd := cmdStatus) rfl rest
  | reqStatus2 => exact decodeTransmitted_requestFrame2 (cmd := cmdStatus) rfl rest
  | reqModeA1 => exact decodeTransmitted_requestFrame1 (cmd := cmdModeA) rfl rest
  | reqModeA2 => exact decodeTransmitted_requestFrame2 (cmd := cmdModeA) rfl rest
  | bcast => exact decodeTransmitted_bcast hw rest
  | resp => exact decodeReceived_resp hw rest

/-! Encoding what was decoded. -/

theorem decodeHost_inv {bs rest : List Byte} {i : Instr} (h : decodeHost bs = .ok (i, rest)) : encode i ++ rest = bs := by
  match bs with
  | [] => cases h
  | op :: bs =>
    rw [show op = BitVec.ofNat 8 op.toNat by simp]
    simp only [decodeHost] at h
    generalize op.toNat = n at h ⊢
    repeat' split at h
    all_goals cases h
    all_goals simp_all [encode]

theorem request1_inv {cmd i o d c : Byte} {r : Instr} (h : request1 cmd i o d c = .ok r) :
    r.port = .transmit ∧ encode r = requestFrame1 cmd i o d c ∧ requestChannel r = some i := by
  unfold request1 at h
  repeat' split at h
  all_goals cases h
  all_goals subst_vars; exact ⟨rfl, rfl, rfl⟩

theorem request2_inv {cmd i o c : Byte} {d : Word} {r : Instr} (h : request2 cmd i o d c = .ok r) :
    r.port = .transmit ∧ encode r = requestFrame2 cmd i o d c ∧ requestChannel r = some i := by
  unfold request2 at h
  repeat' split at h
  all_goals cases h
  all_goals subst_vars; exact ⟨rfl, rfl, rfl⟩

/-- A transmitted frame is a request of either length or a broadcast, and its bytes are that row's. -/
theorem decodeTransmitted_inv {bs rest : List Byte} {i : Instr} (h : decodeTransmitted bs = .ok (i, rest)) :
    i.port = .transmit ∧ encode i ++ rest = bs := by
  unfold decodeTransmitted at h
  split at h
  case h_2 => cases h
  case h_1 cmd len key bs =>
    split at h
    · cases h
    · obtain rfl : key = keyByte := by simpa using ‹¬ key ≠ keyByte›
      split at h
      · subst_vars
        repeat' split at h
        all_goals cases h
        case h_1 hr =>
          obtain ⟨hp, he, _⟩ := request1_inv hr
          exact ⟨hp, by rw [he]; rfl⟩
      · split at h
        · subst_vars
          repeat' split at h
          all_goals cases h
          case h_1 hr =>
            obtain ⟨hp, he, _⟩ := request2_inv hr
            exact ⟨hp, by rw [he]; simp [requestFrame2]⟩
        · repeat' split at h
          all_goals cases h
          case h_1 hd =>
            obtain ⟨_, he⟩ := decodeEntries_inv _ _ hd
            subst_vars
            exact ⟨rfl, by simp [encode]⟩

theorem decodeReceived_inv {bs rest : List Byte} {i : Instr} (h : decodeReceived bs = .ok (i, rest)) :
    i.port = .receive ∧ encode i ++ rest = bs := by
  unfold decodeReceived at h
  split at h
  case h_2 => cases h
  case h_1 cmd len bs =>
    split at h <;> cases h
    case h_1.refl c hdrop =>
      have htake := List.take_append_drop len.toNat bs
      rw [hdrop] at htake
      exact ⟨rfl, by simpa [encode] using htake⟩

/-- Settles O48: by the format the bytes are read in. -/
theorem encodeInvertsDecode : Obligations.EncodeInvertsDecode := by
  intro p bs rest i h
  cases p with
  | host => exact ⟨decodeHost_port h, decodeHost_inv h⟩
  | transmit => exact decodeTransmitted_inv h
  | receive => exact decodeReceived_inv h

/-! The rows and the words. -/

/-- Settles O49: the model's per-instruction laws, row by row. -/
theorem encodingsHaveTheirRowsFixedBits : Obligations.EncodingsHaveTheirRowsFixedBits := by
  intro i hw
  cases i with
  | init => exact Laws.TableRow.init _ _ hw
  | add => exact Laws.TableRow.add _ _ hw
  | remove => exact Laws.TableRow.remove _ hw
  | set => exact Laws.TableRow.set _ _ hw
  | emit => exact Laws.TableRow.emit hw
  | sendCommand => exact Laws.TableRow.sendCommand _ _ _ _ _ hw
  | setChannelId => exact Laws.TableRow.setChannelId _ _ hw
  | setChannelIdSingle => exact Laws.TableRow.setChannelIdSingle _ hw
  | shutdown => exact Laws.TableRow.shutdown hw
  | reqSet1 => exact Laws.TableRow.reqSet1 _ _ _ _ hw
  | reqSet2 => exact Laws.TableRow.reqSet2 _ _ _ _ hw
  | reqGet1 => exact Laws.TableRow.reqGet1 _ _ _ _ hw
  | reqGet2 => exact Laws.TableRow.reqGet2 _ _ _ _ hw
  | reqStatus1 => exact Laws.TableRow.reqStatus1 _ _ _ _ hw
  | reqStatus2 => exact Laws.TableRow.reqStatus2 _ _ _ _ hw
  | reqModeA1 => exact Laws.TableRow.reqModeA1 _ _ _ _ hw
  | reqModeA2 => exact Laws.TableRow.reqModeA2 _ _ _ _ hw
  | bcast => exact Laws.TableRow.bcast _ _ _ _ hw
  | resp => exact Laws.TableRow.resp _ _ _ _ hw

/-- Settles O50: closed words, decoded by evaluation. -/
theorem sampleWordsDecode : Obligations.SampleWordsDecode := by
  unfold Obligations.SampleWordsDecode
  and_intros <;> decide

/-- Selectors 9 to 15 are unassigned (R84). -/
theorem decodeHost_badOperation {op : Byte} (h9 : 9 ≤ op.toNat) (h15 : op.toNat ≤ 15) (bs : List Byte) :
    decodeHost (op :: bs) = .error .badOperation := by
  simp only [decodeHost]
  generalize op.toNat = n at h9 h15
  interval_cases n <;> rfl

/-- Settles O51: the refusal is that of the decoder's reason. -/
theorem unassignedSelectorsAreRefused : Obligations.UnassignedSelectorsAreRefused := by
  intro s b ops words hm hops h9 h15
  rw [step_of_host hm, hostStep, State.hostOps_turnTaken, hops]
  simp only [decode, decodeHost_badOperation h9 h15, Reject.refusal]

end Sys2Proof
end

section
/-! PROOFS. What the table's properties say of the CRC-8 residue (R162 to R164), and the requests' residue. -/

namespace Sys2Proof.Machine

theorem byte_xor_eq_zero {x y : Byte} : x ^^^ y = 0 ↔ x = y := BitVec.xor_eq_zero_iff

theorem crc8_singleton (c : Config) (b : Byte) : crc8 c [b] = c.crcTable.get b.toFin := by
  simp [crc8, crcStep_eq]

/-- R163: a frame that ends in its own checksum has residue zero. -/
theorem crc8_residue {c : Config} (h : c.TableZero) (p : List Byte) : crc8 c (p ++ [crc8 c p]) = 0 := by
  rw [crc8_trailing, BitVec.xor_self]; exact h

/-- Settles O45: the empty frame's checksum is 0x00, so its residue is the table's first entry. -/
theorem zeroResidueIffTableZero : Obligations.ZeroResidueIffTableZero := fun _ =>
  ⟨crc8_residue, fun h => by simpa [crc8_singleton, Config.TableZero] using h []⟩

/-- Under an injective table the fold forgets nothing of the CRC it starts from (R164). -/
theorem foldl_crcStep_injective {c : Config} (h : c.TableInjective) (q : List Byte) : ∀ {k l : Byte},
    q.foldl (fun crc b => crcStep c b crc) k = q.foldl (fun crc b => crcStep c b crc) l → k = l := by
  induction q with
  | nil => exact id
  | cons b q ih =>
    intro k l hkl
    have hstep : crcStep c b k = crcStep c b l := ih hkl
    rw [crcStep_eq, crcStep_eq] at hstep
    exact (BitVec.xor_right_inj b).1 (h _ _ hstep)

theorem crcStep_injective_byte {c : Config} (h : c.TableInjective) {x y k : Byte} (hxy : crcStep c x k = crcStep c y k) :
    x = y := by
  rw [crcStep_eq, crcStep_eq] at hxy
  exact (BitVec.xor_left_inj k).1 (h _ _ hxy)

/-- A corrupted trailing byte leaves a residue under (T2) (R162). -/
theorem crc8_trailing_ne_zero {c : Config} (h : c.TableNonzero) {p : List Byte} {t : Byte} (ht : t ≠ crc8 c p) :
    crc8 c (p ++ [t]) ≠ 0 := by
  rw [crc8_trailing]
  exact h _ (fun h0 => ht (byte_xor_eq_zero.1 h0))

/-- Settles O46: (T2) at `x` is the detection of the trailing byte `x` after the empty frame; an injective table keeps two
folds that have once parted apart. -/
theorem tablePropertiesDecideDetection : Obligations.TablePropertiesDecideDetection := by
  refine ⟨fun c _ => ⟨fun h p t => crc8_trailing_ne_zero h, fun h x hx => ?_⟩, fun c p q x y hinj hxy heq => ?_⟩
  · simpa [crc8_singleton] using h [] x hx
  · simp only [crc8, List.foldl_append, List.foldl_cons] at heq
    exact hxy (crcStep_injective_byte hinj (foldl_crcStep_injective hinj q heq))

/-- The four commands, as the statements list them (R75). -/
theorem commandOk_iff {cmd : Byte} : commandOk cmd = true ↔ cmd ∈ [(0x20 : Byte), 0x21, 0x22, 0xA4] := by
  simp [commandOk, cmdSet, cmdGet, cmdStatus, cmdModeA, or_assoc]

theorem request1_of_commandOk {cmd : Byte} (h : commandOk cmd = true) (i o d c : Byte) :
    ∃ r, request1 cmd i o d c = .ok r := by
  rw [commandOk_iff] at h
  fin_cases h <;> exact ⟨_, rfl⟩

theorem request2_of_commandOk {cmd : Byte} (h : commandOk cmd = true) (i o : Byte) (d : Word) (c : Byte) :
    ∃ r, request2 cmd i o d c = .ok r := by
  rw [commandOk_iff] at h
  fin_cases h <;> exact ⟨_, rfl⟩

/-- The built request is a request row of its channel (R73, R131). -/
theorem decode_requestBytes {cmd : Byte} (hc : commandOk cmd = true) (c : Config) (id order : Byte) (v : Word)
    (size : ValueSize) :
    ∃ i, decode .transmit (requestBytes c cmd id order v size) = .ok (i, []) ∧ requestChannel i = some id := by
  cases size with
  | one =>
    obtain ⟨r, hr⟩ := request1_of_commandOk hc id order (loByte v) (crc8 c (requestBody cmd id order v .one))
    exact ⟨r, decodeTransmitted_requestFrame1 hr [], (request1_inv hr).2.2⟩
  | two =>
    obtain ⟨r, hr⟩ := request2_of_commandOk hc id order v (crc8 c (requestBody cmd id order v .two))
    exact ⟨r, decodeTransmitted_requestFrame2 hr [], (request2_inv hr).2.2⟩

/-- Settles O26: the request is one of the rows, and ends in its own checksum. -/
theorem requestBuiltIsARequestFrame : Obligations.RequestBuiltIsARequestFrame := fun c _ id order v size hc =>
  ⟨decode_requestBytes (commandOk_iff.2 hc) c id order v size, fun h => crc8_residue h _⟩

end Sys2Proof.Machine
end

section
/-! PROOFS. A step runs one meaning (R7, R58); a run is its steps. -/

namespace Sys2Proof.Machine

theorem step_of_word {s : State} {word junk : List Byte} {words : List (List Byte)} {i : Instr} (hm : s.mover = .host)
    (hops : s.hostOps = word :: words) (hd : decode .host word = .ok (i, junk)) :
    step s = exec i { s with turns := s.turns.tail, draws := s.draws + 1, hostOps := words } := by
  rw [step_of_host hm, hostStep, State.hostOps_turnTaken, hops]
  simp only [hd]
  rfl

/-- Settles O52: HOST's step fetches and decodes, a tick's is EMIT. -/
theorem stepRunsTheDecodedOperation : Obligations.StepRunsTheDecodedOperation :=
  ⟨fun _ _ _ _ _ => step_of_word, fun _ => step_of_tick⟩

/-- Settles O1: `State.reset`, read off. -/
theorem resetStateHasSpecifiedValues : Obligations.ResetStateHasSpecifiedValues :=
  ⟨rfl, rfl, rfl, rfl, rfl, rfl, rfl, rfl, rfl, rfl, rfl, rfl⟩

/-- Settles O3: the turn of a reset. -/
theorem resetTurnAbandonsEverything : Obligations.ResetTurnAbandonsEverything := by
  intro s rest ht
  rw [step, State.mover_of_turns ht, turnStep, State.resetBlock, State.turns_turnTaken, ht]
  rfl

theorem core_run_succ_of_next {M : Host.Core} {s t : M.State} (h : M.step s = .next t) (k : Nat) :
    M.run (k + 1) s = M.run k t := by
  simp only [Host.Core.run, h]

theorem core_run_one_of_fault {M : Host.Core} {s : M.State} {f : M.Fault} (h : M.step s = .fault f) :
    M.run 1 s = .fault f := by
  simp only [Host.Core.run, h]

theorem run_succ_of_next {s t : State} (h : step s = .next t) (k : Nat) :
    Sys2Proof.core.run (k + 1) s = Sys2Proof.core.run k t :=
  core_run_succ_of_next (M := Sys2Proof.core) h k

theorem run_one_of_fault {s : State} {f : Fault} (h : step s = .fault f) : Sys2Proof.core.run 1 s = .fault f :=
  core_run_one_of_fault (M := Sys2Proof.core) h

/-- Encoded words decode, in HOST's queue (R84). -/
theorem decode_host_encode {i : Instr} (hp : i.port = .host) (hw : i.wellFormed = true) :
    decode .host (encode i) = .ok (i, []) := by
  simpa [hp] using decodeInvertsEncode i [] hw

end Sys2Proof.Machine
end

section
/-! PROOFS. The registry (R101 to R107): the mutators' begin and commit steps, byte by byte, and the ones that fail. -/

namespace Sys2Proof.Machine

/-! The begin steps. -/

theorem execAdd_full {s : State} (hf : s.Free) (h : s.maxServo ≤ s.count) (c : Byte) (v : Word) :
    execAdd c v s = .next (s.complete .capacityExceeded none) := by
  rw [execAdd, State.whenReady_of_free hf.inited hf.eng hf.busy hf.phase, if_pos h]

theorem execAdd_duplicate {s : State} (hf : s.Free) (hlt : s.count < s.maxServo) {c : Byte} {k : Nat}
    (h : s.find (maskId c) = some k) (v : Word) : execAdd c v s = .next (s.complete .duplicateChannel none) := by
  rw [execAdd, State.whenReady_of_free hf.inited hf.eng hf.busy hf.phase, if_neg (by omega), h]

theorem execAdd_begins {s : State} (hf : s.Free) (hlt : s.count < s.maxServo) {c : Byte} (h : s.find (maskId c) = none)
    (v : Word) : execAdd c v s = .next (s.beginMutation (.add (maskId c) v s.count)) := by
  rw [execAdd, State.whenReady_of_free hf.inited hf.eng hf.busy hf.phase, if_neg (by omega), h]

theorem execRemove_empty {s : State} (hf : s.Free) (h : s.count = 0) (c : Byte) :
    execRemove c s = .next (s.complete .emptyRegistry none) := by
  rw [execRemove, State.whenReady_of_free hf.inited hf.eng hf.busy hf.phase, if_pos h]

theorem execRemove_absent {s : State} (hf : s.Free) (hc : s.count ≠ 0) {c : Byte} (h : s.find (maskId c) = none) :
    execRemove c s = .next (s.complete .channelNotFound none) := by
  rw [execRemove, State.whenReady_of_free hf.inited hf.eng hf.busy hf.phase, if_neg hc, h]

theorem execRemove_begins {s : State} (hf : s.Free) {c : Byte} {k : Nat} (h : s.find (maskId c) = some k) :
    execRemove c s = .next (s.beginMutation (.remove (maskId c) k)) := by
  have hc : s.count ≠ 0 := by have := (State.find_eq_some_iff.1 h).1; omega
  rw [execRemove, State.whenReady_of_free hf.inited hf.eng hf.busy hf.phase, if_neg hc, h]

theorem execSet_absent {s : State} (hf : s.Free) {c : Byte} (h : s.find (maskId c) = none) (v : Word) :
    execSet c v s = .next (s.complete .channelNotFound none) := by
  rw [execSet, State.whenReady_of_free hf.inited hf.eng hf.busy hf.phase, h]

theorem execSet_begins {s : State} (hf : s.Free) {c : Byte} {k : Nat} (h : s.find (maskId c) = some k) (v : Word) :
    execSet c v s = .next (s.beginMutation (.set (maskId c) v k)) := by
  rw [execSet, State.whenReady_of_free hf.inited hf.eng hf.busy hf.phase, h]

/-- Under the invariant an id that no entry holds is not found, and one that entry `k` holds is found there. -/
theorem State.TemplateInv.find_eq_none {s : State} (h : s.TemplateInv) {m : Byte}
    (hm : ∀ i < s.count, s.tpl.cell? (entryAt i) ≠ some m) : s.find m = none :=
  State.find_of_cells_ne fun i hi => ⟨_, h.cell?_id hi, fun hid => hm i hi (by rw [h.cell?_id hi, hid])⟩

theorem State.TemplateInv.find_eq_some {s : State} (h : s.TemplateInv) {m : Byte} {k : Nat} (hk : k < s.count)
    (hm : s.tpl.cell? (entryAt k) = some m) : s.find m = some k := by
  obtain ⟨j, _, hj⟩ := State.find_of_cell hk hm
  obtain ⟨hlt, hcell⟩ := h.cell?_of_find hj
  rw [hj, h.idsDistinct j hlt k hk (hcell.trans hm.symm)]

/-- Settles O14: the checks in their order; a registered id is found where it stands or before. -/
theorem failingMutatorsChangeNothing : Obligations.FailingMutatorsChangeNothing := by
  intro c v s hi he hb hc
  have hf : s.Free := ⟨hi, he, hb, hc⟩
  refine ⟨fun hfull => ⟨_, execAdd_full hf hfull c v⟩, fun k hk hlt hcell => ?_,
    fun h0 => ⟨⟨_, execRemove_empty hf h0 c⟩, ?_⟩,
    fun hne habs => ?_⟩
  · obtain ⟨j, _, hj⟩ := State.find_of_cell hk hcell
    exact ⟨_, execAdd_duplicate hf hlt hj v⟩
  · have hnone : s.find (maskId c) = none := State.find_eq_none_iff.2 fun j hj => absurd hj (by omega)
    exact ⟨_, execSet_absent hf hnone v⟩
  · have hnone : s.find (maskId c) = none := State.find_of_cells_ne habs
    exact ⟨⟨_, execRemove_absent hf hne hnone⟩, ⟨_, execSet_absent hf hnone v⟩⟩

/-! The commit steps. -/

/-- What a commit step leaves but for the template and the count (R106). -/
def State.committed (m : Memory) (n : Nat) (s : State) : State :=
  { s with tpl := m, count := n, dirty := true, busy := false, pend := none, resCode := .ok
           resValue := Config.freeWord s.draws, resValid := false }

theorem State.seal_committed (w : State) :
    w.seal.finishMutation.complete .ok none = w.committed w.seal.tpl w.count := by
  dsimp only [State.committed, State.complete, State.finishMutation, State.seal, State.dropDead, State.sealChecksum,
    State.sealLength, Option.getD, Option.isSome]

theorem State.sealChecksum_committed (w : State) :
    w.sealChecksum.finishMutation.complete .ok none = w.committed w.sealChecksum.tpl w.count := by
  dsimp only [State.committed, State.complete, State.finishMutation, State.sealChecksum, Option.getD, Option.isSome]

theorem commitMutation_add {s : State} (h : s.count < s.maxServo) (id : Byte) (v : Word) (k : Nat) :
    commitMutation (.add id v k) s = .next (s.committed (s.appendEntry id v).seal.tpl (s.count + 1)) := by
  rw [commitMutation, State.inBuffer_of_le (by simp only [entryAt]; omega), State.seal_committed]
  rfl

theorem commitMutation_remove {s : State} (h : s.count ≤ s.maxServo) (id : Byte) (k : Nat) :
    commitMutation (.remove id k) s = .next (s.committed (s.removeEntry k).seal.tpl (s.count - 1)) := by
  rw [commitMutation, State.inBuffer_of_le (by simp only [entryAt]; omega), State.seal_committed]
  rfl

theorem commitMutation_set {s : State} (h : s.count ≤ s.maxServo) {k : Nat} (hk : k < s.count) (id : Byte) (v : Word) :
    commitMutation (.set id v k) s = .next (s.committed (s.setPosition v k).sealChecksum.tpl s.count) := by
  rw [commitMutation, State.inBuffer_of_le (by simp only [entryAt]; omega), State.sealChecksum_committed]
  rfl

/-- ENGINE's turn with a mutation pending is its commit step. -/
theorem step_commit {s : State} {p : Pending} (hm : s.mover = .engine) (hb : s.busy = true) (hp : s.pend = some p) :
    step s = commitMutation p s.turnTaken := by
  rw [step_of_engine hm, engineStep_commit (s := s.turnTaken) hb hp]

/-! The template after a commit, at each offset. -/

/-- ADD's template (R102, R105). -/
theorem State.cell?_seal_appendEntry (s : State) (id : Byte) (v : Word) (a : Nat) :
    (s.appendEntry id v).seal.tpl.cell? a =
      if a = 1 then some (lengthByte (2 + 4 * (s.count + 1)))
      else if a < 4 + 4 * s.count then s.tpl.cell? a
      else if a = 4 + 4 * s.count then some id
      else if a = 5 + 4 * s.count then some s.cfg.rsvByte
      else if a = 6 + 4 * s.count then some (hiByte v)
      else if a = 7 + 4 * s.count then some (loByte v)
      else if a = 4 + 4 * (s.count + 1) then some (crc8 s.cfg (s.appendEntry id v).checkedBytes)
      else none := by
  rw [State.cell?_seal, State.cell?_appendEntry]
  rw [State.checkedBytes, State.count_appendEntry, State.cfg_appendEntry]
  have hnew : entryAt (s.count + 1) = 4 + 4 * (s.count + 1) := rfl
  have hold : entryAt s.count = 4 + 4 * s.count := rfl
  grind

/-- REMOVE's template (R103, R105). -/
theorem State.TemplateInv.cell?_seal_removeEntry {s : State} (h : s.TemplateInv) {k : Nat} (hk : k < s.count) (a : Nat) :
    (s.removeEntry k).seal.tpl.cell? a =
      if a = 1 then some (lengthByte (2 + 4 * (s.count - 1)))
      else if a < 4 + 4 * k then s.tpl.cell? a
      else if a < 4 + 4 * (s.count - 1) then s.tpl.cell? (a + 4)
      else if a = 4 + 4 * (s.count - 1) then some (crc8 s.cfg (s.removeEntry k).checkedBytes)
      else none := by
  rw [State.cell?_seal, State.cell?_removeEntry hk h.isSome]
  rw [State.checkedBytes, State.count_removeEntry, State.cfg_removeEntry]
  have hnew : entryAt (s.count - 1) = 4 + 4 * (s.count - 1) := rfl
  have hk' : entryAt k = 4 + 4 * k := rfl
  grind

/-- SET's template (R104). -/
theorem State.TemplateInv.cell?_sealChecksum_setPosition {s : State} (h : s.TemplateInv) (hwf : s.tpl.wf) {k : Nat}
    (hk : k < s.count) (v : Word) (a : Nat) :
    (s.setPosition v k).sealChecksum.tpl.cell? a =
      if a = 6 + 4 * k then some (hiByte v)
      else if a = 7 + 4 * k then some (loByte v)
      else if a = 4 + 4 * s.count then some (crc8 s.cfg (s.setPosition v k).checkedBytes)
      else s.tpl.cell? a := by
  have hcount : entryAt s.count = 4 + 4 * s.count := rfl
  have hk' : entryAt k = 4 + 4 * k := rfl
  have hcrc := (s.setPosition v k).cell?_seal_checksum
  rw [h.seal_setPosition hwf hk, State.count_setPosition, State.cfg_setPosition] at hcrc
  by_cases ha : a = entryAt s.count
  · rw [ha, hcrc, if_neg (by omega), if_neg (by omega), if_pos hcount]
  · rw [State.cell?_sealChecksum, State.count_setPosition, if_neg ha, State.cell?_setPosition]
    grind

/-- Where its live bytes are specified, a sealed template holds the bytes its checksum covers. -/
theorem State.cell?_seal_checkedBytes {w : State} (hs : ∀ a < entryAt w.count, (w.tpl.cell? a).isSome) :
    ∀ a < w.checkedBytes.length, w.seal.tpl.cell? a = w.checkedBytes[a]? := fun _ ha =>
  State.cell?_seal_eq_checkedBytes (fun a ha _ => hs a ha) (State.length_checkedBytes w ▸ ha)

/-- The commit step after a begin step runs in a state with the template and count of `s`, and leaves all else as `s` has
it. -/
theorem step_window (p : Pending) (rest : List Turn) (s : State) : ∃ b : State,
    step { s with busy := true, pend := some p, turns := .engine :: rest } = commitMutation p b ∧
    b.tpl = s.tpl ∧ b.count = s.count ∧ b.cfg = s.cfg ∧ b.maxServo = s.maxServo ∧
    ∀ m n, b.committed m n = { s with
      turns := rest, draws := s.draws + 1, tpl := m, count := n, dirty := true, busy := false, pend := none
      resCode := .ok, resValid := false, resValue := Config.freeWord (s.draws + 1) } :=
  ⟨_, step_commit rfl rfl rfl, rfl, rfl, rfl, rfl, fun _ _ => rfl⟩

/-- Settles O11: the commit step leaves ADD's template, whose checksum covers the bytes below it. -/
theorem addAppendsTheEntry : Obligations.AddAppendsTheEntry := by
  intro c v s rest h hi he hb hc hlt hfresh
  have hT := h.template hi
  refine ⟨execAdd_begins ⟨hi, he, hb, hc⟩ hlt (hT.find_eq_none hfresh) v, ?_⟩
  obtain ⟨b, hstep, htpl, hcount, hcfg, hmax, hleft⟩ := step_window (.add (maskId c) v s.count) rest s
  have hT' := State.templateInv_congr hT htpl hcount hcfg
  have hcells := State.cell?_seal_appendEntry b (maskId c) v
  rw [commitMutation_add (by omega), hleft, hcount] at hstep
  rw [hcount, htpl, hcfg] at hcells
  exact ⟨_, _, _, hstep, (State.length_checkedBytes _).trans (by rw [State.count_appendEntry, hcount]; rfl),
    State.cell?_seal_checkedBytes (hT'.isSome_appendEntry _ _), hcells⟩

/-- Settles O12: the commit step leaves REMOVE's template. -/
theorem removeClosesTheGap : Obligations.RemoveClosesTheGap := by
  intro c k s rest h hi he hb hc hk hcell
  have hT := h.template hi
  have hcap := (h.capacity hi).2.2
  refine ⟨execRemove_begins ⟨hi, he, hb, hc⟩ (hT.find_eq_some hk hcell), ?_⟩
  obtain ⟨b, hstep, htpl, hcount, hcfg, hmax, hleft⟩ := step_window (.remove (maskId c) k) rest s
  have hT' := State.templateInv_congr hT htpl hcount hcfg
  have hk' : k < b.count := hcount ▸ hk
  have hcells := hT'.cell?_seal_removeEntry hk'
  rw [commitMutation_remove (by omega), hleft, hcount] at hstep
  rw [hcount, htpl, hcfg] at hcells
  exact ⟨_, _, _, hstep, (State.length_checkedBytes _).trans (by rw [State.count_removeEntry, hcount]; rfl),
    State.cell?_seal_checkedBytes (hT'.isSome_removeEntry hk'), hcells⟩

/-- Settles O13: the commit step leaves SET's template. -/
theorem setReplacesThePosition : Obligations.SetReplacesThePosition := by
  intro c v k s rest h hi he hb hc hk hcell
  have hT := h.template hi
  have hcap := (h.capacity hi).2.2
  refine ⟨execSet_begins ⟨hi, he, hb, hc⟩ (hT.find_eq_some hk hcell) v, ?_⟩
  obtain ⟨b, hstep, htpl, hcount, hcfg, hmax, hleft⟩ := step_window (.set (maskId c) v k) rest s
  have hT' := State.templateInv_congr hT htpl hcount hcfg
  have hwf : b.tpl.wf := htpl ▸ h.tplWf
  have hk' : k < b.count := hcount ▸ hk
  have hcells := hT'.cell?_sealChecksum_setPosition hwf hk' v
  have hbytes := State.cell?_seal_checkedBytes (w := b.setPosition v k) (hT'.isSome_setPosition v k)
  rw [commitMutation_set (by omega) hk', hleft, hcount] at hstep
  rw [hcount, htpl, hcfg] at hcells
  rw [hT'.seal_setPosition hwf hk'] at hbytes
  exact ⟨_, _, _, hstep, (State.length_checkedBytes _).trans (by rw [State.count_setPosition, hcount]; rfl), hbytes, hcells⟩

/-! ADD and REMOVE of one id (P5). -/

/-- Two templates in order with the same parameters, count and bytes below the checksum are the same (R36). -/
theorem State.TemplateInv.tpl_eq {s t : State} (hs : s.TemplateInv) (ht : t.TemplateInv) (hswf : s.tpl.wf)
    (htwf : t.tpl.wf) (hcfg : t.cfg = s.cfg) (hcount : t.count = s.count)
    (h : ∀ a < entryAt s.count, t.tpl.cell? a = s.tpl.cell? a) : t.tpl = s.tpl := by
  have hbytes : (t.tpl.take (entryAt s.count)).map Prod.snd = (s.tpl.take (entryAt s.count)).map Prod.snd := by
    obtain ⟨es, _⟩ := hs.eq_ofBytes
    obtain ⟨et, _⟩ := ht.eq_ofBytes
    rw [es, et, Memory.ofBytes_take, Memory.ofBytes_take, Memory.ofBytes_map_snd, Memory.ofBytes_map_snd]
    refine List.ext_getElem? fun a => ?_
    rw [List.getElem?_take, List.getElem?_take]
    split
    · have := h a ‹_›
      rw [es, et, Memory.cell?_ofBytes, Memory.cell?_ofBytes] at this
      simpa using this
    · rfl
  refine Memory.ext_cells htwf hswf fun a => ?_
  rcases Nat.lt_trichotomy a (entryAt s.count) with ha | rfl | ha
  · exact h a ha
  · rw [hs.checksum, ← hbytes, ← hcfg, ← hcount, ht.checksum]
  · rw [hs.cell_none ha, ht.cell_none (hcount ▸ ha)]

/-- Under the empty schedule (log 2) a mutation that is accepted takes two steps: HOST's begin step, then ENGINE's commit
step. -/
theorem run_mutation {s : State} {i : Instr} {rest : List (List Byte)} {p : Pending} {m : Memory} {n : Nat}
    (hf : s.Free) (ht : s.turns = []) (hi : i.port = .host) (hw : i.wellFormed = true)
    (hops : s.hostOps = encode i :: rest)
    (hbegin : exec i { s with draws := s.draws + 1, hostOps := rest } =
      .next (State.beginMutation p { s with draws := s.draws + 1, hostOps := rest }))
    (hcommit : commitMutation p { s with draws := s.draws + 2, hostOps := rest, busy := true, pend := some p } =
      .next (State.committed m n { s with draws := s.draws + 2, hostOps := rest })) (k : Nat) :
    Sys2Proof.core.run (k + 2) s =
      Sys2Proof.core.run k (State.committed m n { s with draws := s.draws + 2, hostOps := rest }) := by
  have htail : s.turns.tail = s.turns := by rw [ht]; rfl
  have hready : s.engineReady = false := State.engineReady_eq_false.2 ⟨hf.busy, hf.eng, by simp [hf.phase]⟩
  have h1 := step_of_word (State.mover_host_of_not_ready ht hready) hops (decode_host_encode hi hw)
  rw [htail, hbegin] at h1
  have h2 := step_commit (s := State.beginMutation p { s with draws := s.draws + 1, hostOps := rest })
    (State.mover_engine_of_ready ht rfl) rfl rfl
  rw [State.turnTaken, State.turns_beginMutation, htail] at h2
  rw [run_succ_of_next h1, run_succ_of_next (h2.trans hcommit)]

theorem State.Inv.run : ∀ {k : Nat} {s t : State}, s.Inv → Sys2Proof.core.run k s = .next t → t.Inv := by
  intro k
  induction k with
  | zero => intro s t h hr; cases hr; exact h
  | succ k ih =>
    intro s t h hr
    cases hs : Machine.step s with
    | next u => exact ih (h.step hs) (by rw [← run_succ_of_next hs, hr])
    | fault f => simp [Host.Core.run, show Sys2Proof.core.step s = .fault f from hs] at hr
    | refused r => simp [Host.Core.run, show Sys2Proof.core.step s = .refused r from hs] at hr

/-- ADD of a fresh id, run: the id then stands in the last entry, and the bytes below it are as they were. -/
theorem State.Inv.run_add {s : State} (h : s.Inv) (hf : s.Free) (ht : s.turns = []) (hlt : s.count < s.maxServo)
    {c : Byte} {v : Word} (hfresh : ∀ i < s.count, s.tpl.cell? (entryAt i) ≠ some (maskId c)) {rest : List (List Byte)}
    (hops : s.hostOps = encode (.add c v) :: rest) : ∃ m : Memory,
    (∀ k, Sys2Proof.core.run (k + 2) s =
      Sys2Proof.core.run k (State.committed m (s.count + 1) { s with draws := s.draws + 2, hostOps := rest })) ∧
    m.cell? (entryAt s.count) = some (maskId c) ∧ ∀ a < entryAt s.count, a ≠ 1 → m.cell? a = s.tpl.cell? a := by
  have hT : State.TemplateInv { s with draws := s.draws + 1, hostOps := rest } :=
    State.templateInv_congr (h.template hf.inited) rfl rfl rfl
  have hf' : State.Free { s with draws := s.draws + 1, hostOps := rest } := ⟨hf.inited, hf.eng, hf.busy, hf.phase⟩
  have hcommit := commitMutation_add (s := { s with
    draws := s.draws + 2, hostOps := rest, busy := true, pend := some (.add (maskId c) v s.count) })
    hlt (maskId c) v s.count
  refine ⟨_, run_mutation hf ht rfl rfl hops (execAdd_begins hf' hlt (hT.find_eq_none hfresh) v) hcommit, ?_,
    fun a ha h1 => ?_⟩
  · rw [State.cell?_seal_appendEntry]
    simp only [entryAt]
    grind
  · simp only [entryAt] at ha
    rw [State.cell?_seal_appendEntry]
    grind

/-- REMOVE of the id in the last entry, run: the bytes below it are as they were. -/
theorem State.Inv.run_remove_last {s : State} (h : s.Inv) (hf : s.Free) (ht : s.turns = []) {n : Nat} (hn : s.count = n + 1)
    {c : Byte} (hlast : s.tpl.cell? (entryAt n) = some (maskId c)) {rest : List (List Byte)}
    (hops : s.hostOps = encode (.remove c) :: rest) : ∃ m : Memory,
    (∀ k, Sys2Proof.core.run (k + 2) s =
      Sys2Proof.core.run k (State.committed m n { s with draws := s.draws + 2, hostOps := rest })) ∧
    ∀ a < entryAt n, a ≠ 1 → m.cell? a = s.tpl.cell? a := by
  obtain rfl : n = s.count - 1 := by omega
  have hT2 : State.TemplateInv { s with
      draws := s.draws + 2, hostOps := rest, busy := true, pend := some (.remove (maskId c) (s.count - 1)) } :=
    State.templateInv_congr (h.template hf.inited) rfl rfl rfl
  have hT1 : State.TemplateInv { s with draws := s.draws + 1, hostOps := rest } :=
    State.templateInv_congr (h.template hf.inited) rfl rfl rfl
  have hf' : State.Free { s with draws := s.draws + 1, hostOps := rest } := ⟨hf.inited, hf.eng, hf.busy, hf.phase⟩
  have hk : s.count - 1 < s.count := by omega
  have hcommit := commitMutation_remove (s := { s with
    draws := s.draws + 2, hostOps := rest, busy := true, pend := some (.remove (maskId c) (s.count - 1)) })
    (h.capacity hf.inited).2.2 (maskId c) (s.count - 1)
  refine ⟨_, run_mutation hf ht rfl rfl hops (execRemove_begins hf' (hT1.find_eq_some hk hlast)) hcommit, fun a ha h1 => ?_⟩
  simp only [entryAt] at ha
  rw [hT2.cell?_seal_removeEntry hk]
  grind

/-- Settles O15: after the two operations the template is in order, with the count and the entries it had before. -/
theorem addThenRemoveRestoresTheTemplate : Obligations.AddThenRemoveRestoresTheTemplate := by
  intro c v s rest h hi he hb hc ht hlt hfresh hops
  obtain ⟨m, hrun, hlast, hm⟩ := h.run_add ⟨hi, he, hb, hc⟩ ht hlt hfresh hops
  have h2 := h.run (hrun 0)
  obtain ⟨m', hrun', hm'⟩ := h2.run_remove_last ⟨hi, he, rfl, hc⟩ ht rfl hlast rfl
  have h4 := h2.run (hrun' 0)
  have htpl : m' = s.tpl := by
    refine (h.template hi).tpl_eq (h4.template hi) h.tplWf h4.tplWf rfl rfl fun a ha => ?_
    by_cases h1 : a = 1
    · rw [h1, (h.template hi).length]; exact (h4.template hi).length
    · exact (hm' a ha h1).trans (hm a ha h1)
  have hpend : s.pend = none := by simpa [hb] using h.pendIff.symm
  refine ⟨Config.freeWord (s.draws + 4), ((hrun 2).trans (hrun' 0)).trans ?_⟩
  simp only [State.committed, htpl, hpend, hb]
  rfl

/-! What the registry's steps leave alone, and who writes the template (R56, P7). -/

/-- The registers no registry operation touches. -/
def State.SameOffTheRegistry (s t : State) : Prop :=
  t.wire = s.wire ∧ t.mir = s.mir ∧ t.rxs = s.rxs ∧ t.eng = s.eng ∧ t.dirLevel = s.dirLevel ∧ t.dirOe = s.dirOe ∧
  t.cfg = s.cfg ∧ t.turns = s.turns ∧ t.hostOps = s.hostOps ∧ t.bus = s.bus ∧ t.draws = s.draws ∧
  t.maxServo = s.maxServo ∧ t.hasDirPin = s.hasDirPin ∧ t.inited = s.inited ∧ t.cidPhase = s.cidPhase ∧
  t.lNewid = s.lNewid ∧ t.lCmd = s.lCmd ∧ t.lId = s.lId ∧ t.lOrder = s.lOrder ∧ t.lValue = s.lValue ∧
  t.lSize = s.lSize ∧ t.sentLen = s.sentLen

theorem State.sameOffTheRegistry_refl (s : State) : s.SameOffTheRegistry s := by simp [State.SameOffTheRegistry]

theorem State.sameOffTheRegistry_complete (k : ResCode) (v : Option Word) (s : State) :
    s.SameOffTheRegistry (s.complete k v) := by simp [State.SameOffTheRegistry]

theorem State.sameOffTheRegistry_beginMutation (p : Pending) (s : State) :
    s.SameOffTheRegistry (s.beginMutation p) := by simp [State.SameOffTheRegistry]

/-- A commit step, whatever its mutation. -/
theorem EngineEffect.sameOffTheRegistry {s t : State} (h : EngineEffect s t) (hb : s.busy = true) :
    s.SameOffTheRegistry t := by
  cases h with
  | idle => exact s.sameOffTheRegistry_refl
  | add => simp [State.SameOffTheRegistry]
  | remove => simp [State.SameOffTheRegistry]
  | set => simp [State.SameOffTheRegistry]
  | _ => simp_all

/-- Settles O16: the mutators end with a result or a begin step, and ENGINE in the busy window with a commit step. -/
theorem registryKeepsOffTheWire : Obligations.RegistryKeepsOffTheWire := by
  rintro s t c v (h | h | h | ⟨hb, h⟩)
  · cases exec_effect rfl h with
    | addFail => exact s.sameOffTheRegistry_complete _ _
    | add => exact s.sameOffTheRegistry_beginMutation _
  · cases exec_effect rfl h with
    | removeFail => exact s.sameOffTheRegistry_complete _ _
    | remove => exact s.sameOffTheRegistry_beginMutation _
  · cases exec_effect rfl h with
    | setFail => exact s.sameOffTheRegistry_complete _ _
    | set => exact s.sameOffTheRegistry_beginMutation _
  · exact (engineStep_effect h).sameOffTheRegistry hb

theorem EmitEffect.tpl_count {s t : State} (h : EmitEffect s t) : t.tpl = s.tpl ∧ t.count = s.count := by
  rw [h.eq_mir_dirty_wire]; exact ⟨rfl, rfl⟩

theorem HostEffect.tpl_count {s t : State} {i : Instr} (h : HostEffect s i t) (hinit : ∀ m p, i ≠ .init m p)
    (hshut : i ≠ .shutdown) : t.tpl = s.tpl ∧ t.count = s.count := by
  cases h with
  | init m p => exact absurd rfl (hinit m p)
  | shutdown => exact absurd rfl hshut
  | emit t he => exact he.tpl_count
  | _ => exact ⟨rfl, rfl⟩

theorem EngineEffect.tpl_count {s t : State} (h : EngineEffect s t) (hb : s.busy = false) :
    t.tpl = s.tpl ∧ t.count = s.count := by
  cases h with
  | add _ _ _ hb' | remove _ _ hb' | set _ _ _ hb' => simp [hb] at hb'
  | _ => simp

/-- Settles O17: of the effects a step can have, INIT, SHUTDOWN and the commit steps alone write the template. -/
theorem onlyTheRegistryWritesTheTemplate : Obligations.OnlyTheRegistryWritesTheTemplate := by
  intro s t h
  refine ⟨fun hm => ?_, fun hm hb => ?_, fun hm word rest i junk hops hd hinit hshut => ?_⟩
  · rw [step_of_tick hm] at h
    exact (execEmit_effect h).tpl_count
  · rw [step_of_engine hm] at h
    exact (engineStep_effect h).tpl_count hb
  · rw [step_of_word hm hops hd] at h
    exact (exec_effect (decodeHost_port hd) h).tpl_count hinit hshut

end Sys2Proof.Machine
end

section
/-! PROOFS. Admission and lifecycle (R107, R180, R181, R196, R197). -/

namespace Sys2Proof.Machine

theorem State.whenReady_of_not_inited {s : State} (h : s.inited = false) (k : Out) :
    s.whenReady k = .refused .notInitialised := by
  simp [State.whenReady, h]

theorem State.whenReady_of_inProgress {s : State} (hi : s.inited = true) (hp : s.inProgress = true) (k : Out) :
    s.whenReady k = .fault .hostOpWhileEngineBusy := by
  simp [State.whenReady, State.whenFree, hi, hp]

theorem State.emitGate_of_not_inited {s : State} (h : s.inited = false) (k : Out) :
    s.emitGate k = .refused .notInitialised := by
  simp [State.emitGate, h]

theorem State.emitGate_of_exchange {s : State} (hi : s.inited = true) (he : s.eng ≠ .idle) (k : Out) :
    s.emitGate k = .fault .emitDuringCommand := by
  simp [State.emitGate, hi, he]

theorem State.emitGate_of_skip {s : State} (hi : s.inited = true) (he : s.eng = .idle) (h : s.busy = true ∨ s.count = 0)
    (k : Out) : s.emitGate k = .next s := by
  rcases h with h | h <;> simp [State.emitGate, hi, he, h]

/-- Every host operation but INIT and EMIT goes through one gate (R107, R130). -/
theorem exec_whenReady {i : Instr} (hp : i.port = .host) (hinit : ∀ m p, i ≠ .init m p) (hemit : i ≠ .emit) (s : State) :
    ∃ k, exec i s = s.whenReady k := by
  cases i with
  | init m p => exact absurd rfl (hinit m p)
  | emit => exact absurd rfl hemit
  | add | remove | set | sendCommand | setChannelId | setChannelIdSingle | shutdown => exact ⟨_, rfl⟩
  | _ => cases hp

/-- Settles O6: the gates test `inited` first. -/
theorem operationsOutsideTheirLifetimeAreRefused : Obligations.OperationsOutsideTheirLifetimeAreRefused := by
  refine ⟨fun i s hp hinit h => ?_, fun m p s h => if_pos h⟩
  by_cases hemit : i = .emit
  · subst hemit
    exact State.emitGate_of_not_inited h _
  · obtain ⟨k, hk⟩ := exec_whenReady hp hinit hemit s
    rw [hk, State.whenReady_of_not_inited h]

/-- Settles O7: what is in progress is what the gate tests. -/
theorem overlappingHostOperationFaults : Obligations.OverlappingHostOperationFaults := by
  intro i s hp hemit hinit hi h
  obtain ⟨k, hk⟩ := exec_whenReady hp hinit hemit s
  rw [hk, State.whenReady_of_inProgress hi]
  simpa [State.inProgress, or_assoc] using h

/-- Settles O8: EMIT and BCAST share one gate. -/
theorem broadcastDuringExchangeFaults : Obligations.BroadcastDuringExchangeFaults := fun _ _ _ _ _ hi he =>
  ⟨State.emitGate_of_exchange hi he _, State.emitGate_of_exchange hi he _⟩

/-- Settles O20: the gate's two skips. -/
theorem emitSkipsWhenBusyOrEmpty : Obligations.EmitSkipsWhenBusyOrEmpty := fun _ hi he h =>
  State.emitGate_of_skip hi he h _

/-- R21: the clamp as the two tests it makes. -/
theorem clampCapacity_eq (n : Nat) : clampCapacity n = if n < 1 then 1 else if 50 < n then 50 else n := by
  simp only [clampCapacity, maxFloor, maxCeiling]
  split_ifs <;> omega

theorem execInit_eq {s : State} (hi : s.inited = false) (hp : s.inProgress = false) (m : Byte) (p : Bool) :
    execInit m p s = .next (s.initialise m p) := by
  simp [execInit, State.whenFree, hi, hp]

/-- Settles O4: INIT's free latches are the values the statement leaves open. -/
theorem initCompletes : Obligations.InitCompletes := by
  intro m p s hi he hb hc
  let u := s.forgetLatches
  refine ⟨Config.freeWord s.draws, u.lValue, u.lCmd, u.lId, u.lOrder, u.lNewid, u.lSize, u.sentLen,
    s.sentLen_forgetLatches, (execInit_eq hi (State.inProgress_eq_false.2 ⟨he, hb, hc⟩) m p).trans ?_⟩
  rw [← clampCapacity_eq]
  cases p <;> rfl

/-- Settles O5: SHUTDOWN's state is written out by `State.shutDown`. -/
theorem shutdownCompletes : Obligations.ShutdownCompletes := fun _ hi he hb hc =>
  ⟨_, State.whenReady_of_free hi he hb hc _⟩

end Sys2Proof.Machine
end

section
/-! PROOFS. The emitter (R120 to R124): what EMIT and BCAST hand over. -/

namespace Sys2Proof.Machine

/-- Settles O19: with a clean mirror EMIT is its transmission. -/
theorem emitRepeatsTheMirror : Obligations.EmitRepeatsTheMirror := by
  intro s f l hi he hb hc hd hlen hf hcells hcap
  show execEmit s = _
  rw [execEmit, State.emitGate_of_open hi he hb hc, if_neg (by simp [hd]), transmitMirror_eq hlen hf hcells hcap]
  rfl

/-- A mirror that holds exactly the frame `f` hands it over (R120, R123). -/
theorem transmitMirror_ofBytes {s : State} {f : List Byte} {l : Byte} (hm : s.mir = Memory.ofBytes 0 f)
    (h1 : f[1]? = some l) (hf : f.length = l.toNat + 3) (hcap : f.length ≤ 4 * s.maxServo + 5) :
    s.transmitMirror = .next (s.log [.tx f]) :=
  transmitMirror_eq (l := l) (by simpa [hm, Memory.cell?_ofBytes] using h1) hf
    (fun a _ => by simp [hm, Memory.cell?_ofBytes]) hcap

/-- Settles O18: the snapshot copies the frame, and the mirror that then holds it hands it over. -/
theorem emitSnapshotsAndTransmits : Obligations.EmitSnapshotsAndTransmits := by
  intro s f l hi he hb hc hd hlen hf hcells hcap
  have hl : s.tplByte .snapshotLen 1 = l := Memory.read_of_cell hlen _ _
  have hcopy : s.tplBytes .snapshot 0 (l.toNat + 3) = f := by
    rw [State.tplBytes, ← hf]
    exact Memory.readBytes_eq (fun a ha => by simpa using hcells a ha) _ _
  have hm : (s.snapshot (l.toNat + 3)).mir = Memory.ofBytes 0 f := by rw [State.mir_snapshot, hcopy]
  have h1 : f[1]? = some l := by rw [← hcells 1 (by omega), hlen]
  refine ⟨Memory.ofBytes 0 f, ?_, fun a => by simp [Memory.cell?_ofBytes]⟩
  show execEmit s = _
  simp only [execEmit, State.emitGate_of_open hi he hb hc, if_pos hd, hl]
  rw [State.inBuffer_of_le (by omega), transmitMirror_ofBytes hm h1 hf hcap, ← hm]
  rfl

/-- Settles O23: BCAST places its frame in the mirror and hands it over. -/
theorem broadcastFrameIsTransmitted : Obligations.BroadcastFrameIsTransmitted := by
  intro len typ crc es s hw hi he hb hc hcap
  refine ⟨Memory.ofBytes 0 (encode (.bcast len typ es crc)), ?_, fun a => by simp [Memory.cell?_ofBytes]⟩
  show execBcast len typ es crc s = _
  rw [execBcast, State.emitGate_of_open hi he hb hc, State.inBuffer_of_le hcap]
  exact transmitMirror_ofBytes (s := { s with mir := Memory.ofBytes 0 (encode (.bcast len typ es crc)) }) rfl rfl
    (length_encode_bcast hw) hcap

/-! The template as a broadcast frame (R71, R72). -/

/-- Bytes in groups of four whose first has its two high bits clear are the bytes of entries. -/
theorem exists_entries : ∀ (n : Nat) (bs : List Byte), bs.length = 4 * n →
    (∀ i < n, ∀ b ∈ bs[4 * i]?, b.toNat < 64) → ∃ es : List Entry, es.length = n ∧ es.flatMap Entry.bytes = bs := by
  intro n
  induction n with
  | zero => intro bs hl _; exact ⟨[], rfl, (List.eq_nil_of_length_eq_zero hl).symm⟩
  | succ n ih =>
    intro bs hl hid
    match bs with
    | i :: r :: h :: l :: bs =>
      simp only [List.length_cons] at hl
      obtain ⟨es, hn, hes⟩ := ih bs (by omega) (fun j hj b hb => hid (j + 1) (by omega) b hb)
      have hi : i.toNat < 64 := hid 0 (by omega) i rfl
      exact ⟨⟨i.setWidth 6, r, ofHiLo h l⟩ :: es, by simp [hn], by simp [Entry.bytes, hes, setWidth_id hi]⟩
    | [] | [_] | [_, _] | [_, _, _] => simp only [List.length_cons, List.length_nil] at hl; omega

theorem getElem?_entryBytes_id (es : List Entry) : ∀ i : Nat,
    (es.flatMap Entry.bytes)[4 * i]? = es[i]?.map (fun e => e.id.setWidth 8) := by
  induction es with
  | nil => intro i; rfl
  | cons e es ih =>
    intro i
    cases i with
    | zero => rfl
    | succ i => exact ih i

theorem getElem?_entryBytes_rsv (es : List Entry) : ∀ i : Nat,
    (es.flatMap Entry.bytes)[4 * i + 1]? = es[i]?.map Entry.rsv := by
  induction es with
  | nil => intro i; rfl
  | cons e es ih =>
    intro i
    cases i with
    | zero => rfl
    | succ i => exact ih i

/-- A byte within the entries of a broadcast frame. -/
theorem getElem?_encode_bcast {len typ crc : Byte} {es : List Entry} {a : Nat} (ha : a < 4 * es.length) :
    (encode (.bcast len typ es crc))[4 + a]? = (es.flatMap Entry.bytes)[a]? := by
  rw [Nat.add_comm]
  exact List.getElem?_append_left (by rwa [length_entryBytes])

theorem State.TemplateInv.cell?_eq {s : State} (h : s.TemplateInv) (a : Nat) : s.tpl.cell? a = (s.tpl.map Prod.snd)[a]? := by
  conv_lhs => rw [h.eq_ofBytes.1, Memory.cell?_ofBytes]
  simp

/-- The template's bytes end in the checksum of those before it (R36, I-c). -/
theorem State.TemplateInv.eq_checked {s : State} (h : s.TemplateInv) : s.tpl.map Prod.snd =
    (s.tpl.map Prod.snd).take (entryAt s.count) ++ [crc8 s.cfg ((s.tpl.map Prod.snd).take (entryAt s.count))] := by
  have hlen := h.eq_ofBytes.2
  have hcrc := h.checksum
  rw [h.cell?_eq, List.map_take] at hcrc
  conv_lhs => rw [← List.take_append_drop (entryAt s.count) (s.tpl.map Prod.snd)]
  rw [List.drop_eq_getElem_cons (by omega), List.drop_eq_nil_of_le (by omega)]
  simp_all

/-- A template in order is a broadcast frame of `count` entries (R36, R71). -/
theorem State.TemplateInv.eq_encode {s : State} (h : s.TemplateInv) : ∃ es : List Entry, es.length = s.count ∧
    s.tpl.map Prod.snd = encode (.bcast (lengthByte (2 + 4 * s.count)) s.cfg.typeByte es
      (crc8 s.cfg ((s.tpl.map Prod.snd).take (entryAt s.count)))) := by
  have hlen := h.eq_ofBytes.2
  have hchecked := h.eq_checked
  have hcell := h.cell?_eq
  generalize crc8 s.cfg ((s.tpl.map Prod.snd).take (entryAt s.count)) = crc at hchecked ⊢
  generalize s.tpl.map Prod.snd = bs at hlen hchecked hcell ⊢
  have hN : entryAt s.count = 4 * s.count + 4 := Nat.add_comm _ _
  match bs with
  | b0 :: b1 :: b2 :: b3 :: tail =>
    obtain rfl : 0xA4 = b0 := by simpa [hcell] using h.command.symm
    obtain rfl : lengthByte (2 + 4 * s.count) = b1 := by simpa [hcell] using h.length.symm
    obtain rfl : 0x00 = b2 := by simpa [hcell] using h.key.symm
    obtain rfl : s.cfg.typeByte = b3 := by simpa [hcell] using h.type.symm
    simp only [hN, List.take_succ_cons, List.cons_append, List.cons.injEq, true_and] at hchecked
    simp only [List.length_cons] at hlen
    obtain ⟨es, hn, hes⟩ := exists_entries s.count (tail.take (4 * s.count)) (by simp; omega) (fun i hi b hb => by
      have hb' : b ∈ s.tpl.cell? (entryAt i) := by
        rw [hcell, entryAt, Nat.add_comm 4]
        rw [List.getElem?_take, if_pos (by omega)] at hb
        exact hb
      exact Nat.lt_succ_of_le (h.idRange i hi b hb'))
    refine ⟨es, hn, ?_⟩
    simp only [encode, hes, ← hchecked]
    rfl
  | [] | [_] | [_, _] | [_, _, _] => simp at hlen <;> omega

/-- Settles O22: what EMIT hands over is the template's bytes, which the invariant makes a broadcast frame. -/
theorem broadcastsAreWellFormedFrames : Obligations.BroadcastsAreWellFormedFrames := by
  intro s t h hzero hx hwire
  obtain ⟨hi, he, hskip | ⟨hb, hc, _⟩⟩ := execEmit_next hx
  · exact absurd (by rw [hskip.2]) hwire
  have hT := h.template hi
  obtain ⟨hmin, hmax, hcount⟩ := h.capacity hi
  obtain ⟨es, hn, hes⟩ := hT.eq_encode
  have hlen : (lengthByte (2 + 4 * s.count)).toNat = 2 + 4 * s.count := by
    simp only [lengthByte, BitVec.toNat_ofNat]; omega
  have hbyte : ∀ i < s.count, ∀ d < 4, s.tpl.cell? (entryAt i + d) = (es.flatMap Entry.bytes)[4 * i + d]? :=
    fun i hi d hd => by
      rw [hT.cell?_eq, hes, ← getElem?_encode_bcast (by omega), ← Nat.add_assoc]
      rfl
  have hid : ∀ i < s.count, s.tpl.cell? (entryAt i) = (es.map Entry.id)[i]?.map (fun b => b.setWidth 8) := fun i hi => by
    rw [List.getElem?_map, Option.map_map]
    exact (hbyte i hi 0 (by omega)).trans (getElem?_entryBytes_id es i)
  refine ⟨es, crc8 s.cfg ((s.tpl.map Prod.snd).take (entryAt s.count)), ?_, fun a => ?_, ?_, hn, ?_, fun e he => ?_, ?_⟩
  · rw [show exec .emit s = execEmit s from rfl, h.execEmit_eq hi he hb hc] at hx
    cases hx
    exact congrArg (fun f => s.wire ++ [Event.tx f]) hes
  · exact (congrArg (fun f : List Byte => f[a]?) hes).symm.trans (hT.cell?_eq a).symm
  · simp only [Instr.wellFormed, bcastLenOk, bcastCountOk, Bool.and_eq_true, beq_iff_eq, decide_eq_true_eq]
    exact ⟨hlen.trans (by omega), by omega, by omega⟩
  · refine List.nodup_iff_getElem?_ne_getElem?.2 fun i j hij hj heq => ?_
    have hj : j < s.count := by simpa [hn] using hj
    have hi : i < s.count := by omega
    have : i = j := hT.idsDistinct i hi j hj (by rw [hid i hi, hid j hj, heq])
    omega
  · obtain ⟨i, hie⟩ := List.mem_iff_getElem?.1 he
    have hi : i < s.count := hn ▸ (List.getElem?_eq_some_iff.1 hie).1
    have hrsv := (hbyte i hi 1 (by omega)).symm.trans (hT.reserved i hi)
    simpa [getElem?_entryBytes_rsv, hie] using hrsv
  · have := crc8_residue hzero ((s.tpl.map Prod.snd).take (entryAt s.count))
    rw [← hT.eq_checked, hes] at this
    exact this

end Sys2Proof.Machine
end

section
/-! PROOFS. The command engine's start steps (R130, R131, R170, R171). -/

namespace Sys2Proof.Machine

/-- A start step runs where no check of the operation stops it. -/
theorem execSendCommand_eq {s : State} (hf : s.Free) (hm : 1 ≤ s.maxServo) {cmd n : Byte} {size : ValueSize}
    (hc : commandOk cmd = true) (hn : ValueSize.ofByte n = some size) (id order : Byte) (v : Word) :
    execSendCommand cmd id order v n s = .next (s.requestBuilt cmd id order v size) := by
  rw [execSendCommand, State.whenReady_of_free hf.inited hf.eng hf.busy hf.phase, if_pos hc, hn]
  exact startExchange_eq hm _ _ _ _ _

/-- Settles O24: the request of each size, written out. -/
theorem sendCommandStartsTheExchange : Obligations.SendCommandStartsTheExchange := by
  intro cmd id order v n s hi he hb hc hm hcmd
  have hok := commandOk_iff.2 hcmd
  constructor
  · rintro rfl
    exact execSendCommand_eq ⟨hi, he, hb, hc⟩ hm hok (n := 1) rfl id order v
  · rintro rfl
    exact execSendCommand_eq ⟨hi, he, hb, hc⟩ hm hok (n := 2) rfl id order v

/-- Settles O25: the command is tested before the size. -/
theorem sendCommandRefusesOtherOperands : Obligations.SendCommandRefusesOtherOperands := by
  intro cmd id order v n s hi he hb hc
  have hx : exec (.sendCommand cmd id order v n) s = execSendCommand cmd id order v n s := rfl
  rw [hx, execSendCommand, State.whenReady_of_free hi he hb hc]
  refine ⟨fun hcmd => if_neg (fun h => hcmd (commandOk_iff.1 h)), fun hcmd h1 h2 => ?_⟩
  rw [if_pos (commandOk_iff.2 hcmd), ValueSize.ofByte, if_neg h1, if_neg h2]

/-- The first exchange's start step, written out (R170). -/
theorem startFirstExchange_eq {s : State} (hm : 1 ≤ s.maxServo) (old new : Byte) :
    startFirstExchange old new s = .next (State.requestBuilt cmdSet old s.cfg.orderMode (zext16 s.cfg.modeIdset) .one
      { s with lNewid := new, cidPhase := .first }) :=
  startExchange_eq (s := { s with lNewid := new, cidPhase := .first }) hm _ _ _ _ _

/-- A request of size 1 whose value is a byte carries that byte (R73, R170). -/
theorem requestBytes_zext16 (c : Config) (cmd id order b : Byte) :
    requestBytes c cmd id order (zext16 b) .one = [cmd, 4, 0, id, order, b, crc8 c [cmd, 4, 0, id, order, b]] := by
  have hd : ValueSize.data (zext16 b) .one = [b] := by rw [ValueSize.data, loByte_zext16]
  rw [requestBytes, requestBody, hd]
  rfl

/-- Settles O40: the first exchange's request. -/
theorem setChannelIdStartsItsFirstExchange : Obligations.SetChannelIdStartsItsFirstExchange := by
  intro old new s hi he hb hc hm
  show execSetChannelId old new s = _
  rw [execSetChannelId, State.whenReady_of_free hi he hb hc, startFirstExchange_eq hm, State.requestBuilt,
    requestBytes_zext16]
  rfl

/-- Settles O41: the pin decides. -/
theorem setChannelIdSingleNeedsNoPin : Obligations.SetChannelIdSingleNeedsNoPin := by
  intro new s hi he hb hc
  have hx : exec (.setChannelIdSingle new) s = execSetChannelIdSingle new s := rfl
  rw [hx, execSetChannelIdSingle, State.whenReady_of_free hi he hb hc]
  refine ⟨fun hp => ⟨_, if_pos hp⟩, fun hp hm => ?_⟩
  rw [if_neg (by simp [hp]), startFirstExchange_eq hm, State.requestBuilt, requestBytes_zext16]
  rfl

/-- Settles O42: ENGINE's turn in the second phase starts the second exchange. -/
theorem secondExchangeWritesTheNewId : Obligations.SecondExchangeWritesTheNewId := by
  intro s rest ht hb he hc hm
  rw [step_of_engine (State.mover_of_turns ht), engineStep_second (s := s.turnTaken) hb he hc, startSecondExchange,
    startExchange_eq (s := s.turnTaken) hm, State.requestBuilt, requestBytes_zext16, State.turnTaken, ht]
  rfl

end Sys2Proof.Machine
end

section
/-! PROOFS. The frame rows (log 19) and the stages of an exchange (R132 to R139). -/

namespace Sys2Proof.Machine

/-! Requests. -/

/-- A request row is the transmit step with its frame. -/
theorem exec_request {i : Instr} {c : Byte} (h : requestChannel i = some c) (s : State) :
    exec i s = transmitRequest c (encode i) s := by
  cases i <;> cases h <;> rfl

theorem length_encode_request {i : Instr} {c : Byte} (h : requestChannel i = some c) : (encode i).length ≤ 8 := by
  cases i <;> cases h <;> simp [encode, requestFrame1, requestFrame2]

/-- The eight request rows, as the statements list them. -/
theorem requestChannel_of_mem {c o d k : Byte} {v : Word} : ∀ i ∈ [Instr.reqSet1 c o d k, .reqSet2 c o v k,
    .reqGet1 c o d k, .reqGet2 c o v k, .reqStatus1 c o d k, .reqStatus2 c o v k, .reqModeA1 c o d k, .reqModeA2 c o v k],
    requestChannel i = some c := by
  simp [requestChannel]

/-- Settles O27: the transmit step of a channel that replies. -/
theorem requestFrameAwaitsItsEcho : Obligations.RequestFrameAwaitsItsEcho := by
  intro c o d k v s he hm hc i hi
  have hch := requestChannel_of_mem i hi
  obtain ⟨s', hs', hbytes, h⟩ := transmitRequest_eq (c := c) he hm (length_encode_request hch)
  rw [exec_request hch, h, if_neg hc, State.requestSent_eq, hbytes, hs']

/-- Settles O28: the transmit step of channel 0. -/
theorem requestFrameOfChannelZeroCompletes : Obligations.RequestFrameOfChannelZeroCompletes := by
  intro o d k v s he hm i hi
  have hch := requestChannel_of_mem i hi
  obtain ⟨s', hs', hbytes, h⟩ := transmitRequest_eq (c := 0) he hm (length_encode_request hch)
  rw [exec_request hch, h, if_pos rfl, State.noReply_eq, hbytes, hs']
  exact ⟨_, rfl⟩

/-- Settles O29: the frame rows test the engine's state first. -/
theorem framesOutOfTurnAreRefused : Obligations.FramesOutOfTurnAreRefused := by
  intro i s
  refine ⟨fun c hc he => ?_, fun hp he => ?_⟩
  · rw [exec_request hc]
    exact if_neg he
  · cases i with
    | resp => exact if_neg he
    | _ => cases hp

/-! The read stages. -/

theorem State.busAnswer_of_silent {s : State} (h : s.bus.headD [] = []) (n : Nat) : s.busAnswer n = [] := by
  rw [State.busAnswer, h, List.take_nil]

/-- The state ENGINE's turn reads, where the schedule names it. -/
theorem State.turnTaken_of_turns {s : State} {t : Turn} {rest : List Turn} (h : s.turns = t :: rest) :
    s.turnTaken = { s with turns := rest, draws := s.draws + 1 } := by
  rw [State.turnTaken, h]
  rfl

/-- Settles O30: each stage asks for its length and ends in the same way. -/
theorem silentStageTimesOut : Obligations.SilentStageTimesOut := by
  intro s rest ht hb hbus hstage
  have hsilent : ∀ n, s.turnTaken.busAnswer n = [] := State.busAnswer_of_silent hbus
  have hleft : ∀ n, engineStep s.turnTaken = .next ((s.turnTaken.readBus n).restorePin.failExchange .timeout) →
      step s = .next { s with
        turns := rest, draws := s.draws + 1, bus := s.bus.tail
        wire := s.wire ++ [.read n []] ++ (if s.hasDirPin then [.dir false] else [])
        dirLevel := if s.hasDirPin then false else s.dirLevel
        eng := .idle, rxs := [], cidPhase := .none, resCode := .timeout, resValid := false
        resValue := Config.freeWord (s.draws + 1) } := fun n h => by
    rw [step_of_engine (State.mover_of_turns ht), h, State.timeout_eq, hsilent, State.turnTaken_of_turns ht]
  rcases hstage with he | he | he
  · refine ⟨s.sentLen, _, hleft _ ?_, by simp, by simp [he], by simp [he]⟩
    rw [engineStep_echo (s := s.turnTaken) hb he, echoStage, if_pos (hsilent _)]
    rfl
  · refine ⟨2, _, hleft _ ?_, by simp [he], by simp, by simp [he]⟩
    rw [engineStep_header (s := s.turnTaken) hb he, headerStage, if_pos (hsilent _)]
  · refine ⟨(s.turnTaken.rxsByte .bodyLen 1).toNat + 1, _, hleft _ ?_, by simp [he], by simp [he], fun _ rl hrl => ?_⟩
    · rw [engineStep_body (s := s.turnTaken) hb he, bodyStage]
      exact congrArg Host.Outcome.next (if_pos (hsilent _))
    · rw [show s.turnTaken.rxsByte .bodyLen 1 = rl from Memory.read_of_cell hrl _ _]

/-- Settles O31: the echo's bytes go nowhere. -/
theorem echoIsDiscarded : Obligations.EchoIsDiscarded := by
  intro s rest ht hb he hbus
  rw [step_of_engine (State.mover_of_turns ht), engineStep_echo (s := s.turnTaken) hb he, echoStage,
    if_neg (show s.turnTaken.busAnswer s.turnTaken.sentLen ≠ [] from hbus), State.turnTaken_of_turns ht]
  rfl

/-- The header stage with an answer, by the length it reads (R135, R143). -/
theorem step_header {s : State} {rest : List Turn} (ht : s.turns = .engine :: rest) (hb : s.busy = false)
    (he : s.eng = .awaitingResponseHeader) (hbus : s.busAnswer 2 ≠ []) {l : Byte}
    (hl : (s.rxs.putBytes 0 (s.busAnswer 2)).read (s.draws + 1) .headerLen 1 = l) :
    (l.toNat + 3 ≤ 4 * s.maxServo + 5 → step s = .next { s with
      turns := rest, draws := s.draws + 1, bus := s.bus.tail, rxs := s.rxs.putBytes 0 (s.busAnswer 2)
      wire := s.wire ++ [.read 2 (s.busAnswer 2)], eng := .awaitingResponseBody }) ∧
    (4 * s.maxServo + 5 < l.toNat + 3 → step s = .fault (.rxOverrun { s with
      turns := rest, draws := s.draws + 1, bus := s.bus.tail, rxs := s.rxs.putBytes 0 (s.busAnswer 2)
      wire := s.wire ++ [.read 2 (s.busAnswer 2)] ++ (if s.hasDirPin then [.dir false] else [])
      dirLevel := if s.hasDirPin then false else s.dirLevel, eng := .idle })) := by
  have hlen : s.turnTaken.headerRead.rxsByte .headerLen 1 = l := hl
  rw [step_of_engine (State.mover_of_turns ht), engineStep_header (s := s.turnTaken) hb he, headerStage,
    if_neg (show s.turnTaken.busAnswer 2 ≠ [] from hbus), hlen]
  constructor
  · intro hfit
    rw [if_neg (show ¬ s.turnTaken.bufCap < l.toNat + 3 from Nat.not_lt.2 hfit), State.headerKept_eq,
      State.turnTaken_of_turns ht]
    rfl
  · intro hbig
    rw [if_pos (show s.turnTaken.bufCap < l.toNat + 3 from hbig), State.headerOverrun_eq, State.turnTaken_of_turns ht]
    rfl

/-- Settles O32: both bytes of the header were received, so the length read is the second. -/
theorem headerStageReadsTheLength : Obligations.HeaderStageReadsTheLength := by
  intro s rest b rl more ht hb he hbus
  have hans : s.busAnswer 2 = [b, rl] := by rw [State.busAnswer, hbus]; rfl
  have hstep := step_header ht hb he (by simp [hans]) (l := rl) (by rw [hans]; exact Memory.read_putBytes rfl _ _ _)
  rw [hans] at hstep
  refine ⟨s.rxs.putBytes 0 [b, rl], fun a => ?_, hstep⟩
  rw [Memory.cell?_putBytes]
  match a with
  | 0 => simp
  | 1 => simp
  | a + 2 => simp

/-- Settles O33: the length is whatever byte is read where none was received. -/
theorem headerStageWithoutALength : Obligations.HeaderStageWithoutALength := by
  intro s rest b ht hb he hbus hrxs
  have hans : s.busAnswer 2 = [b] := by rw [State.busAnswer, hbus]; rfl
  have hstep := step_header ht hb he (by simp [hans]) rfl
  rw [hans, hrxs] at hstep
  rcases Nat.lt_or_ge (4 * s.maxServo + 5) _ with hbig | hfit
  · exact .inr (hstep.2 hbig)
  · exact .inl (hstep.1 hfit)

/-- Settles O34: the length is `rxs[1]`, read from its cell or drawn. -/
theorem bodyStageFillsTheScratch : Obligations.BodyStageFillsTheScratch := by
  intro s rest ht hb he hbus
  have hne : s.busAnswer ((s.turnTaken.rxsByte .bodyLen 1).toNat + 1) ≠ [] := by simpa [State.busAnswer] using hbus
  refine ⟨s.turnTaken.rxsByte .bodyLen 1, s.rxs.putBytes 2 (s.busAnswer _), fun b hcell => Memory.read_of_cell hcell _ _,
    fun a => Memory.cell?_putBytes _ _ _ _, ?_⟩
  rw [step_of_engine (State.mover_of_turns ht), engineStep_body (s := s.turnTaken) hb he, bodyStage]
  simp only [if_neg (show s.turnTaken.busAnswer _ ≠ [] from hne), State.bodyKept_eq]
  rw [State.turnTaken_of_turns ht]
  rfl

end Sys2Proof.Machine
end

section
/-! PROOFS. The validate step (R138, R139): which of its three outcomes a response meets. -/

namespace Sys2Proof.Machine

/-! The reply value, in the statements' words (R80, R81). -/

theorem sext16_eq (b : Byte) : sext16 b = if 0x80 ≤ b.toNat then 0xFF00 ||| b.setWidth 16 else b.setWidth 16 := by
  have hb : b.toNat < 2 ^ 8 := b.isLt
  by_cases h : 0x80 ≤ b.toNat
  · have hm : b.msb = true := BitVec.msb_eq_decide b ▸ decide_eq_true h
    have hor := Nat.two_pow_add_eq_or_of_lt hb 255
    rw [if_pos h]
    refine BitVec.eq_of_toNat_eq ?_
    rw [sext16, BitVec.toNat_signExtend, hm, if_pos rfl, BitVec.toNat_or, BitVec.toNat_setWidth_of_le (by omega)]
    exact (Nat.add_comm _ _).trans hor
  · have hm : b.msb = false := BitVec.msb_eq_decide b ▸ decide_eq_false h
    rw [if_neg h, sext16, BitVec.signExtend_eq_setWidth_of_msb_false hm]

theorem ofHiLo_eq (h l : Byte) : ofHiLo h l = BitVec.ofNat 16 (h.toNat * 256 + l.toNat) := by
  rw [← ofHiLo_toNat, BitVec.ofNat_toNat, BitVec.setWidth_eq]

/-! The three outcomes. -/

/-- The byte the response, received alone into the scratch, has at an offset (R144: a draw where it has none). -/
def respByte (i : Instr) (s : State) (u : Use) (a : Nat) : Byte := (Memory.ofBytes 0 (encode i)).read s.draws u a

section
variable {s : State} {cmd len crc : Byte} {payload : List Byte}
  (hw : (Instr.resp cmd len payload crc).wellFormed = true) (he : s.eng = .validating)
include hw he

/-- A residue: the order byte is not read. -/
theorem exec_resp_of_residue (hr : crc8 s.cfg (encode (.resp cmd len payload crc)) ≠ 0) :
    ∃ w, exec (.resp cmd len payload crc) s = .next { s with
      rxs := [], eng := .idle, cidPhase := .none, resCode := .crcError, resValid := false, resValue := w } := by
  obtain ⟨s', hs', h⟩ := execResp_eq hw he
  refine ⟨Config.freeWord s.draws, Eq.trans h ?_⟩
  rw [if_pos hr, State.failExchange_eq (k := .crcError) nofun, hs']

/-- No residue: the order byte decides. -/
theorem exec_resp_of_sentinel (hr : crc8 s.cfg (encode (.resp cmd len payload crc)) = 0)
    (ho : respByte (.resp cmd len payload crc) s .validateOrder 4 = s.cfg.orderUnsupported) :
    exec (.resp cmd len payload crc) s = .next { s with
      rxs := [], eng := .idle, cidPhase := .none, resCode := .unsupported, resValid := false
      resValue := Config.freeWord s.draws } := by
  obtain ⟨s', hs', h⟩ := execResp_eq hw he
  refine Eq.trans h ?_
  have ho' : s'.rxsByte .validateOrder 4 = s.cfg.orderUnsupported := by rw [hs']; exact ho
  rw [if_neg (not_not.2 hr), if_pos ho', State.failExchange_eq (k := .unsupported) nofun, hs']

theorem exec_resp_of_order (hr : crc8 s.cfg (encode (.resp cmd len payload crc)) = 0)
    (ho : respByte (.resp cmd len payload crc) s .validateOrder 4 ≠ s.cfg.orderUnsupported) :
    exec (.resp cmd len payload crc) s = .next { s with
      rxs := Memory.ofBytes 0 (encode (.resp cmd len payload crc)), eng := .idle
      cidPhase := if s.cidPhase = .first then .second else .none, resCode := .ok, resValid := true
      resValue := decodeReply (respByte (.resp cmd len payload crc) s .replyData 5)
        (respByte (.resp cmd len payload crc) s .replyData 6) s.lSize } := by
  obtain ⟨s', hs', h⟩ := execResp_eq hw he
  refine Eq.trans h ?_
  have ho' : s'.rxsByte .validateOrder 4 ≠ s.cfg.orderUnsupported := by rw [hs']; exact ho
  rw [if_neg (not_not.2 hr), if_neg ho', hs', ← CidPhase.after_ok]
  rfl

end

theorem respByte_of_getElem? {i : Instr} {a : Nat} {b : Byte} (h : (encode i)[a]? = some b) (s : State) (u : Use) :
    respByte i s u a = b :=
  Memory.read_ofBytes h _ _

/-- Settles O35: a wrong last byte leaves a residue, by (T2). -/
theorem corruptedResponseIsCrcError : Obligations.CorruptedResponseIsCrcError := by
  intro cmd len crc payload s hw he h
  refine exec_resp_of_residue hw he ?_
  rcases h with hr | ⟨_, h2, hcrc⟩
  · exact hr
  · exact crc8_trailing_ne_zero (p := cmd :: len :: payload) h2 hcrc

/-- Settles O36: the order byte is the frame's. -/
theorem responseWithSentinelIsUnsupported : Obligations.ResponseWithSentinelIsUnsupported := fun _ _ _ _ _ hw he hr ho =>
  ⟨_, exec_resp_of_sentinel hw he hr (respByte_of_getElem? ho _ _)⟩

/-- The scratch after a response that completes. -/
theorem cell?_ofBytes_zero (f : List Byte) (a : Nat) : (Memory.ofBytes 0 f).cell? a = f[a]? := by
  rw [Memory.cell?_ofBytes, if_pos (Nat.zero_le a), Nat.sub_zero]

/-- Settles O37: the data bytes are the frame's; size 1 reads the first alone. -/
theorem validResponseIsDecoded : Obligations.ValidResponseIsDecoded := by
  intro cmd len crc o d1 d2 payload s hw he hr ho hne h5 h6
  refine ⟨_, cell?_ofBytes_zero _, ?_⟩
  rw [exec_resp_of_order hw he hr (by rwa [respByte_of_getElem? ho]), respByte_of_getElem? h5]
  cases hz : s.lSize with
  | one => rw [decodeReply, sext16_eq]
  | two => rw [decodeReply, respByte_of_getElem? (h6 hz), ofHiLo_eq]

/-- Settles O38: the bytes read are the frame's where it has them, and draws elsewhere. -/
theorem shortResponseStillCompletes : Obligations.ShortResponseStillCompletes := by
  intro cmd len crc payload s hw he _ hr
  refine ⟨respByte _ s .validateOrder 4, respByte _ s .replyData 5, respByte (.resp cmd len payload crc) s .replyData 6, _,
    fun b h => respByte_of_getElem? h _ _, fun b h => respByte_of_getElem? h _ _,
    exec_resp_of_sentinel hw he hr, fun ho => ⟨_, cell?_ofBytes_zero _, ?_⟩⟩
  rw [exec_resp_of_order hw he hr ho]
  cases s.lSize with
  | one => rw [decodeReply, sext16_eq]
  | two => rw [decodeReply, ofHiLo_eq]

end Sys2Proof.Machine
end

section
/-! PROOFS. A step runs the frame that stands in its buffer (log 19). -/

namespace Sys2Proof.Machine

/-- The emitter's bound on the frame is the bound on the frame it reads from the mirror. -/
theorem inBuffer_transmitMirror {s : State} {n : Nat} (hn : n = (s.mirByte .frameLen 1).toNat + 3) :
    s.inBuffer n s.transmitMirror = s.transmitMirror := by
  rw [State.transmitMirror, ← hn]
  by_cases h : n ≤ s.bufCap
  · exact if_pos h
  · exact (if_neg h).trans (if_neg h).symm

/-- The frame already stands in the mirror. -/
theorem exec_bcast_of_mir {s : State} {len typ crc : Byte} {es : List Entry}
    (hw : (Instr.bcast len typ es crc).wellFormed = true) (hm : s.mir = Memory.ofBytes 0 (encode (.bcast len typ es crc))) :
    exec (.bcast len typ es crc) s = s.emitGate s.transmitMirror := by
  have hlen : s.mirByte .frameLen 1 = len := by
    rw [State.mirByte, hm]
    exact Memory.read_ofBytes rfl _ _
  rw [← inBuffer_transmitMirror ((length_encode_bcast hw).trans (hlen ▸ rfl))]
  show execBcast len typ es crc s = _
  rw [execBcast, ← hm]

theorem execEmit_of_clean {s : State} (hd : s.dirty = false) : execEmit s = s.emitGate s.transmitMirror := by
  rw [execEmit, if_neg (by simp [hd])]

/-- Settles O53: the frame decoded is the buffer's content, so placing it again changes nothing. -/
theorem stepRunsTheFrameInItsBuffer : Obligations.StepRunsTheFrameInItsBuffer := by
  refine ⟨fun s f i hm hb he hmir hlen hdec hch => ?_, fun s f i hm hb he hrxs hdec => ?_,
    fun s f len typ crc es hm hd hmir hdec hw => ?_⟩
  · obtain ⟨_, henc⟩ := encodeInvertsDecode _ _ _ _ hdec
    rw [List.append_nil] at henc
    rw [step_of_engine hm, engineStep_sending (s := s.turnTaken) hb he, exec_request hch, henc, transmitRequest, if_pos he,
      ← hmir, ← hlen]
    rfl
  · obtain ⟨hp, henc⟩ := encodeInvertsDecode _ _ _ _ hdec
    rw [List.append_nil] at henc
    rw [step_of_engine hm, engineStep_validate (s := s.turnTaken) hb he]
    cases i with
    | resp cmd len payload crc =>
      refine Eq.symm (Eq.trans (if_pos he) ?_)
      rw [henc, ← hrxs]
      rfl
    | _ => cases hp
  · obtain ⟨_, henc⟩ := encodeInvertsDecode _ _ _ _ hdec
    rw [List.append_nil] at henc
    subst henc
    rw [step_of_tick hm, execEmit_of_clean (s := s.turnTaken) hd, ← exec_bcast_of_mir (s := s.turnTaken) hw hmir]
    rfl

end Sys2Proof.Machine
end

section
/-! PROOFS. What every step keeps, appends and answers: case splits over the effects a step can have. -/

namespace Sys2Proof.Machine

/-! The agents' inputs and the configuration. -/

/-- A step's effect leaves the schedule, the step number and the parameters to the step (log 2, 7). -/
def State.SameInputs (s t : State) : Prop := t.turns = s.turns ∧ t.draws = s.draws ∧ t.cfg = s.cfg

/-- INIT's two settings (R21). -/
def State.SameSettings (s t : State) : Prop := t.maxServo = s.maxServo ∧ t.hasDirPin = s.hasDirPin

theorem EmitEffect.sameInputs {s t : State} (h : EmitEffect s t) : s.SameInputs t ∧ t.bus = s.bus := by
  rw [h.eq_mir_dirty_wire]
  exact ⟨⟨rfl, rfl, rfl⟩, rfl⟩

theorem EmitEffect.sameSettings {s t : State} (h : EmitEffect s t) : s.SameSettings t := by
  rw [h.eq_mir_dirty_wire]
  exact ⟨rfl, rfl⟩

theorem HostEffect.sameInputs {s t : State} {i : Instr} (h : HostEffect s i t) : s.SameInputs t ∧ t.bus = s.bus := by
  cases h with
  | emit t he => exact he.sameInputs
  | _ => exact ⟨⟨rfl, rfl, rfl⟩, rfl⟩

/-- INIT alone sets them (R21). -/
theorem HostEffect.sameSettings_or_init {s t : State} {i : Instr} (h : HostEffect s i t) :
    s.SameSettings t ∨ (s.inited = false ∧ t.inited = true) := by
  cases h with
  | init m p hi => exact .inr ⟨hi, rfl⟩
  | emit t he => exact .inl he.sameSettings
  | _ => exact .inl ⟨rfl, rfl⟩

theorem EngineEffect.sameInputs {s t : State} (h : EngineEffect s t) :
    s.SameInputs t ∧ (t.bus = s.bus ∨ t.bus = s.bus.tail) := by
  cases h <;> simp [State.SameInputs, State.headerRead]

theorem EngineEffect.sameSettings {s t : State} (h : EngineEffect s t) : s.SameSettings t := by
  cases h <;> simp [State.SameSettings, State.headerRead]

/-! The log. -/

/-- EMIT hands over at most one frame (R121). -/
theorem EmitEffect.wire {s t : State} (h : EmitEffect s t) :
    ∃ es, t.wire = s.wire ++ es ∧ (es = [] ∨ ∃ bytes, es = [.tx bytes]) := by
  cases h with
  | skip => exact ⟨[], (List.append_nil _).symm, .inl rfl⟩
  | refresh n k b => exact ⟨[.tx b], rfl, .inr ⟨b, rfl⟩⟩
  | again k b => exact ⟨[.tx b], rfl, .inr ⟨b, rfl⟩⟩

/-- The events of HOST's steps (R35): a `TX` alone, and none of an exchange's reads, drains and turns. -/
def HostEvents (es : List Event) : Prop :=
  ∀ e ∈ es, (∀ b, e = .tx b → es = [.tx b]) ∧ (∀ n g, e ≠ .read n g) ∧ e ≠ .txDrain ∧ e ≠ .dir true

/-- The events of ENGINE's steps (R35): none of INIT's and SHUTDOWN's. -/
def EngineEvents (es : List Event) : Prop :=
  ∀ e ∈ es, e ≠ .dirOut ∧ e ≠ .dirRelease ∧ e ≠ .closed ∧ ∀ r ms, e ≠ .opened r ms

theorem HostEffect.wire {s t : State} {i : Instr} (h : HostEffect s i t) : ∃ es, t.wire = s.wire ++ es ∧ HostEvents es := by
  cases h with
  | init m p => exact ⟨_, rfl, by cases p <;> simp [HostEvents]⟩
  | shutdown => exact ⟨_, rfl, by cases s.hasDirPin <;> simp [HostEvents]⟩
  | emit t he =>
    obtain ⟨es, hw, rfl | ⟨b, rfl⟩⟩ := he.wire <;> exact ⟨_, hw, by simp [HostEvents]⟩
  | command | channelId | single => exact ⟨[.rxFlush], rfl, by simp [HostEvents]⟩
  | _ => exact ⟨[], (List.append_nil _).symm, nofun⟩

theorem EngineEffect.wire {s t : State} (h : EngineEffect s t) : ∃ es, t.wire = s.wire ++ es ∧ EngineEvents es := by
  cases h with
  | idle | reject | accept => exact ⟨[], (List.append_nil _).symm, nofun⟩
  | add | remove | set => exact ⟨[], by simp, nofun⟩
  | noReply => rw [State.noReply_eq]; exact ⟨_, List.append_assoc _ _ _, by cases s.hasDirPin <;> simp [EngineEvents]⟩
  | sent => rw [State.requestSent_eq]; exact ⟨_, List.append_assoc _ _ _, by cases s.hasDirPin <;> simp [EngineEvents]⟩
  | timeout n => rw [State.timeout_eq]; exact ⟨_, List.append_assoc _ _ _, by cases s.hasDirPin <;> simp [EngineEvents]⟩
  | echo => exact ⟨[.read _ _], rfl, by simp [EngineEvents]⟩
  | header => exact ⟨[.read _ _], rfl, by simp [EngineEvents]⟩
  | body n => rw [State.bodyKept_eq]; exact ⟨_, List.append_assoc _ _ _, by cases s.hasDirPin <;> simp [EngineEvents]⟩
  | second => exact ⟨[.rxFlush], rfl, by simp [EngineEvents]⟩

/-! A step that goes on, by its agent. -/

/-- HOST's step is an idle turn or an operation's effect; TICK's an emission; ENGINE's an engine effect. -/
theorem step_effect {s t : State} (h : step s = .next t) (hr : s.mover ≠ .reset) :
    (s.mover = .host ∧ (t = s.turnTaken ∨ ∃ word rest i junk, s.hostOps = word :: rest ∧
      decode .host word = .ok (i, junk) ∧ HostEffect { s.turnTaken with hostOps := rest } i t)) ∨
    (s.mover = .tick ∧ EmitEffect s.turnTaken t) ∨ (s.mover = .engine ∧ EngineEffect s.turnTaken t) := by
  rcases step_eq s with ⟨hm, hs⟩ | ⟨hm, hs⟩ | ⟨hm, hs⟩ | ⟨hm, hs⟩
  · rw [hs] at h
    rcases hostStep_next h with ⟨_, rfl⟩ | ⟨word, rest, i, junk, hops, hdec, hx⟩
    · exact .inl ⟨hm, .inl rfl⟩
    · exact .inl ⟨hm, .inr ⟨word, rest, i, junk, hops, hdec, exec_effect (decodeHost_port hdec) hx⟩⟩
  · exact .inr (.inl ⟨hm, execEmit_effect (hs ▸ h)⟩)
  · exact .inr (.inr ⟨hm, engineStep_effect (hs ▸ h)⟩)
  · exact absurd hm hr

/-- Settles O57: by the agent that moves. -/
theorem stepsOnlyAppendToTheLog : Obligations.StepsOnlyAppendToTheLog := by
  intro s t h hr
  rcases step_effect h hr with ⟨hm, rfl | ⟨_, _, _, _, _, _, he⟩⟩ | ⟨hm, he⟩ | ⟨hm, he⟩ <;> simp only [hm]
  · exact ⟨[], (List.append_nil _).symm, nofun, fun _ => nofun, nofun, rfl, rfl, rfl, .inl rfl⟩
  · obtain ⟨es, hw, hes⟩ := he.wire
    obtain ⟨⟨ht, hd, hc⟩, hb⟩ := he.sameInputs
    exact ⟨es, hw, nofun, fun _ => hes, nofun, ht, hd, hc, .inl hb⟩
  · obtain ⟨es, hw, hes⟩ := he.wire
    obtain ⟨⟨ht, hd, hc⟩, hb⟩ := he.sameInputs
    exact ⟨es, hw, fun _ => hes, nofun, nofun, ht, hd, hc, .inl hb⟩
  · obtain ⟨es, hw, hes⟩ := he.wire
    obtain ⟨⟨ht, hd, hc⟩, hb⟩ := he.sameInputs
    exact ⟨es, hw, nofun, nofun, fun _ => hes, ht, hd, hc, hb.imp_right fun h => ⟨trivial, h⟩⟩

/-- Settles O58: INIT alone sets them. -/
theorem capacityAndPinAreFixedByInit : Obligations.CapacityAndPinAreFixedByInit := by
  intro s t h hr hne
  have hdiff : ¬ s.turnTaken.SameSettings t := fun ⟨h1, h2⟩ => hne.elim (· h1) (· h2)
  rcases step_effect h hr with ⟨hm, rfl | ⟨_, _, _, _, _, _, he⟩⟩ | ⟨hm, he⟩ | ⟨hm, he⟩
  · exact absurd ⟨rfl, rfl⟩ hdiff
  · exact ⟨hm, he.sameSettings_or_init.resolve_left hdiff⟩
  · exact absurd he.sameSettings hdiff
  · exact absurd he.sameSettings hdiff

/-! `dirty`. -/

/-- A snapshot clears `dirty`, and is transmitted (R120). -/
theorem EmitEffect.clears_dirty {s t : State} (h : EmitEffect s t) (hd : s.dirty = true) (ht : t.dirty = false) :
    s.eng = .idle ∧ s.busy = false ∧ ∃ bytes, t.wire = s.wire ++ [.tx bytes] := by
  cases h with
  | skip => rw [hd] at ht; cases ht
  | refresh n k b _ he hb => exact ⟨he, hb, b, rfl⟩
  | again k b _ _ _ _ hd' => rw [hd] at hd'; cases hd'

theorem HostEffect.clears_dirty {s t : State} {i : Instr} (h : HostEffect s i t) (hd : s.dirty = true)
    (ht : t.dirty = false) : t.inited ≠ s.inited ∨ i = .emit ∧ EmitEffect s t := by
  cases h with
  | init m p hi => exact .inl (by rw [hi]; exact nofun)
  | shutdown hf => exact .inl (by rw [hf.inited]; exact nofun)
  | emit t he => exact .inr ⟨rfl, he⟩
  | command | channelId | single => cases ht
  | _ => exact absurd (hd.symm.trans ht) nofun

theorem EngineEffect.keeps_dirty {s t : State} (h : EngineEffect s t) (hd : s.dirty = true) : t.dirty = true := by
  cases h <;> simp [hd, State.headerRead]

/-- Settles O59: an emission after a snapshot, INIT, SHUTDOWN and a reset are all that clears it. -/
theorem onlyAnEmissionClearsDirty : Obligations.OnlyAnEmissionClearsDirty := by
  intro s t h hd ht
  by_cases hr : s.mover = .reset
  · exact .inl hr
  rcases step_effect h hr with ⟨hm, rfl | ⟨_, _, _, _, _, _, he⟩⟩ | ⟨hm, he⟩ | ⟨hm, he⟩
  · exact absurd (hd.symm.trans ht) nofun
  · rcases he.clears_dirty hd ht with hi | ⟨_, hemit⟩
    · exact .inr (.inl ⟨hm, hi⟩)
    · exact .inr (.inr ⟨by simp [hm], hemit.clears_dirty hd ht⟩)
  · exact .inr (.inr ⟨by simp [hm], he.clears_dirty hd ht⟩)
  · exact absurd ((he.keeps_dirty hd).symm.trans ht) nofun

/-! Results. -/

/-- The result latches stand (R30). -/
def State.SameResult (s t : State) : Prop := t.resCode = s.resCode ∧ t.resValid = s.resValid ∧ t.resValue = s.resValue

theorem EmitEffect.sameResult {s t : State} (h : EmitEffect s t) : s.SameResult t := by
  rw [h.eq_mir_dirty_wire]
  exact ⟨rfl, rfl, rfl⟩

/-- What HOST's operations answer at once (R191). -/
def HostAnswer (i : Instr) (hasDirPin : Bool) (k : ResCode) : Prop :=
  (∃ c v, i = .add c v ∧ k ∈ [ResCode.capacityExceeded, .duplicateChannel]) ∨
  (∃ c, i = .remove c ∧ k ∈ [ResCode.emptyRegistry, .channelNotFound]) ∨
  (∃ c v, i = .set c v ∧ k = .channelNotFound) ∨
  (∃ n, i = .setChannelIdSingle n ∧ hasDirPin = true ∧ k = .restrictedTopology) ∨
  ((i = .shutdown ∨ ∃ m p, i = .init m p) ∧ k = .ok)

theorem HostEffect.answer {s t : State} {i : Instr} (h : HostEffect s i t) :
    s.SameResult t ∨ (t.resValid = false ∧ HostAnswer i s.hasDirPin t.resCode) := by
  cases h with
  | init m p => exact .inr ⟨rfl, .inr (.inr (.inr (.inr ⟨.inr ⟨m, p, rfl⟩, rfl⟩)))⟩
  | shutdown => exact .inr ⟨rfl, .inr (.inr (.inr (.inr ⟨.inl rfl, rfl⟩)))⟩
  | addFail c v k _ hk => exact .inr ⟨rfl, .inl ⟨c, v, rfl, hk⟩⟩
  | removeFail c k _ hk => exact .inr ⟨rfl, .inr (.inl ⟨c, rfl, hk⟩)⟩
  | setFail c v => exact .inr ⟨rfl, .inr (.inr (.inl ⟨c, v, rfl, rfl⟩))⟩
  | singleFail b _ hp => exact .inr ⟨rfl, .inr (.inr (.inr (.inl ⟨b, rfl, hp, rfl⟩)))⟩
  | emit t he => exact .inl he.sameResult
  | _ => exact .inl ⟨rfl, rfl, rfl⟩

/-- What ends an exchange, by the stage it ends in (R133 to R138, R191). -/
def ExchangeAnswer (s t : State) : Prop :=
  (s.eng = .sending ∧ s.lId = 0 ∧ t.resCode = .ok ∧ t.resValid = false) ∨
  (s.eng ∈ [Eng.awaitingEcho, .awaitingResponseHeader, .awaitingResponseBody] ∧ t.resCode = .timeout ∧
    t.resValid = false) ∨
  (s.eng = .validating ∧ ((t.resCode = .ok ∧ t.resValid = true) ∨
    (t.resCode ∈ [ResCode.unsupported, .crcError] ∧ t.resValid = false)))

theorem EngineEffect.answer {s t : State} (h : EngineEffect s t) :
    s.SameResult t ∨ (s.busy = true ∧ t.busy = false ∧ t.resCode = .ok ∧ t.resValid = false) ∨
      (s.busy = false ∧ t.eng = .idle ∧ ExchangeAnswer s t) := by
  cases h with
  | add _ _ _ hb | remove _ _ hb | set _ _ _ hb => exact .inr (.inl ⟨hb, rfl, rfl, rfl⟩)
  | noReply hb he hid => exact .inr (.inr ⟨hb, rfl, .inl ⟨he, hid, rfl, rfl⟩⟩)
  | timeout n hb he => exact .inr (.inr ⟨hb, rfl, .inr (.inl ⟨he, rfl, rfl⟩)⟩)
  | reject k hb he hk => exact .inr (.inr ⟨hb, rfl, .inr (.inr ⟨he, .inr ⟨hk, rfl⟩⟩)⟩)
  | accept hb he => exact .inr (.inr ⟨hb, rfl, .inr (.inr ⟨he, .inl ⟨rfl, rfl⟩⟩)⟩)
  | _ => exact .inl (by simp [State.SameResult, State.headerRead])

/-- Settles O60: each effect's answer, by the agent that moves. -/
theorem operationsAnswerTheirResultKinds : Obligations.OperationsAnswerTheirResultKinds := by
  intro s t h hr
  rcases step_effect h hr with ⟨hm, rfl | ⟨word, rest, i, junk, hops, hdec, he⟩⟩ | ⟨hm, he⟩ | ⟨hm, he⟩
  · exact .inl ⟨rfl, rfl, rfl⟩
  · rcases he.answer with hsame | ⟨hv, hans⟩
    · exact .inl hsame
    · exact .inr (.inl ⟨hm, hv, word, rest, i, junk, hops, hdec, hans⟩)
  · exact .inl he.sameResult
  · rcases he.answer with hsame | ⟨hb, hans⟩ | ⟨hb, hans⟩
    · exact .inl hsame
    · exact .inr (.inr (.inl ⟨hm, hb, hans⟩))
    · exact .inr (.inr (.inr ⟨hm, hb, hans⟩))

/-! SET_CHANNEL_ID's phase. -/

/-- During an exchange the phase moves with its result, when it ends (R170). -/
theorem EngineEffect.phase {s t : State} (h : EngineEffect s t) (hb : s.busy = false) (he : s.eng ≠ .idle) :
    t.lNewid = s.lNewid ∧
      (t.eng = .idle ∧ t.cidPhase = s.cidPhase.after t.resCode ∨ t.eng ≠ .idle ∧ t.cidPhase = s.cidPhase) := by
  cases h with
  | idle h => exact absurd h (by simp [hb, he])
  | add _ _ _ hb' | remove _ _ hb' | set _ _ _ hb' => exact absurd (hb.symm.trans hb') nofun
  | noReply | timeout | reject | accept => exact ⟨by simp, .inl (by simp)⟩
  | sent | echo | header | body => exact ⟨by simp [State.headerRead], .inr (by simp [State.headerRead])⟩
  | second _ he' => exact absurd he' he

/-- Settles O43: the phase after an exchange's end is `CidPhase.after` of its result. -/
theorem firstFailureEndsSetChannelId : Obligations.FirstFailureEndsSetChannelId := by
  intro s t hm hb he h
  rw [step_of_engine hm] at h
  obtain ⟨hnew, hph⟩ := (engineStep_effect h).phase hb he
  rcases hph with ⟨hi, hc⟩ | ⟨hi, hc⟩
  · have hc : t.cidPhase = s.cidPhase.after t.resCode := hc
    refine ⟨fun _ h1 => ?_, fun _ h2 => ?_, fun _ h0 => ?_, fun hne => absurd hi hne, hnew⟩
    · rw [hc, h1]; rfl
    · rw [hc, h2]; rfl
    · rw [hc, h0]; rfl
  · exact ⟨fun h => absurd h hi, fun h => absurd h hi, fun h => absurd h hi, fun _ => hc, hnew⟩

end Sys2Proof.Machine
end

section
/-! PROOFS. The faults a step can meet from a state that meets the invariant, and the end of an exchange. -/

namespace Sys2Proof.Machine

/-! Faults. -/

theorem State.Inv.execEmit_fault {s : State} (h : s.Inv) {f : Fault} (hf : execEmit s = .fault f) :
    s.eng ≠ .idle ∧ f = .emitDuringCommand := by
  rcases State.emitGate_fault hf with hex | ⟨hi, he, hb, hc, _⟩
  · exact hex
  · rw [h.execEmit_eq hi he hb hc] at hf
    cases hf

theorem State.Inv.startExchange_ne_fault {s : State} (h : s.Inv) (hi : s.inited = true) (cmd id order : Byte) (v : Word)
    (size : ValueSize) (f : Fault) : startExchange cmd id order v size s ≠ .fault f := by
  rw [startExchange_eq (h.capacity hi).1]
  nofun

theorem State.Inv.startFirstExchange_ne_fault {s : State} (h : s.Inv) (hi : s.inited = true) (old new : Byte) (f : Fault) :
    startFirstExchange old new s ≠ .fault f := by
  rw [startFirstExchange_eq (h.capacity hi).1]
  nofun

/-- An operation whose own steps cannot fault faults for what is in progress, and for that alone (R196). -/
theorem State.whenReady_fault_of_ne {s : State} {k : Out} {f : Fault} (hf : s.whenReady k = .fault f)
    (hk : s.inited = true → k ≠ .fault f) : s.inProgress = true ∧ f = .hostOpWhileEngineBusy := by
  rcases State.whenReady_fault hf with hbusy | ⟨_, hi, hkf⟩
  · exact hbusy
  · exact absurd hkf (hk hi)

/-- A host operation's faults from a state that meets the invariant (R196). -/
theorem State.Inv.exec_fault {s : State} {i : Instr} {f : Fault} (h : s.Inv) (hp : i.port = .host)
    (hf : exec i s = .fault f) :
    (s.eng ≠ .idle ∧ f = .emitDuringCommand) ∨ (s.inProgress = true ∧ f = .hostOpWhileEngineBusy) := by
  cases i with
  | emit => exact .inl (h.execEmit_fault hf)
  | init m p =>
    refine .inr ?_
    change execInit m p s = _ at hf
    unfold execInit State.whenFree at hf
    split at hf
    · cases hf
    · split at hf <;> cases hf
      exact ⟨‹_›, rfl⟩
  | add c v | remove c =>
    refine .inr (State.whenReady_fault_of_ne hf fun _ hk => ?_)
    split at hk
    · cases hk
    · split at hk <;> cases hk
  | set c v => exact .inr (State.whenReady_fault_of_ne hf fun _ hk => by split at hk <;> cases hk)
  | sendCommand k c o v z =>
    refine .inr (State.whenReady_fault_of_ne hf fun hi hk => ?_)
    split at hk
    · split at hk
      · exact h.startExchange_ne_fault hi _ _ _ _ _ _ hk
      · cases hk
    · cases hk
  | setChannelId a b => exact .inr (State.whenReady_fault_of_ne hf fun hi => h.startFirstExchange_ne_fault hi _ _ _)
  | setChannelIdSingle b =>
    refine .inr (State.whenReady_fault_of_ne hf fun hi hk => ?_)
    split at hk
    · cases hk
    · exact h.startFirstExchange_ne_fault hi _ _ _ hk
  | shutdown => exact .inr (State.whenReady_fault_of_ne hf fun _ => nofun)
  | _ => cases hp

/-- The offsets of an accepted mutation are inside the template (R36, R102 to R104). -/
theorem State.Inv.commitMutation_runs {s : State} (h : s.Inv) {p : Pending} (hb : s.busy = true) (hp : s.pend = some p) :
    ∃ t, commitMutation p s = .next t := by
  have hacc := h.pendOk p hp
  obtain ⟨_, _, hcount⟩ := h.capacity (h.window hb).1
  cases p with
  | add id v k =>
    exact ⟨_, commitMutation_add (Pending.accepted_add hacc).2.1 id v k⟩
  | remove id k => exact ⟨_, commitMutation_remove hcount id k⟩
  | set id v k =>
    exact ⟨_, commitMutation_set hcount (Pending.lt_of_accepted_set hacc) id v⟩

theorem headerStage_runs (s : State) :
    (∃ t, headerStage s = .next t) ∨ ∃ left, headerStage s = .fault (.rxOverrun left) := by
  unfold headerStage
  split
  · exact .inl ⟨_, rfl⟩
  · split
    · exact .inr ⟨_, rfl⟩
    · exact .inl ⟨_, rfl⟩

/-- ENGINE's step from a state that meets the invariant goes on, or is RxOverrun (R143). -/
theorem State.Inv.engineStep_runs {s : State} (h : s.Inv) :
    (∃ t, engineStep s = .next t) ∨ ∃ left, engineStep s = .fault (.rxOverrun left) := by
  have hinited : s.eng ≠ .idle ∨ s.cidPhase ≠ .none → s.inited = true := fun hex => by
    by_contra hi
    obtain ⟨he, hc⟩ := h.quiet (by simpa using hi)
    exact hex.elim (· he) (· hc)
  rcases engineStep_cases s with ⟨hb, p, hp, hs⟩ | ⟨_, _, hs⟩ | ⟨_, he, hs⟩ | ⟨_, _, hs⟩ | ⟨_, _, hs⟩ |
    ⟨_, _, hs⟩ | ⟨_, _, hs⟩ | ⟨_, _, hc, hs⟩ | ⟨_, _, _, hs⟩ <;> rw [hs]
  · exact .inl (h.commitMutation_runs hb hp)
  · exact .inl ⟨_, rfl⟩
  · have hne : s.eng ≠ .idle := by rw [he]; nofun
    have hlen := (h.exchange hne).2.2
    have hcap := (h.capacity (hinited (.inl hne))).1
    have hsize := ValueSize.bytes_le s.lSize
    rw [transmitStep, State.inBuffer_of_le (by omega)]
    exact .inl ⟨_, rfl⟩
  · exact .inl ⟨_, rfl⟩
  · exact headerStage_runs s
  · exact .inl ⟨_, rfl⟩
  · exact .inl ⟨_, rfl⟩
  · rw [startSecondExchange, startExchange_eq (h.capacity (hinited (.inr (by rw [hc]; nofun)))).1]
    exact .inl ⟨_, rfl⟩
  · exact .inl ⟨_, rfl⟩

/-- The faults of a step from a state that meets the invariant, by the agent that meets them (R195, R196). -/
theorem State.Inv.step_fault {s : State} (h : s.Inv) {f : Fault} (hf : Machine.step s = .fault f) :
    (s.mover = .host ∧ ((s.eng ≠ .idle ∧ f = .emitDuringCommand) ∨
      (s.inProgress = true ∧ f = .hostOpWhileEngineBusy))) ∨
    (s.mover = .tick ∧ f = .emitDuringCommand) ∨ (s.mover = .engine ∧ ∃ left, f = .rxOverrun left) := by
  have hturn := State.inv_turnTaken h
  rcases step_eq s with ⟨hm, hs⟩ | ⟨hm, hs⟩ | ⟨hm, hs⟩ | ⟨_, hs⟩ <;> rw [hs] at hf
  · obtain ⟨word, rest, i, junk, _, hdec, hx⟩ := hostStep_fault hf
    exact .inl ⟨hm, (State.inv_withHostOps hturn rest).exec_fault (decodeHost_port hdec) hx⟩
  · exact .inr (.inl ⟨hm, (hturn.execEmit_fault hf).2⟩)
  · rcases hturn.engineStep_runs with ⟨t, ht⟩ | ⟨left, hl⟩
    · rw [ht] at hf; cases hf
    · rw [hl] at hf; cases hf
      exact .inr (.inr ⟨hm, left, rfl⟩)
  · cases hf

/-- Settles O55: no fault of a step from such a state is this one. -/
theorem noOffsetLeavesItsBuffer : Obligations.NoOffsetLeavesItsBuffer := fun _ h hf => by
  rcases h.step_fault hf with ⟨_, ⟨_, hc⟩ | ⟨_, hc⟩⟩ | ⟨_, hc⟩ | ⟨_, _, hc⟩ <;> cases hc

/-- Settles O56: with the empty schedule HOST moves when nothing is in progress, and TICK never. -/
theorem waitingHostNeverOverlaps : Obligations.WaitingHostNeverOverlaps := by
  intro s f h ht hf
  cases hr : s.engineReady with
  | true =>
    rcases h.step_fault hf with ⟨hm, _⟩ | ⟨hm, _⟩ | ⟨_, hover⟩
    · rw [State.mover_engine_of_ready ht hr] at hm; cases hm
    · rw [State.mover_engine_of_ready ht hr] at hm; cases hm
    · exact hover
  | false =>
    obtain ⟨hb, he, hc⟩ := State.engineReady_eq_false.1 hr
    have hfirst : s.cidPhase ≠ .first := fun h1 => h.firstPhase h1 he
    have hnone : s.cidPhase = .none := by
      cases hp : s.cidPhase with
      | none => rfl
      | first => exact absurd hp hfirst
      | second => exact absurd hp hc
    have hfree : s.inProgress = false := State.inProgress_eq_false.2 ⟨he, hb, hnone⟩
    rcases h.step_fault hf with ⟨_, ⟨hne, _⟩ | ⟨hp, _⟩⟩ | ⟨hm, _⟩ | ⟨_, hover⟩
    · exact absurd he hne
    · rw [hfree] at hp; cases hp
    · rw [State.mover_host_of_not_ready ht hr] at hm; cases hm
    · exact hover

/-! The end of an exchange. -/

/-- The steps a stage has left, at most (R142). -/
def Eng.stepsLeft : Eng → Nat
  | .idle => 0
  | .validating => 1
  | .awaitingResponseBody => 2
  | .awaitingResponseHeader => 3
  | .awaitingEcho => 4
  | .sending => 5

theorem Eng.stepsLeft_pos {e : Eng} (he : e ≠ .idle) : 0 < e.stepsLeft := by
  cases e with
  | idle => exact absurd rfl he
  | _ => exact Nat.succ_pos _

/-- Every step of an exchange is a step towards its end (R141, R142). -/
theorem EngineEffect.stepsLeft_lt {s t : State} (h : EngineEffect s t) (hb : s.busy = false) (he : s.eng ≠ .idle) :
    t.eng.stepsLeft < s.eng.stepsLeft := by
  have hpos := Eng.stepsLeft_pos he
  cases h with
  | idle h => exact absurd h (by simp [hb, he])
  | add _ _ _ hb' | remove _ _ hb' | set _ _ _ hb' => exact absurd (hb.symm.trans hb') nofun
  | noReply | timeout | reject | accept => exact hpos
  | sent _ hs | echo _ hs | header _ hs | body _ _ hs => rw [hs]; exact Nat.lt_succ_self _
  | second _ hs => exact absurd hs he

/-- ENGINE moves while an exchange is in progress and the schedule is empty, and the exchange comes nearer to its end. -/
theorem State.Inv.step_exchange {s : State} (h : s.Inv) (ht : s.turns = []) (he : s.eng ≠ .idle) :
    (∃ t, Machine.step s = .next t ∧ t.turns = [] ∧ t.eng.stepsLeft < s.eng.stepsLeft) ∨
      ∃ left, Machine.step s = .fault (.rxOverrun left) := by
  have hb : s.busy = false := by
    by_contra hb
    exact he (h.window (by simpa using hb)).2.1
  have hm : s.mover = .engine := State.mover_engine_of_ready ht (by simp [State.engineReady, he])
  rw [step_of_engine hm]
  refine (State.inv_turnTaken h).engineStep_runs.imp_left fun ⟨t, hs⟩ => ⟨t, hs, ?_, ?_⟩
  · obtain ⟨⟨hturns, _⟩, _⟩ := (engineStep_effect hs).sameInputs
    rw [hturns, State.turns_turnTaken, ht]
    rfl
  · exact (engineStep_effect hs).stepsLeft_lt hb he

theorem State.Inv.runs_to_idle : ∀ (n : Nat) {s : State}, s.Inv → s.turns = [] → s.eng.stepsLeft ≤ n →
    ∃ k ≤ n, (∃ t, Sys2Proof.core.run k s = .next t ∧ t.eng = .idle) ∨
      (∃ left, Sys2Proof.core.run k s = .fault (.rxOverrun left)) := by
  intro n
  induction n with
  | zero =>
    intro s h ht hn
    have he : s.eng = .idle := by
      by_contra he
      exact absurd (Eng.stepsLeft_pos he) (Nat.not_lt.2 hn)
    exact ⟨0, Nat.le_refl _, .inl ⟨s, rfl, he⟩⟩
  | succ n ih =>
    intro s h ht hn
    by_cases he : s.eng = .idle
    · exact ⟨0, Nat.zero_le _, .inl ⟨s, rfl, he⟩⟩
    rcases h.step_exchange ht he with ⟨t, hs, htt, hlt⟩ | ⟨left, hs⟩
    · obtain ⟨k, hk, hrun⟩ := ih (State.Inv.step h hs) htt (by omega)
      exact ⟨k + 1, Nat.succ_le_succ hk, by rwa [run_succ_of_next hs]⟩
    · exact ⟨1, Nat.succ_le_succ (Nat.zero_le n), .inr ⟨left, run_one_of_fault hs⟩⟩

/-- Settles O39: an exchange has at most five steps left. -/
theorem exchangeEndsWithinFiveSteps : Obligations.ExchangeEndsWithinFiveSteps := fun s h ht _ =>
  State.Inv.runs_to_idle 5 h ht (by cases s.eng <;> decide)

end Sys2Proof.Machine
end
